-- ==== Sys2Proof/Word.lean ====
section
/-! DEFINITION. The widths the block computes with (R7, R11) and the plainest arithmetic on them. -/

namespace Sys2Proof

/-- A 32-bit unsigned quantity: a stimulus word, `RES`, a counter, a timestamp, a DMEM address (R7, R90). -/
abbrev Word := BitVec 32

/-- One byte: a DMEM cell, a ring cell, a serial data register (R36, R40), and also an 8-bit priority (R29). -/
abbrev Byte := BitVec 8

/-- `trunc_32` of R11: an exact natural number reduced modulo 2^32. -/
def trunc32 (n : Nat) : Word := BitVec.ofNat 32 n

@[simp] theorem trunc32_toNat (n : Nat) : (trunc32 n).toNat = n % 2 ^ 32 := rfl

end Sys2Proof
end

