-- ==== Sys2Proof/Config.lean ====
section
/-! DEFINITION. What one implementation fixes (R6, R7, the open parameters of `92_eei_decisions.md`) and the values the
spec leaves open, which are constants without a body: no proof can see what they are. -/

namespace Sys2Proof.Config

/-- `N_RX`, the RX ring's storage size at reset: the default of R7 (D8). Every ring carries its own size, so
statements about all states cover every admissible size. -/
def nRx : Nat := 256

/-- `N_TX`, the TX ring's storage size at reset: the default of R7 (D8). -/
def nTx : Nat := 256

/-- The largest reload value of the 24-bit timer counter (R6, R120). -/
def maxReload : Nat := 0xFFFFFF

/-- The number of attempts of the coherent microsecond read (R6, R124, D13). -/
def microsAttempts : Nat := 3

/-- Microseconds per second, and microseconds per millisecond (R6). -/
def usPerSecond : Nat := 1000000
def usPerMilli : Nat := 1000

/-- The baud oversampling factor, which is also the bound of the 4-bit fraction field (R6, R183). -/
def oversampling : Nat := 16

/-- The largest divisor the 16-bit divisor register holds (R36, R184). -/
def maxDivisor : Nat := 0xFFFF

/-- OPEN (R235, V7): whether a handler whose vector has the first priority may interrupt a running handler whose vector
has the second. `Machine/Ops.lean` makes it irreflexive, as R235 says it is; nothing else about it is fixed. -/
opaque rawPreempts : Byte → Byte → Bool

/-- Free value (R150, V3): whether the n-th registration stores its argument before its callback. -/
opaque argumentFirst : Nat → Bool

/-- Free values (R151, V2): the bits, the port and the priority a failed `ILR_CONFIG` leaves behind. -/
opaque freeBit : Nat → Bool
opaque freePort : Nat → BitVec 4
opaque freePriority : Nat → Byte

end Sys2Proof.Config
end

