-- ==== Sys2Proof/Syntax.lean ====
section
/-! DEFINITION. The operations of the block as syntax: one constructor for each row of `spec/opcode_table.json`
(R92, R94; the seven vector entry points of R99 are rows of their own). -/

namespace Sys2Proof

/-- One of the sixteen external-interrupt lines, and the GPIO pin number that drives it (R6, R25, R151). -/
abbrev LineNo := Fin 16

/-- `mode`, `txmode`, `rxmode` (R92): 0 INPUT, 1 OUTPUT, 2 ALTERNATE, 3 ANALOG. -/
inductive PinMode where
  | input | output | alternate | analog
  deriving DecidableEq, Repr

/-- `edge` (R92): 0 RISING, 1 FALLING, 2 BOTH; 3 is a legal code that is no edge mode, so the operation fails. -/
inductive EdgeMode where
  | rising | falling | both | notAnEdge
  deriving DecidableEq, Repr

/-- `dir` (R92): 0 a rising edge, 1 a falling edge. -/
inductive Direction where
  | rise | fall
  deriving DecidableEq, Repr

/-- `sel` of `BT_STAT`: the ten selectors of R193. Codes 10 to 15 are reserved encodings (R96) and decode to nothing. -/
inductive StatSel where
  | rxDrop | txDrop | errOre | errFe | errNf | errPe | rxEmpty | rxFull | txEmpty | txFull
  deriving DecidableEq, Repr

/-- The operations. Commands first, then handler entries, then environment events; the last seven are the vector
entry points of R99, each another name of one `DISPATCH` word. -/
inductive Instr where
  | tbInit (prio : Byte) (clockHz periodUs : Word)
  | nowTicks
  | nowMillis
  | nowMicros
  | elapsedMs (now start : Word)
  | elapsedUs (now start : Word)
  | ilrRegister (line : Byte) (callback arg : Word)
  | ilrConfig (prio : Byte) (gok : Bool) (edge : EdgeMode) (mode : PinMode) (port : BitVec 4) (pin : LineNo)
  | btInit (prio : Byte) (gok : Bool) (rxmode txmode : PinMode) (pclkHz baud : Word)
  | baudDiv (pclkHz baud : Word)
  | btWrite (data length : Word)
  | btRead (output maxLength : Word)
  | btStat (sel : StatSel)
  | tickIrq
  | dispatch (first last : LineNo)
  | usartIrq
  | envEdge (dir : Direction) (line : LineNo)
  | envRx (nf fe pe : Bool) (byte : Byte)
  | envTxe
  | envCvr (value : BitVec 24)
  | vecL0
  | vecL1
  | vecL2
  | vecL3
  | vecL4
  | vecL5to9
  | vecL10to15
  deriving DecidableEq, Repr

/-- The three input ports (R94, R97). -/
inductive Port where
  | cmd | irq | env
  deriving DecidableEq, Repr

/-- The nine vectors of the interrupt controller (R29). -/
inductive VecId where
  | tick | l0 | l1 | l2 | l3 | l4 | l5to9 | l10to15 | serial
  deriving DecidableEq, Repr

namespace Instr

/-- The port an operation arrives on (R94). -/
def port : Instr → Port
  | .tbInit _ _ _ | .nowTicks | .nowMillis | .nowMicros | .elapsedMs _ _ | .elapsedUs _ _
  | .ilrRegister _ _ _ | .ilrConfig _ _ _ _ _ _ | .btInit _ _ _ _ _ _ | .baudDiv _ _
  | .btWrite _ _ | .btRead _ _ | .btStat _ => .cmd
  | .tickIrq | .dispatch _ _ | .usartIrq
  | .vecL0 | .vecL1 | .vecL2 | .vecL3 | .vecL4 | .vecL5to9 | .vecL10to15 => .irq
  | .envEdge _ _ | .envRx _ _ _ _ | .envTxe | .envCvr _ => .env

/-- How many stimulus words an operation occupies: 1 or 3, fixed by the opcode (R21, R93). -/
def words : Instr → Nat
  | .tbInit _ _ _ | .elapsedMs _ _ | .elapsedUs _ _ | .ilrRegister _ _ _ | .btInit _ _ _ _ _ _
  | .baudDiv _ _ | .btWrite _ _ | .btRead _ _ => 3
  | .nowTicks | .nowMillis | .nowMicros | .ilrConfig _ _ _ _ _ _ | .btStat _ | .tickIrq | .dispatch _ _ | .usartIrq
  | .envEdge _ _ | .envRx _ _ _ _ | .envTxe | .envCvr _
  | .vecL0 | .vecL1 | .vecL2 | .vecL3 | .vecL4 | .vecL5to9 | .vecL10to15 => 1

end Instr

end Sys2Proof
end

