-- ==== Sys2Proof/WellFormed.lean ====
section
/-! DEFINITION. Which terms of `Instr` are the decoding of some words. The types already hold every operand to the values
its field admits (R92, R95), so one check is left: a `DISPATCH` range that is a vector entry point is spelled with that
entry point's own name (R99), so that each word has one meaning. -/

namespace Sys2Proof

/-- The seven `DISPATCH` ranges of R99, the only ones the hardware vectors produce. -/
def vectorRange (first last : LineNo) : Bool :=
  (first == last && first ≤ 4) || (first == 5 && last == 9) || (first == 10 && last == 15)

/-- The instruction is the canonical spelling of its words. -/
def Instr.wellFormed : Instr → Bool
  | .dispatch first last => !vectorRange first last
  | .tbInit _ _ _ | .nowTicks | .nowMillis | .nowMicros | .elapsedMs _ _ | .elapsedUs _ _
  | .ilrRegister _ _ _ | .ilrConfig _ _ _ _ _ _ | .btInit _ _ _ _ _ _ | .baudDiv _ _
  | .btWrite _ _ | .btRead _ _ | .btStat _ | .tickIrq | .usartIrq
  | .envEdge _ _ | .envRx _ _ _ _ | .envTxe | .envCvr _
  | .vecL0 | .vecL1 | .vecL2 | .vecL3 | .vecL4 | .vecL5to9 | .vecL10to15 => true

end Sys2Proof
end

