-- ==== Sys2Proof/Decode.lean ====
section
/-! DEFINITION. From stimulus words to operations and back (R90 to R96, R99). The decoder is total: it answers an
operation and the words after it, or a named rejection. The encoder below it is written from the same table. -/

namespace Sys2Proof

/-- Why words are no operation. Raised by `decode`; the step refuses on each of them (R96, R93: safe, the spec gives such
words no behaviour). -/
inductive DecodeError where
  /-- There is no word left. -/
  | noWord
  /-- The opcode is not in the opcode map (R94, R96). -/
  | undefinedOpcode (op : Nat)
  /-- A bit that R92 marks "= 0" is not 0 (R96). -/
  | reservedBits
  /-- `BT_STAT` with a selector in 10 .. 15 (R96, R193). -/
  | reservedSelector
  /-- A three-word operation runs past the end of the stream (R93). -/
  | truncated
  /-- A serialised stream whose length is not a whole number of words (R61). -/
  | raggedBytes
  deriving DecidableEq, Repr

/-! ### Bit fields and the opcode table -/

/-- `w[hi:lo]`, the unsigned value of bits `hi` down to `lo` (R11). -/
def field (w : Word) (hi lo : Nat) : Nat := w.toNat / 2 ^ lo % 2 ^ (hi + 1 - lo)

/-- One row of R92 and R93: the opcode, how many words the operation takes, and the fields of `w0[23:0]` that must be 0. -/
structure OpRow where
  code : Nat
  words : Nat
  zero : List (Nat × Nat)
  deriving DecidableEq, Repr

/-- The Time Base rows (R92: opcodes 0x01 to 0x06). -/
def timeBaseRows : List OpRow :=
  [⟨0x01, 3, [(15, 0)]⟩, ⟨0x02, 1, [(23, 0)]⟩, ⟨0x03, 1, [(23, 0)]⟩, ⟨0x04, 1, [(23, 0)]⟩,
   ⟨0x05, 3, [(23, 0)]⟩, ⟨0x06, 3, [(23, 0)]⟩]

/-- The Line Router rows (R92: opcodes 0x10, 0x11). -/
def lineRouterRows : List OpRow :=
  [⟨0x10, 3, [(23, 8)]⟩, ⟨0x11, 1, [(15, 13)]⟩]

/-- The Byte Transport rows (R92: opcodes 0x20 to 0x24). -/
def byteTransportRows : List OpRow :=
  [⟨0x20, 3, [(15, 5)]⟩, ⟨0x21, 3, [(23, 0)]⟩, ⟨0x22, 3, [(23, 0)]⟩, ⟨0x23, 3, [(23, 0)]⟩, ⟨0x24, 1, [(23, 4)]⟩]

/-- The handler entries and environment events (R92: opcodes 0x80 to 0x82 and 0x90 to 0x93). -/
def eventRows : List OpRow :=
  [⟨0x80, 1, [(23, 0)]⟩, ⟨0x81, 1, [(23, 8)]⟩, ⟨0x82, 1, [(23, 0)]⟩,
   ⟨0x90, 1, [(23, 5)]⟩, ⟨0x91, 1, [(23, 11)]⟩, ⟨0x92, 1, [(23, 0)]⟩, ⟨0x93, 1, []⟩]

/-- The twenty opcodes (R94). -/
def opRows : List OpRow := timeBaseRows ++ (lineRouterRows ++ (byteTransportRows ++ eventRows))

/-- The row an opcode selects, if it is defined (R94). -/
def opRow? (code : Nat) : Option OpRow := opRows.find? (fun r => r.code == code)

/-! ### Field codes -/

/-- R92's codes of a pin mode. -/
def PinMode.ofCode : Nat → PinMode
  | 0 => .input
  | 1 => .output
  | 2 => .alternate
  | _ => .analog

def PinMode.code : PinMode → Nat
  | .input => 0
  | .output => 1
  | .alternate => 2
  | .analog => 3

/-- R92's codes of an edge selection. -/
def EdgeMode.ofCode : Nat → EdgeMode
  | 0 => .rising
  | 1 => .falling
  | 2 => .both
  | _ => .notAnEdge

def EdgeMode.code : EdgeMode → Nat
  | .rising => 0
  | .falling => 1
  | .both => 2
  | .notAnEdge => 3

def Direction.ofCode : Nat → Direction
  | 0 => .rise
  | _ => .fall

def Direction.code : Direction → Nat
  | .rise => 0
  | .fall => 1

/-- R193's selector numbers; 10 to 15 are reserved. -/
def StatSel.ofCode? : Nat → Option StatSel
  | 0 => some .rxDrop
  | 1 => some .txDrop
  | 2 => some .errOre
  | 3 => some .errFe
  | 4 => some .errNf
  | 5 => some .errPe
  | 6 => some .rxEmpty
  | 7 => some .rxFull
  | 8 => some .txEmpty
  | 9 => some .txFull
  | _ => none

def StatSel.code : StatSel → Nat
  | .rxDrop => 0
  | .txDrop => 1
  | .errOre => 2
  | .errFe => 3
  | .errNf => 4
  | .errPe => 5
  | .rxEmpty => 6
  | .rxFull => 7
  | .txEmpty => 8
  | .txFull => 9

/-- A one-bit field (R92: `gok`, `pe`, `fe`, `nf`). -/
def flagField (w : Word) (i : Nat) : Bool := field w i i == 1

/-- A four-bit line or pin number (R92, R95). -/
def lineField (w : Word) (lo : Nat) : LineNo := Fin.ofNat 16 (field w (lo + 3) lo)

/-- The eight-bit priority in `w0[23:16]` (R92, R95). -/
def prioField (w : Word) : Byte := BitVec.ofNat 8 (field w 23 16)

/-- The spelling of a `DISPATCH` word: a vector entry point's own name where the range is one (R99). -/
def dispatchSpelling (first last : LineNo) : Instr :=
  match first.val, last.val with
  | 0, 0 => .vecL0
  | 1, 1 => .vecL1
  | 2, 2 => .vecL2
  | 3, 3 => .vecL3
  | 4, 4 => .vecL4
  | 5, 9 => .vecL5to9
  | 10, 15 => .vecL10to15
  | _, _ => .dispatch first last

/-! ### The decoder -/

/-- The operands of a defined opcode whose reserved bits are 0 (R92). `w1` and `w2` are data, never decoded (R93). -/
def assemble (code : Nat) (w0 w1 w2 : Word) : Except DecodeError Instr :=
  match code with
  | 0x01 => .ok (.tbInit (prioField w0) w1 w2)
  | 0x02 => .ok .nowTicks
  | 0x03 => .ok .nowMillis
  | 0x04 => .ok .nowMicros
  | 0x05 => .ok (.elapsedMs w1 w2)
  | 0x06 => .ok (.elapsedUs w1 w2)
  | 0x10 => .ok (.ilrRegister (BitVec.ofNat 8 (field w0 7 0)) w1 w2)
  | 0x11 => .ok (.ilrConfig (prioField w0) (flagField w0 12) (EdgeMode.ofCode (field w0 11 10))
      (PinMode.ofCode (field w0 9 8)) (BitVec.ofNat 4 (field w0 7 4)) (lineField w0 0))
  | 0x20 => .ok (.btInit (prioField w0) (flagField w0 4) (PinMode.ofCode (field w0 3 2))
      (PinMode.ofCode (field w0 1 0)) w1 w2)
  | 0x21 => .ok (.baudDiv w1 w2)
  | 0x22 => .ok (.btWrite w1 w2)
  | 0x23 => .ok (.btRead w1 w2)
  | 0x24 =>
    match StatSel.ofCode? (field w0 3 0) with
    | some sel => .ok (.btStat sel)
    | none => .error .reservedSelector
  | 0x80 => .ok .tickIrq
  | 0x81 => .ok (dispatchSpelling (lineField w0 4) (lineField w0 0))
  | 0x82 => .ok .usartIrq
  | 0x90 => .ok (.envEdge (Direction.ofCode (field w0 4 4)) (lineField w0 0))
  | 0x91 => .ok (.envRx (flagField w0 10) (flagField w0 9) (flagField w0 8) (BitVec.ofNat 8 (field w0 7 0)))
  | 0x92 => .ok .envTxe
  | 0x93 => .ok (.envCvr (BitVec.ofNat 24 (field w0 23 0)))
  | op => .error (.undefinedOpcode op)

/-- The words of a row, given the first one and those after it: the two operand words and what follows (R91, R93). -/
def takeOperands (words : Nat) (rest : List Word) : Option (Word × Word × List Word) :=
  if words = 3 then
    match rest with
    | w1 :: w2 :: more => some (w1, w2, more)
    | _ => none
  else some (0, 0, rest)

/-- The operation at the head of a word list, and the words after it (R90, R93, R94, R96). -/
def decode (ws : List Word) : Except DecodeError (Instr × List Word) :=
  match ws with
  | [] => .error .noWord
  | w0 :: rest =>
    match opRow? (field w0 31 24) with
    | none => .error (.undefinedOpcode (field w0 31 24))
    | some row =>
      if row.zero.all (fun f => field w0 f.1 f.2 == 0) then
        match takeOperands row.words rest with
        | none => .error .truncated
        | some (w1, w2, more) =>
          match assemble row.code w0 w1 w2 with
          | .ok i => .ok (i, more)
          | .error e => .error e
      else .error .reservedBits

/-- Whether no three-word operation runs past the end, going from operation to operation. An undefined opcode ends the
walk: it has no length, and the run refuses there (R93). -/
def wellDelimited : List Word → Bool
  | [] => true
  | [w0] =>
    match opRow? (field w0 31 24) with
    | some row => row.words != 3
    | none => true
  | [w0, w1] =>
    match opRow? (field w0 31 24) with
    | some row => row.words != 3 && wellDelimited [w1]
    | none => true
  | w0 :: w1 :: w2 :: rest =>
    match opRow? (field w0 31 24) with
    | some row => if row.words = 3 then wellDelimited rest else wellDelimited (w1 :: w2 :: rest)
    | none => true

/-! ### Serialised streams -/

/-- A word from its four bytes, least significant byte first (R61). -/
def wordOfBytes (b0 b1 b2 b3 : Byte) : Word :=
  trunc32 (b0.toNat + b1.toNat * 2 ^ 8 + b2.toNat * 2 ^ 16 + b3.toNat * 2 ^ 24)

/-- The words of a serialised stream (R61). -/
def wordsOfBytes : List Byte → Option (List Word)
  | [] => some []
  | b0 :: b1 :: b2 :: b3 :: rest => (wordsOfBytes rest).map (wordOfBytes b0 b1 b2 b3 :: ·)
  | _ => none

/-- The bytes of a word, least significant first (R61). -/
def bytesOfWord (w : Word) : List Byte :=
  [BitVec.ofNat 8 (field w 7 0), BitVec.ofNat 8 (field w 15 8), BitVec.ofNat 8 (field w 23 16),
   BitVec.ofNat 8 (field w 31 24)]

/-- The operation at the head of a serialised stream, total on any bytes (R61, R90). -/
def decodeBytes (bs : List Byte) : Except DecodeError (Instr × List Word) :=
  match wordsOfBytes bs with
  | some ws => decode ws
  | none => .error .raggedBytes

/-! ### The encoder -/

/-- `w0` from its opcode and its fields, each a value and the position of its lowest bit (R91, R92). -/
def word0 (op : Nat) (parts : List (Nat × Nat)) : Word :=
  trunc32 (op * 2 ^ 24 + (parts.map (fun p => p.1 * 2 ^ p.2)).sum)

/-- A one-bit field's value (R92). -/
def flagCode (b : Bool) : Nat := if b then 1 else 0

/-- The word of a `DISPATCH` range (R92, R99). -/
def dispatchWord (first last : Nat) : Word := word0 0x81 [(last, 0), (first, 4)]

/-- The words of an operation (R91, R92, R99). -/
def encode : Instr → List Word
  | .tbInit prio clockHz periodUs => [word0 0x01 [(prio.toNat, 16)], clockHz, periodUs]
  | .nowTicks => [word0 0x02 []]
  | .nowMillis => [word0 0x03 []]
  | .nowMicros => [word0 0x04 []]
  | .elapsedMs now start => [word0 0x05 [], now, start]
  | .elapsedUs now start => [word0 0x06 [], now, start]
  | .ilrRegister line callback arg => [word0 0x10 [(line.toNat, 0)], callback, arg]
  | .ilrConfig prio gok edge mode port pin =>
    [word0 0x11 [(pin.val, 0), (port.toNat, 4), (mode.code, 8), (edge.code, 10), (flagCode gok, 12), (prio.toNat, 16)]]
  | .btInit prio gok rxmode txmode pclkHz baud =>
    [word0 0x20 [(txmode.code, 0), (rxmode.code, 2), (flagCode gok, 4), (prio.toNat, 16)], pclkHz, baud]
  | .baudDiv pclkHz baud => [word0 0x21 [], pclkHz, baud]
  | .btWrite data length => [word0 0x22 [], data, length]
  | .btRead output maxLength => [word0 0x23 [], output, maxLength]
  | .btStat sel => [word0 0x24 [(sel.code, 0)]]
  | .tickIrq => [word0 0x80 []]
  | .dispatch first last => [dispatchWord first.val last.val]
  | .usartIrq => [word0 0x82 []]
  | .envEdge dir line => [word0 0x90 [(line.val, 0), (dir.code, 4)]]
  | .envRx nf fe pe byte => [word0 0x91 [(byte.toNat, 0), (flagCode pe, 8), (flagCode fe, 9), (flagCode nf, 10)]]
  | .envTxe => [word0 0x92 []]
  | .envCvr value => [word0 0x93 [(value.toNat, 0)]]
  | .vecL0 => [dispatchWord 0 0]
  | .vecL1 => [dispatchWord 1 1]
  | .vecL2 => [dispatchWord 2 2]
  | .vecL3 => [dispatchWord 3 3]
  | .vecL4 => [dispatchWord 4 4]
  | .vecL5to9 => [dispatchWord 5 9]
  | .vecL10to15 => [dispatchWord 10 15]

/-! ### Assembler syntax (R98) -/

/-- The symbolic codes of R98; an edge code that is no edge mode has no name and is written as its number. -/
def PinMode.symbol : PinMode → String
  | .input => "INPUT"
  | .output => "OUTPUT"
  | .alternate => "ALTERNATE"
  | .analog => "ANALOG"

def EdgeMode.symbol : EdgeMode → String
  | .rising => "RISING"
  | .falling => "FALLING"
  | .both => "BOTH"
  | .notAnEdge => "3"

def Direction.symbol : Direction → String
  | .rise => "RISE"
  | .fall => "FALL"

/-- The selector names of R193. -/
def StatSel.symbol : StatSel → String
  | .rxDrop => "RX_DROP"
  | .txDrop => "TX_DROP"
  | .errOre => "ERR_ORE"
  | .errFe => "ERR_FE"
  | .errNf => "ERR_NF"
  | .errPe => "ERR_PE"
  | .rxEmpty => "RX_EMPTY"
  | .rxFull => "RX_FULL"
  | .txEmpty => "TX_EMPTY"
  | .txFull => "TX_FULL"

/-- An operand, `name=value` with a decimal value. -/
def asmNat (name : String) (n : Nat) : String := name ++ "=" ++ toString n

/-- A symbolic operand. -/
def asmName (name symbol : String) : String := name ++ "=" ++ symbol

/-- A one-bit operand. -/
def asmFlag (name : String) (b : Bool) : String := asmNat name (flagCode b)

/-- A mnemonic and its operands, in R98's order. -/
def asmLine (mnemonic : String) (operands : List String) : String :=
  match operands with
  | [] => mnemonic
  | _ :: _ => mnemonic ++ " " ++ String.intercalate ", " operands

/-- The line R98 writes for an operation: fields of `w0` from the highest bit position to the lowest, then `w1`, `w2`. -/
def Instr.assembly : Instr → String
  | .tbInit prio clockHz periodUs =>
    asmLine "TB_INIT"
      [asmNat "prio" prio.toNat, asmNat "clock_hz" clockHz.toNat, asmNat "period_us" periodUs.toNat]
  | .nowTicks => "NOW_TICKS"
  | .nowMillis => "NOW_MILLIS"
  | .nowMicros => "NOW_MICROS"
  | .elapsedMs now start => asmLine "ELAPSED_MS" [asmNat "now" now.toNat, asmNat "start" start.toNat]
  | .elapsedUs now start => asmLine "ELAPSED_US" [asmNat "now" now.toNat, asmNat "start" start.toNat]
  | .ilrRegister line callback arg =>
    asmLine "ILR_REGISTER" [asmNat "line" line.toNat, asmNat "callback" callback.toNat, asmNat "arg" arg.toNat]
  | .ilrConfig prio gok edge mode port pin =>
    asmLine "ILR_CONFIG" [asmNat "prio" prio.toNat, asmFlag "gok" gok, asmName "edge" edge.symbol,
      asmName "mode" mode.symbol, asmNat "port" port.toNat, asmNat "pin" pin.val]
  | .btInit prio gok rxmode txmode pclkHz baud =>
    asmLine "BT_INIT" [asmNat "prio" prio.toNat, asmFlag "gok" gok, asmName "rxmode" rxmode.symbol,
      asmName "txmode" txmode.symbol, asmNat "pclk_hz" pclkHz.toNat, asmNat "baud" baud.toNat]
  | .baudDiv pclkHz baud => asmLine "BAUD_DIV" [asmNat "pclk_hz" pclkHz.toNat, asmNat "baud" baud.toNat]
  | .btWrite data length => asmLine "BT_WRITE" [asmNat "data" data.toNat, asmNat "length" length.toNat]
  | .btRead output maxLength =>
    asmLine "BT_READ" [asmNat "output" output.toNat, asmNat "max_length" maxLength.toNat]
  | .btStat sel => asmLine "BT_STAT" [asmName "sel" sel.symbol]
  | .tickIrq => "TICK_IRQ"
  | .dispatch first last => asmLine "DISPATCH" [asmNat "first" first.val, asmNat "last" last.val]
  | .usartIrq => "USART_IRQ"
  | .envEdge dir line => asmLine "ENV_EDGE" [asmName "dir" dir.symbol, asmNat "line" line.val]
  | .envRx nf fe pe byte =>
    asmLine "ENV_RX" [asmFlag "nf" nf, asmFlag "fe" fe, asmFlag "pe" pe, asmNat "byte" byte.toNat]
  | .envTxe => "ENV_TXE"
  | .envCvr value => asmLine "ENV_CVR" [asmNat "value" value.toNat]
  | .vecL0 => "VEC_L0"
  | .vecL1 => "VEC_L1"
  | .vecL2 => "VEC_L2"
  | .vecL3 => "VEC_L3"
  | .vecL4 => "VEC_L4"
  | .vecL5to9 => "VEC_L5_9"
  | .vecL10to15 => "VEC_L10_15"

/-- The stimulus words of a program: each operation with its repeat count (R90, R98). -/
def assembleProgram (lines : List (Instr × Nat)) : List Word :=
  lines.flatMap (fun p => (List.replicate p.2 (encode p.1)).flatten)

/-! ### The host's numbering -/

/-- The words of an instruction given as one number: bit 0 is bit 0 of the first word, and each later word's bits count on.
Every bit from `nbits` up is 0. -/
def tableWords (nbits w : Nat) : List Word :=
  [trunc32 (w % 2 ^ nbits), trunc32 (w % 2 ^ nbits / 2 ^ 32), trunc32 (w % 2 ^ nbits / 2 ^ 64)]

/-- The same words, cut to the length the opcode gives them (R93). -/
def tableOperation (nbits w : Nat) : List Word :=
  match opRow? (field (trunc32 (w % 2 ^ nbits)) 31 24) with
  | some row => (tableWords nbits w).take row.words
  | none => (tableWords nbits w).take 1

/-- The instruction the decoder reads from a row of the opcode table. -/
def decodeTableWord (nbits w : Nat) : Option Instr :=
  match decode (tableWords nbits w) with
  | .ok (i, _) => some i
  | .error _ => none

end Sys2Proof
end

