-- ==== Sys2Proof/Machine/State.lean ====
section
/-! DEFINITION. Everything the spec gives the machine (`10_state.md`), the reasons a step can stop, and the state after
reset (R41, R271). -/

namespace Sys2Proof.Machine

/-! ### Time Base, result registers -/

/-- `RES` and `OK` (R20). Every command writes both; no rule reads either. -/
structure Results where
  res : Word
  ok : Bool
  deriving DecidableEq, Repr

/-- The Time Base (R22). -/
structure TimeBase where
  init : Bool
  tickCount : Word
  load : BitVec 24
  periodUs : Word
  clockHz : Word
  deriving DecidableEq, Repr

/-! ### Interrupt Line Router and interrupt controller -/

/-- One entry of the line table: UNREGISTERED when `valid` is false, else REGISTERED(`cb`, `arg`) (R25). -/
structure LineEntry where
  valid : Bool
  cb : Word
  arg : Word
  deriving DecidableEq, Repr

/-- The hardware attributes of one line (R27). -/
structure LineAttr where
  port : BitVec 4
  rise : Bool
  fall : Bool
  unmask : Bool
  deriving DecidableEq, Repr

/-- The line table, the line attributes, and the pending-flags word, whose bit `l` is `ilr.pend[l]` (R25, R27, R28). -/
structure LineRouter where
  table : Vector LineEntry 16
  attr : Vector LineAttr 16
  pend : BitVec 16
  deriving DecidableEq, Repr

/-- The interrupt controller's attributes of one vector (R29). -/
structure VectorAttr where
  en : Bool
  prio : Byte
  deriving DecidableEq, Repr

/-! ### Byte Transport -/

/-- A ring buffer (R30): its storage, whose length is the ring's size `N`, the two indices and the drop count. A cell that
nothing has written holds no value (R41, V1). -/
structure Ring where
  buf : List (Option Byte)
  head : Nat
  tail : Nat
  drop : Word
  deriving DecidableEq, Repr

/-- An empty ring of size `n` with unwritten storage (R30, R41). -/
def Ring.ofSize (n : Nat) : Ring := { buf := List.replicate n none, head := 0, tail := 0, drop := 0 }

/-- The transport handle: the four error counters and the initialisation flag (R33). -/
structure Transport where
  errOre : Word
  errFe : Word
  errNf : Word
  errPe : Word
  init : Bool
  deriving DecidableEq, Repr

/-- The serial peripheral: status flags (R34), control bits (R35), data and divisor registers (R36). -/
structure Usart where
  ore : Bool
  fe : Bool
  nf : Bool
  pe : Bool
  rxne : Bool
  txe : Bool
  clk : Bool
  te : Bool
  re : Bool
  rxneie : Bool
  txeie : Bool
  ue : Bool
  rdr : Byte
  tdr : Byte
  brr : BitVec 16
  deriving DecidableEq, Repr

/-- One callback invocation as `calls` records it (R38). -/
structure CallRecord where
  line : LineNo
  cb : Word
  arg : Word
  deriving DecidableEq, Repr

/-! ### Operations in flight -/

/-- Where `NOW_MICROS` is suspended, with the samples it has taken (R39 (a), R124). -/
inductive MicrosPoint where
  /-- After the first read of the tick count. -/
  | haveT1 (t1 : Word)
  /-- After the sample of the down-counter. -/
  | haveCvr (t1 : Word) (c : BitVec 24)
  /-- After an attempt whose two reads differ. -/
  | mismatch
  deriving DecidableEq, Repr

/-- The store of `ILR_REGISTER` that is still to be done (R39 (d), R150). -/
inductive TableStore where
  | callback (cb : Word)
  | argument (arg : Word)
  deriving DecidableEq, Repr

/-- Where `BT_WRITE` is suspended (R39 (c), R186). -/
inductive WritePoint where
  /-- Before byte `i`, with `accepted` bytes stored so far. -/
  | beforeByte (i accepted : Nat)
  /-- Before the transmit-interrupt is armed. -/
  | beforeArm (accepted : Nat)
  deriving DecidableEq, Repr

/-- Where `DISPATCH` is suspended (R39 (b), R152). -/
inductive DispatchPoint where
  /-- Before the line's snapshot bit is tested. -/
  | beforeLine
  /-- After the acknowledgment, before the table is read. -/
  | acknowledged
  /-- Inside the line's callback, which has these commands still to issue (R153). -/
  | inCallback (commands : List Instr)
  deriving DecidableEq, Repr

/-- An operation suspended at one of its preemption points, with its local state (R39, R237, R238). -/
inductive Frame where
  /-- `left` further attempts may follow the present one. -/
  | nowMicros (left : Nat) (point : MicrosPoint)
  | ilrRegister (line : LineNo) (rest : TableStore)
  | btWrite (data length : Word) (point : WritePoint)
  | btRead (output maxLength : Word) (n : Nat)
  /-- The handler of `vector`, servicing `line` with the lines `rest` to follow. -/
  | dispatch (vector : VecId) (snap : BitVec 16) (line : LineNo) (rest : List LineNo) (point : DispatchPoint)
  deriving DecidableEq, Repr

/-- What the outside world does at the preemption points to come (R238). -/
inductive Arrival where
  /-- Nothing (more) happens at this point: the operation in flight goes on. -/
  | pass
  /-- This handler entry or environment event happens at this point. -/
  | deliver (i : Instr)
  deriving DecidableEq, Repr

end Sys2Proof.Machine

/-! ### The state -/

namespace Sys2Proof.Machine

/-- The machine's state. -/
structure State where
  /-- `RES` and `OK` (R20). -/
  out : Results
  /-- The stimulus position, counted in words (R21). -/
  sp : Nat
  /-- The stimulus stream, an input no operation writes (R90, R74). -/
  stream : List Word
  /-- The Time Base (R22). -/
  tb : TimeBase
  /-- The down-counter reading the environment presents (R24), as the last `ENV_CVR` set it (V4, log entry 21). -/
  cvr : BitVec 24
  /-- The Interrupt Line Router (R25 to R28). -/
  ilr : LineRouter
  /-- The interrupt controller's attributes, indexed by `VecId.index` (R29). -/
  nvic : Vector VectorAttr 9
  /-- The RX and TX rings (R30). -/
  rx : Ring
  tx : Ring
  /-- The transport handle (R33). -/
  bt : Transport
  /-- The serial peripheral (R34 to R36). -/
  us : Usart
  /-- The caller's data memory: its bytes other than 0, addresses rising (R40, R65). -/
  dmem : List Host.Cell
  /-- The output trace `tx_line` (R38). -/
  txLine : List Byte
  /-- The output trace `calls` (R38). -/
  calls : List CallRecord
  /-- The operations in flight, the running one first; empty in normal context between two operations (R39, R237). -/
  frames : List Frame
  /-- The model's own: what arrives at the preemption points to come. Empty in a scripted run (R101). -/
  arrivals : List Arrival
  /-- The model's own: the commands the callbacks to come will issue, one list an invocation (R153). An invocation with
  no list issues nothing, so the field is empty in a scripted run. -/
  callbackPlan : List (List Instr)
  /-- The model's own: how many free values have been drawn. -/
  draws : Nat
  deriving DecidableEq, Repr

/-- The reasons a step stops with a fault. -/
inductive Fault where
  /-- A ring cell that no push has written was popped. Raised by `USART_IRQ` and `BT_READ`. Safe: V1 of
  `93_implementation_defined.md` makes such a read a fault of the model, and no state within the ring invariant has one. -/
  | unwrittenRingCell
  deriving DecidableEq, Repr

/-- The reasons a step has no meaning (R10). All are safe: the model stops where the spec gives no transition. -/
inductive Refusal where
  /-- An instruction that has no meaning in this model yet. Raised by `exec` alone. -/
  | notModelled (mnemonic : String)
  /-- A second `TB_INIT` or `BT_INIT` after a success (R120, R184, R289; U1, U2). -/
  | reinit
  /-- `TICK_IRQ` before `TB_INIT` has succeeded (R121; U3). -/
  | tickBeforeInit
  /-- `ILR_REGISTER` of a null callback for a valid line (R150; U4). -/
  | nullCallback
  /-- `BT_INIT` with good pins and a baud rate of 0 or a divisor above 16 bits (R184; U5). -/
  | baudUnfit
  /-- `BT_WRITE` or `BT_READ` before `BT_INIT` has succeeded (R186, R187; U6). -/
  | useBeforeInit
  /-- `NOW_MICROS` sampling a down-counter above the reload value (R124; U7). -/
  | cvrAboveLoad
  /-- The words at `sp` are no operation (R96; U8). Raised by the fetch. -/
  | undecodable (why : DecodeError)
  /-- A three-word operation runs past the end of the stream, which is refused as a whole (R93; U8). Raised by the fetch. -/
  | streamMalformed
  /-- The run has ended: no word is left and no operation is in flight (R275). Raised by the fetch. -/
  | streamEnded
  /-- A command arriving at a preemption point: normal-context code cannot run there (R237, R238). -/
  | notAnEvent
  /-- A handler entered while its own vector is active (R239, R294). -/
  | vectorActive
  /-- A handler entered over one that it may not preempt (R235, R238). -/
  | notPreempting
  /-- A callback issuing something that is not a command (R153). -/
  | notACommand
  deriving DecidableEq, Repr

/-- The three outcomes of a step (R10: success and failure are both a next state). -/
abbrev Result := Host.Outcome State Fault Refusal

/-! ### Reset -/

def LineEntry.unregistered : LineEntry := { valid := false, cb := 0, arg := 0 }

def LineAttr.reset : LineAttr := { port := 0, rise := false, fall := false, unmask := false }

def VectorAttr.reset : VectorAttr := { en := false, prio := 0 }

/-- The reset state with rings of the two sizes given (R41, R271; the sizes are the open parameters of R7). -/
def State.resetSized (nRx nTx : Nat) : State where
  out := { res := 0, ok := false }
  sp := 0
  stream := []
  tb := { init := false, tickCount := 0, load := 0, periodUs := 0, clockHz := 0 }
  cvr := 0
  ilr := { table := Vector.replicate 16 .unregistered, attr := Vector.replicate 16 .reset, pend := 0 }
  nvic := Vector.replicate 9 .reset
  rx := Ring.ofSize nRx
  tx := Ring.ofSize nTx
  bt := { errOre := 0, errFe := 0, errNf := 0, errPe := 0, init := false }
  us :=
    { ore := false, fe := false, nf := false, pe := false, rxne := false, txe := false
      clk := false, te := false, re := false, rxneie := false, txeie := false, ue := false
      rdr := 0, tdr := 0, brr := 0 }
  dmem := []
  txLine := []
  calls := []
  frames := []
  arrivals := []
  callbackPlan := []
  draws := 0

/-- The machine right after reset, with rings of the default sizes (R7, R41, R271). -/
def State.reset : State := State.resetSized Config.nRx Config.nTx

end Sys2Proof.Machine
end

