-- ==== Sys2Proof/Machine/Ops.lean ====
section
/-! DEFINITION. The operations every meaning is made of: field updates, the result registers, DMEM, the rings, free values,
preemption points and the entry of a handler. -/

namespace Sys2Proof.Machine

/-! ### Field updates -/

namespace State

def setOut (s : State) (x : Results) : State := { s with out := x }
def setSp (s : State) (x : Nat) : State := { s with sp := x }
def setTb (s : State) (x : TimeBase) : State := { s with tb := x }
def setCvr (s : State) (x : BitVec 24) : State := { s with cvr := x }
def setIlr (s : State) (x : LineRouter) : State := { s with ilr := x }
def setNvic (s : State) (x : Vector VectorAttr 9) : State := { s with nvic := x }
def setRx (s : State) (x : Ring) : State := { s with rx := x }
def setTx (s : State) (x : Ring) : State := { s with tx := x }
def setBt (s : State) (x : Transport) : State := { s with bt := x }
def setUs (s : State) (x : Usart) : State := { s with us := x }
def setDmem (s : State) (x : List Host.Cell) : State := { s with dmem := x }
def setTxLine (s : State) (x : List Byte) : State := { s with txLine := x }
def setCalls (s : State) (x : List CallRecord) : State := { s with calls := x }
def setFrames (s : State) (x : List Frame) : State := { s with frames := x }
def setArrivals (s : State) (x : List Arrival) : State := { s with arrivals := x }
def setCallbackPlan (s : State) (x : List (List Instr)) : State := { s with callbackPlan := x }
def setDraws (s : State) (x : Nat) : State := { s with draws := x }

end State

/-! ### The end of a command -/

/-- A command ends: `OK` and `RES` are written (R12, R20). -/
def State.finish (s : State) (ok : Bool) (res : Word) : Result := .next (s.setOut { res := res, ok := ok })

/-- A command succeeds with a value: `RES <- v; OK <- 1`. -/
def State.succeed (s : State) (v : Word) : Result := s.finish true v

/-- `fail` of R12: `OK <- 0; RES <- 0`, and nothing else changes. -/
def State.fail (s : State) : Result := s.finish false 0

/-! ### DMEM (R40, R65) -/

namespace Memory

/-- What a DMEM byte that no entry lists reads as (V9; DESIGN CHOICE of log entry 6). -/
def unlisted : Byte := 0

/-- The byte at an address. -/
def read : List Host.Cell → Nat → Byte
  | [], _ => unlisted
  | (k, v) :: rest, a => if k = a then v else read rest a

/-- The memory with the byte at an address replaced, in canonical form. -/
def write : List Host.Cell → Nat → Byte → List Host.Cell
  | [], a, b => if b = unlisted then [] else [(a, b)]
  | (k, v) :: rest, a, b =>
    if k < a then (k, v) :: write rest a b
    else if k = a then (if b = unlisted then rest else (a, b) :: rest)
    else if b = unlisted then (k, v) :: rest
    else (a, b) :: (k, v) :: rest

/-- Addresses strictly rising from `low` on, below 2^32, and no entry equal to what an unlisted address reads as. -/
def wfFrom : Nat → List Host.Cell → Bool
  | _, [] => true
  | low, (k, v) :: rest => decide (low ≤ k) && decide (k < 2 ^ 32) && v != unlisted && wfFrom (k + 1) rest

/-- The canonical form of DMEM. -/
def wf (m : List Host.Cell) : Bool := wfFrom 0 m

end Memory

/-- `MemRead(a, 1)` (R12, R65). -/
def State.memRead (s : State) (a : Word) : Byte := Memory.read s.dmem a.toNat

/-- `MemWrite(a, 1, b)` (R12, R65). -/
def State.memWrite (s : State) (a : Word) (b : Byte) : State := s.setDmem (Memory.write s.dmem a.toNat b)

/-! ### The rings (R180 to R182) -/

namespace Ring

/-- `N`, the size of the storage (R30). -/
def size (r : Ring) : Nat := r.buf.length

/-- `(x + 1) mod N`, the only index arithmetic (R181, R182, R197). -/
def nextIndex (r : Ring) (x : Nat) : Nat := (x + 1) % r.size

/-- `ring_empty` (R180). -/
def isEmpty (r : Ring) : Bool := r.head == r.tail

/-- `ring_full` (R180). -/
def isFull (r : Ring) : Bool := r.nextIndex r.head == r.tail

/-- `ring_count`, the number of live bytes (R180). -/
def count (r : Ring) : Nat := (r.head + (r.size - r.tail)) % r.size

/-- `ring_space` (R180). -/
def space (r : Ring) : Nat := r.size - 1 - r.count

/-- The cell at an index; nothing where no push has written (R31, R41). -/
def cell (r : Ring) (i : Nat) : Option Byte := r.buf.getD i none

/-- `ring_push`: nothing is `FULL`, else the ring with the byte stored first and the head advanced after (R181). -/
def push (r : Ring) (b : Byte) : Option Ring :=
  if r.isFull then none
  else some { r with buf := r.buf.set r.head (some b), head := r.nextIndex r.head }

/-- What a pop answers (R182). -/
inductive Popped where
  | empty
  | byte (b : Byte) (r : Ring)
  | unwritten
  deriving DecidableEq, Repr

/-- `ring_pop`: the byte at the tail is read first and the tail advanced after (R182). -/
def pop (r : Ring) : Popped :=
  if r.isEmpty then .empty
  else
    match r.cell r.tail with
    | some b => .byte b { r with tail := r.nextIndex r.tail }
    | none => .unwritten

/-- The drop count grows by `n`, wrapping (R30, R197). -/
def addDrop (r : Ring) (n : Word) : Ring := { r with drop := r.drop + n }

/-- What `BT_INIT` does to a ring: empty, drop count 0, storage not cleared (R184). -/
def emptied (r : Ring) : Ring := { r with head := 0, tail := 0, drop := 0 }

/-- A power of two that is at least 2, the sizes the constructor accepts (R7, U9). -/
def goodSize (n : Nat) : Bool := decide (2 ≤ n) && decide (2 ^ n.log2 = n)

/-- The constructor of a ring, which rejects any other size (R7). -/
def make? (n : Nat) : Option Ring := if goodSize n then some (Ring.ofSize n) else none

/-- The live bytes, oldest first (R31). -/
def contents (r : Ring) : List Byte :=
  (List.range r.count).filterMap (fun k => r.cell ((r.tail + k) % r.size))

/-- The ring invariant: an admissible size, indices below it, and every live cell written (R30, R31). -/
def wf (r : Ring) : Bool :=
  goodSize r.size && decide (r.head < r.size) && decide (r.tail < r.size) &&
    (List.range r.count).all (fun k => (r.cell ((r.tail + k) % r.size)).isSome)

end Ring

/-- The machine at reset with rings of other sizes; nothing where a size is rejected (R7, U9). -/
def State.make? (nRx nTx : Nat) : Option State :=
  if Ring.goodSize nRx && Ring.goodSize nTx then some (State.resetSized nRx nTx) else none

/-! ### Free values -/

/-- Count `n` draws, so that the next free value is a fresh one. -/
def State.drawn (s : State) (n : Nat) : State := s.setDraws (s.draws + n)

/-! ### Preemption points (R238) -/

/-- Whether something happens at the present preemption point. -/
def State.arrivalWaiting (s : State) : Bool :=
  match s.arrivals with
  | .deliver _ :: _ => true
  | _ => false

/-- The operation in flight goes on past the present point. -/
def State.passPoint (s : State) : State :=
  match s.arrivals with
  | .pass :: later => s.setArrivals later
  | _ => s

/-- The operation in flight is suspended, its local state kept (R237). -/
def State.suspend (s : State) (f : Frame) : State := s.setFrames (f :: s.frames)

/-- A preemption point `[P]` or `[Q]`: if something arrives here the operation is suspended as `f`, else it goes on as
`go` says (R237, R238). -/
def atPoint (f : Frame) (s : State) (go : State → Result) : Result :=
  if s.arrivalWaiting then .next (s.suspend f) else go s.passPoint

/-! ### Entering a handler (R232, R235, R237 to R239)

This is the block's whole exception mechanism. R230: no operation raises a synchronous exception. R237: entering a handler
saves and changes nothing but the suspension of the operation in flight; R239: a handler returns by reaching its end and
there is nothing to restore. -/

/-- `preempts(p, q)` (R235): the open parameter, irreflexive as the rule says. -/
def preempts (p q : Byte) : Bool := p != q && Config.rawPreempts p q

/-- The vector whose handler a suspended operation is running (R232). -/
def Frame.vector? : Frame → Option VecId
  | .dispatch v _ _ _ _ => some v
  | .nowMicros _ _ | .ilrRegister _ _ | .btWrite _ _ _ | .btRead _ _ _ => none

/-- The vectors whose handlers are active, the running one first (R39 (f)). -/
def State.activeVectors (s : State) : List VecId := s.frames.filterMap Frame.vector?

/-- Where a vector's attributes stand (R29). -/
def vectorIndex : VecId → Fin 9
  | .tick => 0
  | .l0 => 1
  | .l1 => 2
  | .l2 => 3
  | .l3 => 4
  | .l4 => 5
  | .l5to9 => 6
  | .l10to15 => 7
  | .serial => 8

/-- The attributes of a vector (R29). -/
def State.vectorAttr (s : State) (v : VecId) : VectorAttr := s.nvic[vectorIndex v]

/-- Replace the attributes of a vector (R29). -/
def State.setVector (s : State) (v : VecId) (x : VectorAttr) : State := s.setNvic (s.nvic.set (vectorIndex v) x)

/-- `vec(l)`: the vector of a line (R155). -/
def lineVector (l : LineNo) : VecId :=
  match l.val with
  | 0 => .l0
  | 1 => .l1
  | 2 => .l2
  | 3 => .l3
  | 4 => .l4
  | 5 | 6 | 7 | 8 | 9 => .l5to9
  | _ => .l10to15

/-- The vector whose handler an operation of the IRQ port is (R232). A `DISPATCH` of a range that is no vector group
counts as the handler of its first line's vector (log entry 9). -/
def handlerVector? : Instr → Option VecId
  | .tickIrq => some .tick
  | .usartIrq => some .serial
  | .dispatch first _ => some (lineVector first)
  | .vecL0 => some .l0
  | .vecL1 => some .l1
  | .vecL2 => some .l2
  | .vecL3 => some .l3
  | .vecL4 => some .l4
  | .vecL5to9 => some .l5to9
  | .vecL10to15 => some .l10to15
  | .tbInit _ _ _ | .nowTicks | .nowMillis | .nowMicros | .elapsedMs _ _ | .elapsedUs _ _
  | .ilrRegister _ _ _ | .ilrConfig _ _ _ _ _ _ | .btInit _ _ _ _ _ _ | .baudDiv _ _
  | .btWrite _ _ | .btRead _ _ | .btStat _
  | .envEdge _ _ | .envRx _ _ _ _ | .envTxe | .envCvr _ => none

/-- Why an operation cannot happen at a preemption point of the operation in flight, if it cannot. An environment event
always can; a command never; a handler can from normal context, and over a running handler if its own vector is not
active and its priority preempts the running one's (R235, R238, R239). -/
def State.entryRefusal (s : State) (i : Instr) : Option Refusal :=
  match i.port with
  | .env => none
  | .cmd => some .notAnEvent
  | .irq =>
    match handlerVector? i, s.activeVectors with
    | some w, v :: outer =>
      if w ∈ v :: outer then some .vectorActive
      else if preempts (s.vectorAttr w).prio (s.vectorAttr v).prio then none
      else some .notPreempting
    | _, _ => none

end Sys2Proof.Machine
end

