-- ==== Sys2Proof/Machine/Fetch.lean ====
section
/-! DEFINITION. Where the next operation comes from: the stimulus stream at `sp` (R21, R90, R93, R275). -/

namespace Sys2Proof.Machine

/-- The words not yet consumed. -/
def State.wordsAhead (s : State) : List Word := s.stream.drop s.sp

/-- The next operation of the stream, or why there is none: the run has ended (R275), the stream is malformed and refused
as a whole (R93), or the words are no operation (R96). -/
def fetch (s : State) : Except Refusal Instr :=
  if s.wordsAhead.isEmpty then .error .streamEnded
  else if wellDelimited s.wordsAhead then
    match decode s.wordsAhead with
    | .ok (i, _) => .ok i
    | .error e => .error (.undecodable e)
  else .error .streamMalformed

/-- `sp <- sp + k` for an operation of `k` words (R21). -/
def State.advance (s : State) (i : Instr) : State := s.setSp (s.sp + i.words)

/-- A stimulus stream given to the machine, to be run from its first word: how a program comes to run from reset (log
entry 12). -/
def State.load (s : State) (ws : List Word) : State := { s with stream := ws, sp := 0 }

/-- The stream with some words placed at position `at` as its last ones; positions before it that the stream lacks are
filled with zeros. -/
def placeWords (stream : List Word) (pos : Nat) (ws : List Word) : List Word :=
  stream.take pos ++ List.replicate (pos - stream.length) 0 ++ ws

/-- The state whose next operation is the one these words encode: nothing is in flight and the words stand at `sp`. -/
def State.withNextWords (s : State) (ws : List Word) : State :=
  { s with stream := placeWords s.stream s.sp ws, frames := [] }

end Sys2Proof.Machine
end

