-- ==== Sys2Proof/Machine/Operands.lean ====
section
/-! DEFINITION. Every operand form the operations use (R92, R95): a line number that may be out of range, a range of
lines, a DMEM transfer address, and the pin, edge and priority operands. -/

namespace Sys2Proof.Machine

/-- The `line` operand of `ILR_REGISTER`, 8 bits wide, of which 16 .. 255 are out of range (R92, R150). -/
def lineOperand? (line : Byte) : Option LineNo := if h : line.toNat < 16 then some ⟨line.toNat, h⟩ else none

/-- The lines `first .. last` in ascending order; none if `first > last` (R152). -/
def lineRange (first last : LineNo) : List LineNo :=
  (List.finRange 16).filter (fun l => decide (first ≤ l) && decide (l ≤ last))

/-- `lines(v)`: the lines of a vector, none for the tick and the serial vector (R155). -/
def vectorLines : VecId → List LineNo
  | .tick | .serial => []
  | .l0 => lineRange 0 0
  | .l1 => lineRange 1 1
  | .l2 => lineRange 2 2
  | .l3 => lineRange 3 3
  | .l4 => lineRange 4 4
  | .l5to9 => lineRange 5 9
  | .l10to15 => lineRange 10 15

/-- The DMEM address of byte `i` of a transfer: `base +_32 i`, wrapping at the top of the space (R61, R65). -/
def transferAddress (base : Word) (i : Nat) : Word := base + trunc32 i

/-- Whether a pointer is null: DMEM address 0 (R66). -/
def isNull (p : Word) : Bool := p == 0

/-- The rising-edge enable an edge operand selects (R151). -/
def selectsRise : EdgeMode → Bool
  | .rising | .both => true
  | .falling | .notAnEdge => false

/-- The falling-edge enable an edge operand selects (R151). -/
def selectsFall : EdgeMode → Bool
  | .falling | .both => true
  | .rising | .notAnEdge => false

/-- Whether the source pin, the edge operand and the GPIO collaborator's answer let `ILR_CONFIG` go on (R151). -/
def lineConfigGood (gok : Bool) (edge : EdgeMode) (mode : PinMode) : Bool :=
  mode == .input && gok && edge != .notAnEdge

/-- Whether both pins and the GPIO collaborator's answer let `BT_INIT` go on (R184). -/
def pinsGood (gok : Bool) (rxmode txmode : PinMode) : Bool :=
  txmode == .alternate && rxmode == .alternate && gok

end Sys2Proof.Machine
end

