-- ==== Sys2Proof/Machine/Flags.lean ====
section
/-! DEFINITION. Every flag computation: the pending flags (R28), the serial status flags (R34, R64), the counters that
record them (R33), and the request conditions derived from them (R233). -/

namespace Sys2Proof.Machine

/-! ### Pending flags (R28) -/

/-- The pending flag of a line in a pending-flags word. -/
def pendBit (p : BitVec 16) (l : LineNo) : Bool := p.getLsbD l.val

/-- The word with one line's flag written and the other fifteen unchanged. -/
def withPendBit (p : BitVec 16) (l : LineNo) (b : Bool) : BitVec 16 :=
  if b then p ||| (1#16 <<< l.val) else p &&& ~~~(1#16 <<< l.val)

/-- `ilr.pend[l] <- b`. -/
def State.setPend (s : State) (l : LineNo) (b : Bool) : State :=
  s.setIlr { s.ilr with pend := withPendBit s.ilr.pend l b }

/-- A line is armed when it is unmasked and some edge is selected (R27). -/
def LineAttr.armed (a : LineAttr) : Bool := a.unmask && (a.rise || a.fall)

/-! ### Serial status flags (R34, R64) -/

/-- Whether some error flag is asserted. -/
def Usart.anyError (u : Usart) : Bool := u.ore || u.fe || u.nf || u.pe

/-- The read-to-clear acknowledgment: the four error flags and receive-data-available (R188, K5). -/
def Usart.acknowledged (u : Usart) : Usart :=
  { u with ore := false, fe := false, nf := false, pe := false, rxne := false }

/-- Reading the received byte clears receive-data-available (R64, R188). -/
def Usart.dataRead (u : Usart) : Usart := { u with rxne := false }

/-- Writing the data register clears transmit-register-empty (R64, R188). -/
def Usart.dataWritten (u : Usart) (b : Byte) : Usart := { u with tdr := b, txe := false }

/-- A character arrives at an enabled receiver (R190): an overrun while data is waiting, else data with its error bits. -/
def Usart.received (u : Usart) (nf fe pe : Bool) (b : Byte) : Usart :=
  if u.rxne then { u with ore := true }
  else { u with rdr := b, rxne := true, pe := u.pe || pe, fe := u.fe || fe, nf := u.nf || nf }

/-! ### Counters (R33, R197) -/

/-- A counter grows by one if its condition is asserted, wrapping. -/
def bump (c : Word) (asserted : Bool) : Word := if asserted then c + 1 else c

/-- Each asserted error flag adds one to its own counter (R188). -/
def Transport.counted (t : Transport) (u : Usart) : Transport :=
  { t with errOre := bump t.errOre u.ore, errFe := bump t.errFe u.fe
           errNf := bump t.errNf u.nf, errPe := bump t.errPe u.pe }

/-- Each asserted error flag adds one to the RX drop count (R188, R196). -/
def Ring.errorsDropped (r : Ring) (u : Usart) : Ring :=
  { r with drop := bump (bump (bump (bump r.drop u.ore) u.fe) u.nf) u.pe }

/-! ### Request conditions (R233, R155)

They say when hardware will enter a handler, not when a model may (R234); no state change depends on them. -/

/-- The request of a vector. The tick has no level: the environment may deliver one while the Time Base runs. -/
def State.requests (s : State) (v : VecId) : Bool :=
  match v with
  | .tick => s.tb.init
  | .serial =>
    (s.vectorAttr .serial).en && s.us.ue &&
      ((s.us.rxneie && (s.us.rxne || s.us.ore)) || (s.us.txeie && s.us.txe))
  | .l0 | .l1 | .l2 | .l3 | .l4 | .l5to9 | .l10to15 =>
    (s.vectorAttr v).en && (vectorLines v).any (fun l => pendBit s.ilr.pend l && s.ilr.attr[l].unmask)

end Sys2Proof.Machine
end

