-- ==== Sys2Proof/Machine/ByteTransport.lean ====
section
/-! DEFINITION. The Byte Transport operations (`42_byte_transport.md`, R183 to R193). -/

namespace Sys2Proof.Machine

/-! ### The divisor -/

/-- `mantissa` before the carry (R183). -/
def baudMantissa (pclkHz baud : Nat) : Nat := pclkHz / (Config.oversampling * baud)

/-- `fraction` before the carry, rounded with `baud/2` floored (R183). -/
def baudFraction (pclkHz baud : Nat) : Nat := (pclkHz % (Config.oversampling * baud) + baud / 2) / baud

/-- `baud_div` (R183): exact integers, the fraction in bits [3:0] and the mantissa above it. -/
def baudDivisor (pclkHz baud : Nat) : Nat :=
  if baud = 0 then 0
  else if Config.oversampling ≤ baudFraction pclkHz baud then (baudMantissa pclkHz baud + 1) * 16
  else baudMantissa pclkHz baud * 16 + baudFraction pclkHz baud

/-- R185. -/
def execBaudDiv (pclkHz baud : Word) (s : State) : Result :=
  s.succeed (trunc32 (baudDivisor pclkHz.toNat baud.toNat))

/-! ### `BT_INIT` -/

/-- The serial peripheral after a successful initialisation (R184). -/
def Usart.started (u : Usart) (divisor : Nat) : Usart :=
  { u with clk := true, brr := BitVec.ofNat 16 divisor, te := true, re := true, rxneie := true, txeie := false
           ue := true, txe := true }

/-- The success path of R184. -/
def transportStarted (s : State) (prio : Byte) (divisor : Nat) : State :=
  ((((s.setRx s.rx.emptied).setTx s.tx.emptied).setBt
    { errOre := 0, errFe := 0, errNf := 0, errPe := 0, init := true }).setUs (s.us.started divisor)).setVector .serial
    { en := true, prio := prio }

/-- R184. The pin tests come before the baud refusal. -/
def execBtInit (prio : Byte) (gok : Bool) (rxmode txmode : PinMode) (pclkHz baud : Word) (s : State) : Result :=
  if s.bt.init then .refused .reinit
  else if pinsGood gok rxmode txmode then
    if baud = 0 ∨ Config.maxDivisor < baudDivisor pclkHz.toNat baud.toNat then .refused .baudUnfit
    else (transportStarted s prio (baudDivisor pclkHz.toNat baud.toNat)).succeed 1
  else s.fail

/-! ### `BT_WRITE` -/

/-- Arming and the result, after the last point of R186. -/
def writeFinish (accepted : Nat) (s : State) : Result :=
  (if accepted = 0 then s else s.setUs { s.us with txeie := true }).succeed (trunc32 accepted)

/-- The point before arming (R186). -/
def writeArm (data length : Word) (accepted : Nat) (s : State) : Result :=
  atPoint (.btWrite data length (.beforeArm accepted)) s (writeFinish accepted)

/-- The bytes from `i` on, `left` of them: each is one atomic iteration after a point; the first that finds TX full adds
all remaining bytes to the drop count in one step and ends the loop (R186). -/
def writeBytes (data length : Word) : (left i accepted : Nat) → State → Result
  | 0, _, accepted, s => writeArm data length accepted s
  | left + 1, i, accepted, s =>
    atPoint (.btWrite data length (.beforeByte i accepted)) s fun s =>
      match s.tx.push (s.memRead (transferAddress data i)) with
      | some tx => writeBytes data length left (i + 1) (accepted + 1) (s.setTx tx)
      | none => writeArm data length accepted (s.setTx (s.tx.addDrop (trunc32 (length.toNat - i))))

/-- `BT_WRITE` going on from a suspension. -/
def resumeBtWrite (data length : Word) (point : WritePoint) (s : State) : Result :=
  match point with
  | .beforeByte i accepted => writeBytes data length (length.toNat - i) i accepted s
  | .beforeArm accepted => writeArm data length accepted s

/-- R186. -/
def execBtWrite (data length : Word) (s : State) : Result :=
  if s.bt.init then
    if length = 0 ∨ isNull data then s.succeed 0
    else writeBytes data length length.toNat 0 0 s
  else .refused .useBeforeInit

/-! ### `BT_READ` -/

/-- The bytes from `n` on, at most `left` of them: each is one atomic iteration after a point; an empty RX ends the loop
(R187). -/
def readBytes (output maxLength : Word) : (left n : Nat) → State → Result
  | 0, n, s => s.succeed (trunc32 n)
  | left + 1, n, s =>
    atPoint (.btRead output maxLength n) s fun s =>
      match s.rx.pop with
      | .empty => s.succeed (trunc32 n)
      | .byte b rx => readBytes output maxLength left (n + 1) ((s.setRx rx).memWrite (transferAddress output n) b)
      | .unwritten => .fault .unwrittenRingCell

/-- `BT_READ` going on from a suspension. -/
def resumeBtRead (output maxLength : Word) (n : Nat) (s : State) : Result :=
  readBytes output maxLength (maxLength.toNat - n) n s

/-- R187. -/
def execBtRead (output maxLength : Word) (s : State) : Result :=
  if s.bt.init then
    if maxLength = 0 ∨ isNull output then s.succeed 0
    else readBytes output maxLength maxLength.toNat 0 s
  else .refused .useBeforeInit

/-! ### `BT_STAT` -/

/-- A predicate as a result value (R193). -/
def boolWord (b : Bool) : Word := if b then 1 else 0

/-- The value a selector names (R193). -/
def statValue (s : State) : StatSel → Word
  | .rxDrop => s.rx.drop
  | .txDrop => s.tx.drop
  | .errOre => s.bt.errOre
  | .errFe => s.bt.errFe
  | .errNf => s.bt.errNf
  | .errPe => s.bt.errPe
  | .rxEmpty => boolWord s.rx.isEmpty
  | .rxFull => boolWord s.rx.isFull
  | .txEmpty => boolWord s.tx.isEmpty
  | .txFull => boolWord s.tx.isFull

/-- R193. -/
def execBtStat (sel : StatSel) (s : State) : Result := s.succeed (statValue s sel)

/-! ### The serial handler -/

/-- Step 1 of R188: count each asserted error and its drop, then acknowledge. `u` is the snapshot at entry. -/
def errorStep (u : Usart) (s : State) : State :=
  ((s.setBt (s.bt.counted u)).setRx (s.rx.errorsDropped u)).setUs s.us.acknowledged

/-- Step 2 of R188: read the received byte and queue it, or count its drop where RX is full. -/
def receiveStep (s : State) : State :=
  match s.rx.push s.us.rdr with
  | some rx => (s.setUs s.us.dataRead).setRx rx
  | none => (s.setUs s.us.dataRead).setRx (s.rx.addDrop 1)

/-- Steps 1 and 2: reception only if no error was asserted (R188, R189). -/
def inboundStep (u : Usart) (s : State) : State :=
  if u.anyError then errorStep u s
  else if u.rxne then receiveStep s
  else s

/-- Step 3 of R188: send one byte, or turn the transmit-interrupt off where TX is empty. -/
def transmitStep (u : Usart) (s : State) : Result :=
  if u.txe && s.us.txeie then
    match s.tx.pop with
    | .empty => .next (s.setUs { s.us with txeie := false })
    | .byte b tx => .next (((s.setTx tx).setUs (s.us.dataWritten b)).setTxLine (s.txLine ++ [b]))
    | .unwritten => .fault .unwrittenRingCell
  else .next s

/-- R188: one atomic step on one snapshot of the status flags. -/
def execUsartIrq (s : State) : Result := transmitStep s.us (inboundStep s.us s)

/-! ### The receiver and the transmitter -/

/-- R190. -/
def execEnvRx (nf fe pe : Bool) (byte : Byte) (s : State) : Result :=
  if s.us.ue && s.us.re then .next (s.setUs (s.us.received nf fe pe byte)) else .next s

/-- R191. -/
def execEnvTxe (s : State) : Result :=
  if s.us.ue && s.us.te then .next (s.setUs { s.us with txe := true }) else .next s

end Sys2Proof.Machine
end

