-- ==== Sys2Proof/Machine/LineRouter.lean ====
section
/-! DEFINITION. The Interrupt Line Router operations (`41_line_router.md`, R150 to R155). -/

namespace Sys2Proof.Machine

/-! ### `ILR_REGISTER` -/

/-- `ilr.cb[l] <- cb; ilr.valid[l] <- 1`, one store (step A of R150). -/
def storeCallback (s : State) (l : LineNo) (cb : Word) : State :=
  s.setIlr { s.ilr with table := s.ilr.table.set l { s.ilr.table[l] with valid := true, cb := cb } }

/-- `ilr.arg[l] <- arg` (step B of R150). -/
def storeArgument (s : State) (l : LineNo) (arg : Word) : State :=
  s.setIlr { s.ilr with table := s.ilr.table.set l { s.ilr.table[l] with arg := arg } }

/-- One of the two stores. -/
def storeTable (s : State) (l : LineNo) : TableStore → State
  | .callback cb => storeCallback s l cb
  | .argument arg => storeArgument s l arg

/-- The preemption point between the two stores, then the second one, and success (R150). -/
def registerSecond (l : LineNo) (second : TableStore) (s : State) : Result :=
  atPoint (.ilrRegister l second) s (fun s => (storeTable s l second).succeed 1)

/-- R150. The order of the two stores is a free value. -/
def execIlrRegister (line : Byte) (callback arg : Word) (s : State) : Result :=
  match lineOperand? line with
  | none => s.fail
  | some l =>
    if callback = 0 then .refused .nullCallback
    else if Config.argumentFirst s.draws then
      registerSecond l (.callback callback) (storeTable (s.drawn 1) l (.argument arg))
    else
      registerSecond l (.argument arg) (storeTable (s.drawn 1) l (.callback callback))

/-! ### `ILR_CONFIG` -/

/-- Write a line's hardware attributes (R27). -/
def State.setLineAttr (s : State) (l : LineNo) (a : LineAttr) : State :=
  s.setIlr { s.ilr with attr := s.ilr.attr.set l a }

/-- What a failed `ILR_CONFIG` leaves: seven free values (R151, D18, V2). -/
def lineUnspecified (s : State) (l : LineNo) : State :=
  let n := s.draws
  let attr : LineAttr :=
    { port := Config.freePort n, rise := Config.freeBit n, fall := Config.freeBit (n + 1)
      unmask := Config.freeBit (n + 2) }
  (((s.setLineAttr l attr).setPend l (Config.freeBit (n + 3))).setVector (lineVector l)
    { en := Config.freeBit (n + 4), prio := Config.freePriority n }).drawn 5

/-- R151. -/
def execIlrConfig (prio : Byte) (gok : Bool) (edge : EdgeMode) (mode : PinMode) (port : BitVec 4) (pin : LineNo)
    (s : State) : Result :=
  if lineConfigGood gok edge mode then
    let attr : LineAttr := { port := port, rise := selectsRise edge, fall := selectsFall edge, unmask := true }
    (((s.setLineAttr pin attr).setPend pin false).setVector (lineVector pin) { en := true, prio := prio }).succeed 1
  else (lineUnspecified s pin).fail

/-! ### The dispatcher -/

/-- The invocation's record is appended to `calls`, with the pair the table holds now (R38, R152, R153). -/
def emitCall (s : State) (l : LineNo) : State :=
  s.setCalls (s.calls ++ [{ line := l, cb := s.ilr.table[l].cb, arg := s.ilr.table[l].arg }])

/-- The callback of `l` runs, with the commands it will issue. With none left the handler goes on to the next line after
a last point; otherwise it is suspended and the step issues them one by one (R153, R238). -/
def runCallback (v : VecId) (snap : BitVec 16) (l : LineNo) (rest : List LineNo) (commands : List Instr)
    (next : State → Result) (s : State) : Result :=
  match commands with
  | [] => atPoint (.dispatch v snap l rest (.inCallback [])) s next
  | _ :: _ => .next (s.suspend (.dispatch v snap l rest (.inCallback commands)))

/-- After the acknowledgment: the registered callback is invoked with its argument; an unregistered line is skipped
(R152). -/
def invokeLine (v : VecId) (snap : BitVec 16) (l : LineNo) (rest : List LineNo) (next : State → Result)
    (s : State) : Result :=
  if s.ilr.table[l].valid then
    runCallback v snap l rest (s.callbackPlan.headD []) next ((emitCall s l).setCallbackPlan s.callbackPlan.tail)
  else next s

/-- One line of the range: if its snapshot bit is set it is acknowledged first, then serviced (R152). -/
def serviceLine (v : VecId) (snap : BitVec 16) (l : LineNo) (rest : List LineNo) (next : State → Result)
    (s : State) : Result :=
  if pendBit snap l then
    atPoint (.dispatch v snap l rest .acknowledged) (s.setPend l false) (invokeLine v snap l rest next)
  else next s

/-- The lines still to be examined, in ascending order; the handler returns by reaching its end (R152, R239). -/
def dispatchLines (v : VecId) (snap : BitVec 16) : List LineNo → State → Result
  | [], s => .next s
  | l :: rest, s => atPoint (.dispatch v snap l rest .beforeLine) s (serviceLine v snap l rest (dispatchLines v snap rest))

/-- The handler going on from a suspension. A callback with commands left is continued by the step (`Machine/InFlight.lean`). -/
def resumeDispatch (v : VecId) (snap : BitVec 16) (l : LineNo) (rest : List LineNo) (point : DispatchPoint)
    (s : State) : Result :=
  match point with
  | .beforeLine => atPoint (.dispatch v snap l rest point) s (serviceLine v snap l rest (dispatchLines v snap rest))
  | .acknowledged => atPoint (.dispatch v snap l rest point) s (invokeLine v snap l rest (dispatchLines v snap rest))
  | .inCallback commands => runCallback v snap l rest commands (dispatchLines v snap rest) s

/-- `dispatch(first, last)` as the handler of a vector: one snapshot, then the lines (R152). -/
def runDispatch (v : VecId) (first last : LineNo) (s : State) : Result :=
  dispatchLines v s.ilr.pend (lineRange first last) s

/-- R152, for a range that is no vector entry point (and for one that is: R99's names are the same operation). -/
def execDispatch (first last : LineNo) (s : State) : Result := runDispatch (lineVector first) first last s

/-- R99: the seven entry points of the hardware vectors. -/
def execVecL0 (s : State) : Result := runDispatch .l0 0 0 s
def execVecL1 (s : State) : Result := runDispatch .l1 1 1 s
def execVecL2 (s : State) : Result := runDispatch .l2 2 2 s
def execVecL3 (s : State) : Result := runDispatch .l3 3 3 s
def execVecL4 (s : State) : Result := runDispatch .l4 4 4 s
def execVecL5to9 (s : State) : Result := runDispatch .l5to9 5 9 s
def execVecL10to15 (s : State) : Result := runDispatch .l10to15 10 15 s

/-! ### `ENV_EDGE` -/

/-- Whether an edge of this direction is selected on a line (R154). -/
def edgeSelected (a : LineAttr) : Direction → Bool
  | .rise => a.rise
  | .fall => a.fall

/-- R154. -/
def execEnvEdge (dir : Direction) (line : LineNo) (s : State) : Result :=
  if edgeSelected s.ilr.attr[line] dir then .next (s.setPend line true) else .next s

end Sys2Proof.Machine
end

