-- ==== Sys2Proof/Machine/TimeBase.lean ====
section
/-! DEFINITION. The Time Base operations (`40_timebase.md`, R120 to R127). -/

namespace Sys2Proof.Machine

/-! ### Arithmetic (R120, R123, R124, R128: exact products, floor division, then the low 32 bits) -/

/-- `cycles_per_tick = clock_hz * period_us / 1_000_000` (R120). -/
def cyclesPerTick (clockHz periodUs : Word) : Nat := clockHz.toNat * periodUs.toNat / Config.usPerSecond

/-- The arguments `TB_INIT` accepts (R120, D10). -/
def timerFits (clockHz periodUs : Word) : Bool :=
  clockHz != 0 && periodUs != 0 && cyclesPerTick clockHz periodUs != 0 &&
    decide (cyclesPerTick clockHz periodUs - 1 ≤ Config.maxReload)

/-- `trunc_32((t * period_us) / 1000)` (R123). -/
def millisOf (t periodUs : Word) : Word := trunc32 (t.toNat * periodUs.toNat / Config.usPerMilli)

/-- The microseconds since the last tick: `(load - c) * 1_000_000 / clock_hz` (R124). -/
def microsWithinTick (load c : BitVec 24) (clockHz : Word) : Nat :=
  (load.toNat - c.toNat) * Config.usPerSecond / clockHz.toNat

/-- `trunc_32(t1 * period_us + us)` (R124). -/
def microsOf (tb : TimeBase) (t1 : Word) (c : BitVec 24) : Word :=
  trunc32 (t1.toNat * tb.periodUs.toNat + microsWithinTick tb.load c tb.clockHz)

/-- `trunc_32(t * period_us)`, tick resolution only (R124). -/
def tickMicros (tb : TimeBase) : Word := trunc32 (tb.tickCount.toNat * tb.periodUs.toNat)

/-! ### `TB_INIT` and the tick -/

/-- R120. -/
def execTbInit (prio : Byte) (clockHz periodUs : Word) (s : State) : Result :=
  if s.tb.init then .refused .reinit
  else if timerFits clockHz periodUs then
    let tb : TimeBase :=
      { init := true, tickCount := s.tb.tickCount, load := BitVec.ofNat 24 (cyclesPerTick clockHz periodUs - 1)
        periodUs := periodUs, clockHz := clockHz }
    ((s.setTb tb).setVector .tick { en := true, prio := prio }).succeed 1
  else s.fail

/-- R121. -/
def execTickIrq (s : State) : Result :=
  if s.tb.init then .next (s.setTb { s.tb with tickCount := s.tb.tickCount + 1 })
  else .refused .tickBeforeInit

/-! ### Reading the time -/

/-- R122. -/
def execNowTicks (s : State) : Result := s.succeed (if s.tb.init then s.tb.tickCount else 0)

/-- R123. -/
def execNowMillis (s : State) : Result :=
  s.succeed (if s.tb.init then millisOf s.tb.tickCount s.tb.periodUs else 0)

/-- The second read of the tick count: a coherent pair ends the command, a mismatch leads to a preemption point and then
to `again`, the next attempt or the fallback (R124). -/
def microsSecondRead (left : Nat) (t1 : Word) (c : BitVec 24) (again : State → Result) (s : State) : Result :=
  if s.tb.tickCount = t1 then s.succeed (microsOf s.tb t1 c)
  else atPoint (.nowMicros left .mismatch) s again

/-- The sample of the down-counter, refused above the reload value (R124, D13). DESIGN CHOICE (V4, log entry 21): the
environment is scripted, with interleavings too, so a sample reads what the last `ENV_CVR` set and is never a draw. -/
def microsSample (left : Nat) (t1 : Word) (again : State → Result) (s : State) : Result :=
  if s.tb.load < s.cvr then .refused .cvrAboveLoad
  else atPoint (.nowMicros left (.haveCvr t1 s.cvr)) s (microsSecondRead left t1 s.cvr again)

/-- The attempts still allowed, and the fallback after the last of them: a fresh read, tick resolution only (R124). -/
def microsAttempts : Nat → State → Result
  | 0, s => s.succeed (tickMicros s.tb)
  | left + 1, s =>
    atPoint (.nowMicros left (.haveT1 s.tb.tickCount)) s (microsSample left s.tb.tickCount (microsAttempts left))

/-- `NOW_MICROS` going on from a suspension. -/
def resumeNowMicros (left : Nat) (point : MicrosPoint) (s : State) : Result :=
  match point with
  | .haveT1 t1 => atPoint (.nowMicros left point) s (microsSample left t1 (microsAttempts left))
  | .haveCvr t1 c => atPoint (.nowMicros left point) s (microsSecondRead left t1 c (microsAttempts left))
  | .mismatch => atPoint (.nowMicros left point) s (microsAttempts left)

/-- R124. -/
def execNowMicros (s : State) : Result :=
  if s.tb.init then microsAttempts Config.microsAttempts s else s.succeed 0

/-! ### Elapsed time, and the down-counter -/

/-- `now -_32 start`, the same in both domains (R125, R126, D14). -/
def elapsed (now start : Word) : Word := now - start

/-- R125. -/
def execElapsedMs (now start : Word) (s : State) : Result := s.succeed (elapsed now start)

/-- R126. -/
def execElapsedUs (now start : Word) (s : State) : Result := s.succeed (elapsed now start)

/-- R127. The model always has this event: it never draws a reading instead (V4, log entry 21). -/
def execEnvCvr (value : BitVec 24) (s : State) : Result := .next (s.setCvr value)

end Sys2Proof.Machine
end

