-- ==== Sys2Proof/Machine/Dispatch.lean ====
section
/-! DEFINITION. One arm for each operation, each a call of its meaning. -/

namespace Sys2Proof.Machine

def exec (i : Instr) (s : State) : Host.Outcome State Fault Refusal :=
  match i with
  | .tbInit prio clockHz periodUs => Sys2Proof.Machine.execTbInit prio clockHz periodUs s
  | .nowTicks => Sys2Proof.Machine.execNowTicks s
  | .nowMillis => Sys2Proof.Machine.execNowMillis s
  | .nowMicros => Sys2Proof.Machine.execNowMicros s
  | .elapsedMs now start => Sys2Proof.Machine.execElapsedMs now start s
  | .elapsedUs now start => Sys2Proof.Machine.execElapsedUs now start s
  | .ilrRegister line callback arg => Sys2Proof.Machine.execIlrRegister line callback arg s
  | .ilrConfig prio gok edge mode port pin => Sys2Proof.Machine.execIlrConfig prio gok edge mode port pin s
  | .btInit prio gok rxmode txmode pclkHz baud => Sys2Proof.Machine.execBtInit prio gok rxmode txmode pclkHz baud s
  | .baudDiv pclkHz baud => Sys2Proof.Machine.execBaudDiv pclkHz baud s
  | .btWrite data length => Sys2Proof.Machine.execBtWrite data length s
  | .btRead output maxLength => Sys2Proof.Machine.execBtRead output maxLength s
  | .btStat sel => Sys2Proof.Machine.execBtStat sel s
  | .tickIrq => Sys2Proof.Machine.execTickIrq s
  | .dispatch first last => Sys2Proof.Machine.execDispatch first last s
  | .usartIrq => Sys2Proof.Machine.execUsartIrq s
  | .envEdge dir line => Sys2Proof.Machine.execEnvEdge dir line s
  | .envRx nf fe pe byte => Sys2Proof.Machine.execEnvRx nf fe pe byte s
  | .envTxe => Sys2Proof.Machine.execEnvTxe s
  | .envCvr value => Sys2Proof.Machine.execEnvCvr value s
  | .vecL0 => Sys2Proof.Machine.execVecL0 s
  | .vecL1 => Sys2Proof.Machine.execVecL1 s
  | .vecL2 => Sys2Proof.Machine.execVecL2 s
  | .vecL3 => Sys2Proof.Machine.execVecL3 s
  | .vecL4 => Sys2Proof.Machine.execVecL4 s
  | .vecL5to9 => Sys2Proof.Machine.execVecL5to9 s
  | .vecL10to15 => Sys2Proof.Machine.execVecL10to15 s

end Sys2Proof.Machine
end

