-- ==== Sys2Proof/Machine/InFlight.lean ====
section
/-! DEFINITION. What a step does while an operation is in flight (R237 to R239): something arrives at its preemption
point, or it goes on. -/

namespace Sys2Proof.Machine

/-- The operation in flight goes on from its suspension. It is no longer on the stack; a callback's next command runs
with the handler, less that command, suspended below it (R153, R280). -/
def resume (f : Frame) (s : State) : Result :=
  match f with
  | .nowMicros left point => resumeNowMicros left point s
  | .ilrRegister l second => registerSecond l second s
  | .btWrite data length point => resumeBtWrite data length point s
  | .btRead output maxLength n => resumeBtRead output maxLength n s
  | .dispatch v snap l rest (.inCallback (c :: commands)) =>
    if c.port = .cmd then exec c (s.passPoint.suspend (.dispatch v snap l rest (.inCallback commands)))
    else .refused .notACommand
  | .dispatch v snap l rest point => resumeDispatch v snap l rest point s

/-- What arrives at the present point happens, if it can (R238). -/
def arrive (i : Instr) (s : State) : Result :=
  match s.entryRefusal i with
  | some r => .refused r
  | none => exec i s

/-- One step with `f` in flight over the suspended operations `below`. -/
def stepInFlight (f : Frame) (below : List Frame) (s : State) : Result :=
  match s.arrivals with
  | .deliver i :: later => arrive i (s.setArrivals later)
  | _ => resume f (s.setFrames below)

end Sys2Proof.Machine
end

