-- ==== Sys2Proof/Machine/Step.lean ====
section
/-! DEFINITION. One step of the machine: an operation in flight goes on or is preempted; with none in flight the next
operation of the stimulus stream runs (R21, R90, R101, R237). -/

namespace Sys2Proof.Machine

/-- One step. -/
def step (s : State) : Host.Outcome State Fault Refusal :=
  match s.frames with
  | f :: below => stepInFlight f below s
  | [] =>
    match fetch s with
    | .ok i => exec i (s.advance i)
    | .error r => .refused r

/-- `s` with one instruction stored where the next step fetches: at `sp`, as the last words of the stream, with nothing
in flight. -/
def State.withFetchWord (s : State) (nbits w : Nat) : State := s.withNextWords (tableOperation nbits w)

end Sys2Proof.Machine
end

