-- ==== Sys2Proof/Safety.lean ====
section
/-! DEFINITION. What counts as a safe run, in the terms the statements use: the invariant of the machine (R23, R25, R31,
R32, R39, R192, R237, R239), the contexts, a scripted run, the end of a run, and what is observed of one (R9). -/

namespace Sys2Proof.Machine

/-! ### The parts of the invariant -/

/-- Both rings meet the ring invariant (R31). -/
def State.RingsWf (s : State) : Prop := s.rx.wf = true ∧ s.tx.wf = true

/-- The Time Base before and after `TB_INIT` (R22, R23, R120): no tick is counted before it, and after it the clock and
the period are not 0 and the reload value is one less than the cycles of a tick. -/
def State.TimerWf (s : State) : Prop :=
  if s.tb.init then
    s.tb.clockHz ≠ 0 ∧ s.tb.periodUs ≠ 0 ∧ s.tb.load.toNat + 1 = cyclesPerTick s.tb.clockHz s.tb.periodUs
  else s.tb.tickCount = 0

/-- A registered callback is never null (R25). -/
def State.TableWf (s : State) : Prop := ∀ l : LineNo, s.ilr.table[l].valid = true → s.ilr.table[l].cb ≠ 0

/-- Before `BT_INIT` the rings are empty and the serial peripheral is off with no condition raised (R41, R190, R191). -/
def State.DormantWf (s : State) : Prop :=
  s.bt.init = false →
    s.rx.isEmpty = true ∧ s.tx.isEmpty = true ∧ s.us.ue = false ∧ s.us.anyError = false ∧ s.us.rxne = false ∧
      s.us.txeie = false

/-- Whether a suspended operation is a `BT_WRITE` that has stored at least one byte. -/
def Frame.hasStored : Frame → Bool
  | .btWrite _ _ (.beforeByte _ accepted) | .btWrite _ _ (.beforeArm accepted) => accepted != 0
  | .nowMicros _ _ | .ilrRegister _ _ | .btRead _ _ _ | .dispatch _ _ _ _ _ => false

/-- A queued byte never waits with the transmit-interrupt off, but for a `BT_WRITE` still in flight that has yet to arm it
(R192 (b), R288). -/
def State.ArmedWf (s : State) : Prop :=
  s.us.txeie = false → s.tx.isEmpty = true ∨ ∃ f ∈ s.frames, f.hasStored = true

/-- Whether a vector is one of the seven line vectors. -/
def VecId.ofLines (v : VecId) : Bool := v != .tick && v != .serial

/-- The local state of a suspended operation is one that its rule can have reached (R39). -/
def Frame.wf (s : State) : Frame → Bool
  | .nowMicros left (.haveCvr _ c) => s.tb.init && decide (left < Config.microsAttempts) && decide (c ≤ s.tb.load)
  | .nowMicros left (.haveT1 _) | .nowMicros left .mismatch => s.tb.init && decide (left < Config.microsAttempts)
  | .ilrRegister _ (.callback cb) => cb != 0
  | .ilrRegister _ (.argument _) => true
  | .btWrite data length (.beforeByte i accepted) =>
    s.bt.init && !isNull data && decide (i < length.toNat) && accepted == i
  | .btWrite data length (.beforeArm accepted) => s.bt.init && !isNull data && decide (accepted ≤ length.toNat)
  | .btRead output maxLength n => s.bt.init && !isNull output && decide (n < maxLength.toNat)
  | .dispatch v _ _ _ _ => VecId.ofLines v

/-- Whether a suspended operation is a command, not a handler. -/
def Frame.isCommand (f : Frame) : Bool := f.vector?.isNone

/-- A command runs in normal context, below everything else, or was issued by the callback of the handler it stands on:
no command stands directly on a command (R237, R241). -/
def stacked : List Frame → Bool
  | [] | [_] => true
  | f :: g :: below => !(f.isCommand && g.isCommand) && stacked (g :: below)

/-- The operations in flight: each in a state its rule can have reached, stacked as the contexts allow, and no vector's
handler active twice (R39, R237, R239). -/
def State.FramesWf (s : State) : Prop :=
  (∀ f ∈ s.frames, f.wf s = true) ∧ stacked s.frames = true ∧ s.activeVectors.Nodup

/-- The stimulus position never passes the end of the stream (R21). -/
def State.PositionWf (s : State) : Prop := s.sp ≤ s.stream.length

/-- The invariant of the machine. -/
structure State.Inv (s : State) : Prop where
  memory : Memory.wf s.dmem = true
  rings : s.RingsWf
  timer : s.TimerWf
  table : s.TableWf
  dormant : s.DormantWf
  armed : s.ArmedWf
  frames : s.FramesWf
  position : s.PositionWf

/-! ### Contexts and runs -/

/-- The two execution contexts (R241). -/
inductive ExecContext where
  | normal | interrupt
  deriving DecidableEq, Repr

/-- The context a state is in: interrupt context while a handler is active (R237, R241). -/
def State.context (s : State) : ExecContext := if s.activeVectors.isEmpty then .normal else .interrupt

/-- Nothing arrives at a preemption point and no callback issues a command: the run is scripted (R101). -/
def State.Scripted (s : State) : Prop := s.arrivals = [] ∧ s.callbackPlan = []

/-- Nothing is delivered at the present preemption point. -/
def State.undisturbed (s : State) : Prop := ∀ i later, s.arrivals ≠ .deliver i :: later

/-- The run has ended: no word is left and no operation is in flight (R275). -/
def State.Ended (s : State) : Prop := s.sp = s.stream.length ∧ s.frames = []

/-- What a run leaves to be observed, beside the state itself (R9). -/
structure Observed where
  out : Results
  txLine : List Byte
  calls : List CallRecord
  dmem : List Host.Cell
  deriving DecidableEq, Repr

def State.observed (s : State) : Observed := { out := s.out, txLine := s.txLine, calls := s.calls, dmem := s.dmem }

/-! ### One operation running (R237) -/

/-- The command a suspended handler's callback issues next, if its callback has one left (R153). -/
def Frame.issued? : Frame → Option Instr
  | .dispatch _ _ _ _ (.inCallback (c :: _)) => some c
  | .dispatch _ _ _ _ _ | .nowMicros _ _ | .ilrRegister _ _ | .btWrite _ _ _ | .btRead _ _ _ => none

/-- Whether a suspended operation is `i`. A handler of lines is known by its vector. -/
def Frame.isOf (i : Instr) : Frame → Prop
  | .nowMicros _ _ => i = .nowMicros
  | .ilrRegister l _ => ∃ line callback arg, line.toNat = l.val ∧ i = .ilrRegister line callback arg
  | .btWrite data length _ => i = .btWrite data length
  | .btRead output maxLength _ => i = .btRead output maxLength
  | .dispatch v _ _ _ _ => handlerVector? i = some v ∧ i ≠ .tickIrq ∧ i ≠ .usartIrq

/-- `i` runs from `s` to `t`: it is entered, or goes on from a suspension (R237). A command that a callback issues is
entered. -/
def State.runs (i : Instr) (s t : State) : Prop :=
  exec i s = .next t ∨ ∃ f : Frame, f.isOf i ∧ f.issued? = none ∧ resume f s = .next t

/-! ### Sequences of ring accesses (R71) -/

/-- An access to a ring. -/
inductive RingAccess where
  | push (b : Byte)
  | pop
  deriving DecidableEq, Repr

/-- A ring after some accesses, the bytes its pushes stored and the bytes its pops answered, each in order. A pop of an
unwritten cell leaves the ring as it is. -/
def Ring.run (r : Ring) : List RingAccess → Ring × List Byte × List Byte
  | [] => (r, [], [])
  | .push b :: more =>
    match r.push b with
    | some r' => let (e, stored, popped) := Ring.run r' more; (e, b :: stored, popped)
    | none => Ring.run r more
  | .pop :: more =>
    match r.pop with
    | .byte b r' => let (e, stored, popped) := Ring.run r' more; (e, stored, b :: popped)
    | .empty | .unwritten => Ring.run r more

/-! ### Draining (R192, R245) -/

/-- The serial handler is entered and then the transmitter takes the byte, `n` times over; nothing where one of them does
not end in a next state. -/
def drain : Nat → State → Option State
  | 0, s => some s
  | n + 1, s =>
    match exec .usartIrq s with
    | .next s =>
      match exec .envTxe s with
      | .next s => drain n s
      | _ => none
    | _ => none

end Sys2Proof.Machine
end

