-- ==== Sys2Proof/Certificates/Slice0/Obligations.lean ====
section
/-! DEFINITION. The statements for the provers. A result is given with its frame: `t = { s with … }` says that every field
of the state not named there is unchanged, so that nothing else was written. -/

open Sys2Proof Sys2Proof.Machine

namespace Sys2Proof.Machine

/-- The state with the result registers written and nothing else changed (R20). -/
def State.withResult (s : State) (ok : Bool) (res : Word) : State := { s with out := { res := res, ok := ok } }

/-- The seven vector entry points and their vectors (R99, R155). -/
def vectorEntries : List (Instr × VecId) :=
  [(.vecL0, .l0), (.vecL1, .l1), (.vecL2, .l2), (.vecL3, .l3), (.vecL4, .l4), (.vecL5to9, .l5to9),
   (.vecL10to15, .l10to15)]

/-- `match` and `mask` over `w0` of the twenty opcodes, as `spec/opcode_table.json` gives them (R94). -/
def opcodeMasks : List (Word × Word) :=
  [(0x01000000, 0xFF00FFFF), (0x02000000, 0xFFFFFFFF), (0x03000000, 0xFFFFFFFF), (0x04000000, 0xFFFFFFFF),
   (0x05000000, 0xFFFFFFFF), (0x06000000, 0xFFFFFFFF)] ++
  [(0x10000000, 0xFFFFFF00), (0x11000000, 0xFF00E000), (0x20000000, 0xFF00FFE0), (0x21000000, 0xFFFFFFFF),
   (0x22000000, 0xFFFFFFFF), (0x23000000, 0xFFFFFFFF), (0x24000000, 0xFFFFFFF0)] ++
  [(0x80000000, 0xFFFFFFFF), (0x81000000, 0xFFFFFF00), (0x82000000, 0xFFFFFFFF), (0x90000000, 0xFFFFFFE0),
   (0x91000000, 0xFFFFF800), (0x92000000, 0xFFFFFFFF), (0x93000000, 0xFF000000)]

/-- The records of one line in a trace of callback invocations. -/
def recordsOf (l : LineNo) (calls : List CallRecord) : List CallRecord := calls.filter (fun c => c.line == l)

/-- The first `n` bytes of a transfer in DMEM. -/
def State.bytesAt (s : State) (base : Word) (n : Nat) : List Byte :=
  (List.range n).map (fun i => s.memRead (transferAddress base i))

/-- The calls a scripted dispatch of the lines in `p` adds: one record for each line pending and registered, ascending. -/
def State.dueCalls (s : State) (p : LineNo → Bool) : List CallRecord :=
  ((List.finRange 16).filter (fun l => p l && (pendBit s.ilr.pend l && s.ilr.table[l].valid))).map
    (fun l => { line := l, cb := s.ilr.table[l].cb, arg := s.ilr.table[l].arg })

/-- Dispatching the lines in `p` may change their pending flags, the callback trace, what is in flight and what is still to
come, and nothing else. -/
def State.onlyDispatched (s t : State) (p : LineNo → Bool) : Prop :=
  t = { s with ilr := { s.ilr with pend := t.ilr.pend }, calls := t.calls, frames := t.frames
               arrivals := t.arrivals, callbackPlan := t.callbackPlan } ∧
    ∀ l, p l = false → pendBit t.ilr.pend l = pendBit s.ilr.pend l

/-- No vector but these has its attributes changed. -/
def State.onlyVectors (s t : State) (vs : List VecId) : Prop := ∀ v, v ∉ vs → t.vectorAttr v = s.vectorAttr v

/-- What an operation leaves unchanged. Each line names the fields its operation may change; within a field that is not
changed whole, what of it is kept. -/
def State.keeps (i : Instr) (s t : State) : Prop :=
  match i with
  | .nowTicks | .nowMillis | .elapsedMs _ _ | .elapsedUs _ _ | .baudDiv _ _ | .btStat _ => t = { s with out := t.out }
  | .nowMicros => t = { s with out := t.out, frames := t.frames, arrivals := t.arrivals }
  | .tbInit _ _ _ => t = { s with out := t.out, tb := t.tb, nvic := t.nvic } ∧ s.onlyVectors t [.tick]
  | .ilrRegister line _ _ =>
    t = { s with out := t.out, ilr := { s.ilr with table := t.ilr.table }, frames := t.frames, arrivals := t.arrivals
                 draws := t.draws } ∧
      ∀ l : LineNo, l.val ≠ line.toNat → t.ilr.table[l] = s.ilr.table[l]
  | .ilrConfig _ _ _ _ _ pin =>
    t = { s with out := t.out, ilr := { s.ilr with attr := t.ilr.attr, pend := t.ilr.pend }, nvic := t.nvic
                 draws := t.draws } ∧
      s.onlyVectors t [lineVector pin] ∧
      ∀ l : LineNo, l ≠ pin → t.ilr.attr[l] = s.ilr.attr[l] ∧ pendBit t.ilr.pend l = pendBit s.ilr.pend l
  | .btInit _ _ _ _ _ _ =>
    t = { s with out := t.out, rx := { t.rx with buf := s.rx.buf }, tx := { t.tx with buf := s.tx.buf }, bt := t.bt
                 us := t.us, nvic := t.nvic } ∧ s.onlyVectors t [.serial]
  | .btWrite _ _ =>
    t = { s with out := t.out, tx := { t.tx with tail := s.tx.tail }, us := { s.us with txeie := t.us.txeie }
                 frames := t.frames, arrivals := t.arrivals }
  | .btRead output maxLength =>
    t = { s with out := t.out, rx := { s.rx with tail := t.rx.tail }, dmem := t.dmem, frames := t.frames
                 arrivals := t.arrivals } ∧
      ∀ a : Word, (∀ n < maxLength.toNat, a ≠ transferAddress output n) → t.memRead a = s.memRead a
  | .tickIrq => t = { s with tb := { s.tb with tickCount := t.tb.tickCount } }
  | .usartIrq =>
    t = { s with rx := { t.rx with tail := s.rx.tail }, tx := { s.tx with tail := t.tx.tail }
                 bt := { t.bt with init := s.bt.init }
                 us := { s.us with ore := t.us.ore, fe := t.us.fe, nf := t.us.nf, pe := t.us.pe, rxne := t.us.rxne
                                   txe := t.us.txe, txeie := t.us.txeie, tdr := t.us.tdr }
                 txLine := t.txLine }
  | .dispatch first last => s.onlyDispatched t (fun l => decide (first ≤ l) && decide (l ≤ last))
  | .vecL0 => s.onlyDispatched t (fun l => lineVector l == .l0)
  | .vecL1 => s.onlyDispatched t (fun l => lineVector l == .l1)
  | .vecL2 => s.onlyDispatched t (fun l => lineVector l == .l2)
  | .vecL3 => s.onlyDispatched t (fun l => lineVector l == .l3)
  | .vecL4 => s.onlyDispatched t (fun l => lineVector l == .l4)
  | .vecL5to9 => s.onlyDispatched t (fun l => lineVector l == .l5to9)
  | .vecL10to15 => s.onlyDispatched t (fun l => lineVector l == .l10to15)
  | .envEdge _ line =>
    t = { s with ilr := { s.ilr with pend := t.ilr.pend } } ∧
      ∀ l, l ≠ line → pendBit t.ilr.pend l = pendBit s.ilr.pend l
  | .envRx _ _ _ _ =>
    t = { s with us := { s.us with ore := t.us.ore, fe := t.us.fe, nf := t.us.nf, pe := t.us.pe, rxne := t.us.rxne
                                   rdr := t.us.rdr } }
  | .envTxe => t = { s with us := { s.us with txe := t.us.txe } }
  | .envCvr _ => t = { s with cvr := t.cvr }

/-- The conditions under which a command fails, as R230's table lists them. -/
def failureCondition : Instr → Prop
  | .tbInit _ clockHz periodUs =>
    let cycles := clockHz.toNat * periodUs.toNat / 1000000
    clockHz = 0 ∨ periodUs = 0 ∨ cycles = 0 ∨ 0xFFFFFF < cycles - 1
  | .ilrRegister line _ _ => 15 < line.toNat
  | .ilrConfig _ gok edge mode _ _ => mode ≠ .input ∨ gok = false ∨ edge = .notAnEdge
  | .btInit _ gok rxmode txmode _ _ => txmode ≠ .alternate ∨ rxmode ≠ .alternate ∨ gok = false
  | _ => False

/-- `s` with the present preemption point passed: its `pass`, if the input has one there, is used up (R238). -/
def State.pointPassed (s : State) : State := { s with arrivals := s.arrivals.tail }

/-- How many reads a suspended `NOW_MICROS` can still make before its fallback (R131). -/
def microsReadsLeft (left : Nat) : MicrosPoint → Nat
  | .haveT1 _ => 3 * left + 2
  | .haveCvr _ _ => 3 * left + 1
  | .mismatch => 3 * left

/-- The lines a suspended handler has still to acknowledge, as far as its snapshot holds them (R152). -/
def DispatchPoint.linesToCome (point : DispatchPoint) (l : LineNo) (rest : List LineNo) : List LineNo :=
  match point with
  | .beforeLine => l :: rest
  | .acknowledged | .inCallback _ => rest

/-- A handler that has come to the lines `rest`: it stands before the first of them, or returns (R152, R239). -/
def atNextLine (v : VecId) (snap : BitVec 16) (rest : List LineNo) (s : State) : Result :=
  match rest with
  | [] => .next s
  | l :: more => resume (.dispatch v snap l more .beforeLine) s

/-- What an operation that goes on from a suspension leaves unchanged. -/
def State.keepsFrom (f : Frame) (s t : State) : Prop :=
  match f with
  | .nowMicros _ _ => s.keeps .nowMicros t
  | .ilrRegister l _ =>
    t = { s with out := t.out, ilr := { s.ilr with table := t.ilr.table }, frames := t.frames, arrivals := t.arrivals } ∧
      ∀ k, k ≠ l → t.ilr.table[k] = s.ilr.table[k]
  | .btWrite data length (.beforeByte _ _) => s.keeps (.btWrite data length) t
  | .btWrite _ _ (.beforeArm _) =>
    t = { s with out := t.out, us := { s.us with txeie := t.us.txeie }, frames := t.frames, arrivals := t.arrivals }
  | .btRead output maxLength n =>
    t = { s with out := t.out, rx := { s.rx with tail := t.rx.tail }, dmem := t.dmem, frames := t.frames
                 arrivals := t.arrivals } ∧
      ∀ a : Word, (∀ k, n ≤ k → k < maxLength.toNat → a ≠ transferAddress output k) → t.memRead a = s.memRead a
  | .dispatch _ snap l rest point =>
    s.onlyDispatched t (fun k => decide (k ∈ point.linesToCome l rest) && pendBit snap k)

end Sys2Proof.Machine

/-! ### Reset -/

/-- R41 for every pair of ring sizes. That `State.reset` takes 256 for both is R7's default, taken as the model's choice (log
entry 1). -/
def Obligations.ResetStateValues : Prop :=
  State.reset = State.resetSized 256 256 ∧
  ∀ nRx nTx : Nat,
    let s := State.resetSized nRx nTx
    s.out = { res := 0, ok := false } ∧ s.sp = 0 ∧
    s.tb = { init := false, tickCount := 0, load := 0, periodUs := 0, clockHz := 0 } ∧ s.cvr = 0 ∧
    (∀ l : LineNo, s.ilr.table[l] = { valid := false, cb := 0, arg := 0 } ∧
      s.ilr.attr[l] = { port := 0, rise := false, fall := false, unmask := false } ∧ pendBit s.ilr.pend l = false) ∧
    (∀ v, s.vectorAttr v = { en := false, prio := 0 } ∧ s.requests v = false) ∧
    (∀ r ∈ [s.rx, s.tx], r.head = 0 ∧ r.tail = 0 ∧ r.drop = 0 ∧ ∀ i, r.cell i = none) ∧
    s.rx.size = nRx ∧ s.tx.size = nTx ∧
    s.bt = { errOre := 0, errFe := 0, errNf := 0, errPe := 0, init := false } ∧
    (s.us.ore || s.us.fe || s.us.nf || s.us.pe || s.us.rxne || s.us.txe || s.us.clk || s.us.te || s.us.re ||
      s.us.rxneie || s.us.txeie || s.us.ue) = false ∧
    s.us.rdr = 0 ∧ s.us.tdr = 0 ∧ s.us.brr = 0 ∧ s.txLine = [] ∧ s.calls = [] ∧ s.frames = [] ∧ s.context = .normal

/-- R271: which operations work at reset, which return 0 and which are refused. -/
def Obligations.OperationsAtReset : Prop :=
  ∀ nRx nTx : Nat, Ring.goodSize nRx = true → Ring.goodSize nTx = true →
    let s := State.resetSized nRx nTx
    (∀ i ∈ [Instr.nowTicks, Instr.nowMillis, Instr.nowMicros], exec i s = .next (s.withResult true 0)) ∧
    (∀ d n : Word, exec (.btWrite d n) s = .refused .useBeforeInit ∧ exec (.btRead d n) s = .refused .useBeforeInit) ∧
    exec .tickIrq s = .refused .tickBeforeInit ∧
    exec .usartIrq s = .next s ∧
    (∀ first last : LineNo, exec (.dispatch first last) s = .next s) ∧
    (∀ sel : StatSel, exec (.btStat sel) s =
      .next (s.withResult true (if sel = .rxEmpty ∨ sel = .txEmpty then 1 else 0)))

/-- The invariant of the model (log entry 20) holds at reset, for every admissible pair of ring sizes. -/
def Obligations.ResetMeetsInvariant : Prop :=
  State.reset.Inv ∧
    ∀ nRx nTx : Nat, Ring.goodSize nRx = true → Ring.goodSize nTx = true → (State.resetSized nRx nTx).Inv

/-- R7: a ring whose size is not a power of two, or is 1, is rejected at construction. -/
def Obligations.RingConstructorRejects : Prop :=
  ∀ n : Nat,
    (Ring.make? n = none ↔ ¬ ∃ k, 1 ≤ k ∧ n = 2 ^ k) ∧
    ∀ r, Ring.make? n = some r → r.size = n ∧ r.count = 0 ∧ r.space = n - 1

/-! ### Time Base -/

/-- R120. -/
def Obligations.TbInitResult : Prop :=
  ∀ (prio : Byte) (clockHz periodUs : Word) (s : State),
    let cycles := clockHz.toNat * periodUs.toNat / 1000000
    let r := exec (.tbInit prio clockHz periodUs) s
    (s.tb.init = true → r = .refused .reinit) ∧
    (s.tb.init = false → (clockHz = 0 ∨ periodUs = 0 ∨ cycles = 0 ∨ 0xFFFFFF < cycles - 1) →
      r = .next (s.withResult false 0)) ∧
    (s.tb.init = false → clockHz ≠ 0 → periodUs ≠ 0 → cycles ≠ 0 → cycles - 1 ≤ 0xFFFFFF →
      ∃ t, r = .next t ∧ t.out = { res := 1, ok := true } ∧
        t.tb.init = true ∧ t.tb.tickCount = s.tb.tickCount ∧ t.tb.load.toNat = cycles - 1 ∧
        t.tb.periodUs = periodUs ∧ t.tb.clockHz = clockHz ∧
        t.vectorAttr .tick = { en := true, prio := prio } ∧ (∀ v, v ≠ .tick → t.vectorAttr v = s.vectorAttr v) ∧
        t = { s with out := t.out, tb := t.tb, nvic := t.nvic })

/-- R121. -/
def Obligations.TickIrqCounts : Prop :=
  ∀ s : State,
    (s.tb.init = true → ∃ t, exec .tickIrq s = .next t ∧
      t.tb.tickCount.toNat = (s.tb.tickCount.toNat + 1) % 2 ^ 32 ∧
      t = { s with tb := { s.tb with tickCount := t.tb.tickCount } }) ∧
    (s.tb.init = false → exec .tickIrq s = .refused .tickBeforeInit)

/-- R122, R123. -/
def Obligations.NowTicksAndMillis : Prop :=
  ∀ s : State,
    exec .nowTicks s = .next (s.withResult true (if s.tb.init then s.tb.tickCount else 0)) ∧
    ∃ v : Word, exec .nowMillis s = .next (s.withResult true v) ∧
      v.toNat = if s.tb.init then s.tb.tickCount.toNat * s.tb.periodUs.toNat / 1000 % 2 ^ 32 else 0

/-- R124 with nothing arriving at its preemption points: the first attempt is coherent. -/
def Obligations.NowMicrosScripted : Prop :=
  ∀ s : State, s.arrivals = [] →
    (s.tb.init = false → exec .nowMicros s = .next (s.withResult true 0)) ∧
    (s.tb.init = true → s.tb.load < s.cvr → exec .nowMicros s = .refused .cvrAboveLoad) ∧
    (s.tb.init = true → s.cvr ≤ s.tb.load → ∃ v : Word, exec .nowMicros s = .next (s.withResult true v) ∧
      v.toNat = (s.tb.tickCount.toNat * s.tb.periodUs.toNat +
        (s.tb.load.toNat - s.cvr.toNat) * 1000000 / s.tb.clockHz.toNat) % 2 ^ 32)

/-- R124 with arrivals, point by point: the first read is kept while something arrives; the sample is taken, or refused above
the reload value, after the first suspension; a pair that a tick has torn is thrown away, and the next attempt, of which
one fewer is left, reads afresh; after the third the answer has tick resolution. R131: between two points the reads still
allowed only go down. That a sample with interleavings is what the last `ENV_CVR` set is the model's choice (log entry 21). -/
def Obligations.NowMicrosRetries : Prop :=
  ∀ s : State,
    (s.tb.init = true →
      exec .nowMicros s = resume (.nowMicros 2 (.haveT1 s.tb.tickCount)) s ∧
      ∀ i later, s.arrivals = .deliver i :: later →
        exec .nowMicros s = .next { s with frames := .nowMicros 2 (.haveT1 s.tb.tickCount) :: s.frames }) ∧
    ∀ (left : Nat) (t1 : Word) (c : BitVec 24),
      (∀ point i later, s.arrivals = .deliver i :: later →
        resume (.nowMicros left point) s = .next { s with frames := .nowMicros left point :: s.frames }) ∧
      (s.undisturbed →
        (s.tb.load < s.cvr → resume (.nowMicros left (.haveT1 t1)) s = .refused .cvrAboveLoad) ∧
        (s.cvr ≤ s.tb.load → resume (.nowMicros left (.haveT1 t1)) s =
          resume (.nowMicros left (.haveCvr t1 s.cvr)) s.pointPassed) ∧
        (s.tb.tickCount = t1 → ∃ v : Word,
          resume (.nowMicros left (.haveCvr t1 c)) s = .next (s.pointPassed.withResult true v) ∧
            v.toNat = (t1.toNat * s.tb.periodUs.toNat +
              (s.tb.load.toNat - c.toNat) * 1000000 / s.tb.clockHz.toNat) % 2 ^ 32) ∧
        (s.tb.tickCount ≠ t1 → resume (.nowMicros left (.haveCvr t1 c)) s =
          resume (.nowMicros left .mismatch) s.pointPassed) ∧
        (left = 0 → ∃ v : Word, resume (.nowMicros left .mismatch) s = .next (s.pointPassed.withResult true v) ∧
          v.toNat = s.tb.tickCount.toNat * s.tb.periodUs.toNat % 2 ^ 32) ∧
        (∀ fewer, left = fewer + 1 → resume (.nowMicros left .mismatch) s =
          resume (.nowMicros fewer (.haveT1 s.tb.tickCount)) s.pointPassed) ∧
        ∀ point fewer point' t, resume (.nowMicros left point) s = .next t →
          t.frames = .nowMicros fewer point' :: s.frames → microsReadsLeft fewer point' < microsReadsLeft left point) ∧
      (s.arrivals = [] → s.tb.init = true → s.tb.tickCount ≠ t1 → left ≠ 0 →
        resume (.nowMicros left (.haveCvr t1 c)) s = exec .nowMicros s)

/-- R124 (a): the microseconds within a tick stay below the period. -/
def Obligations.MicrosStayWithinTheTick : Prop :=
  ∀ s : State, s.TimerWf → s.tb.init = true → s.arrivals = [] → s.cvr ≤ s.tb.load →
    ∃ us v, us < s.tb.periodUs.toNat ∧ exec .nowMicros s = .next (s.withResult true v) ∧
      v.toNat = (s.tb.tickCount.toNat * s.tb.periodUs.toNat + us) % 2 ^ 32

/-- R129: the millisecond clock does not decrease while nothing overflows. -/
def Obligations.MillisNeverDecrease : Prop :=
  ∀ s t : State, s.tb.init = true → t.tb.init = true → s.tb.periodUs = t.tb.periodUs →
    s.tb.tickCount.toNat ≤ t.tb.tickCount.toNat →
    t.tb.tickCount.toNat * t.tb.periodUs.toNat / 1000 < 2 ^ 32 →
    ∃ s' t', exec .nowMillis s = .next s' ∧ exec .nowMillis t = .next t' ∧ s'.out.res.toNat ≤ t'.out.res.toNat

/-- R125, R126. -/
def Obligations.ElapsedIsWrapSafe : Prop :=
  ∀ (now start : Word) (s : State),
    (∃ v : Word, exec (.elapsedMs now start) s = .next (s.withResult true v) ∧
      exec (.elapsedUs now start) s = .next (s.withResult true v) ∧
      v.toNat = (now.toNat + 2 ^ 32 - start.toNat) % 2 ^ 32) ∧
    ∀ d : Word, now = start + d → exec (.elapsedMs now start) s = .next (s.withResult true d) ∧
      exec (.elapsedUs now start) s = .next (s.withResult true d)

/-! ### Interrupt Line Router -/

/-- R150. Its point may be passed; a delivery there suspends it between the two stores (R238, R277). -/
def Obligations.IlrRegisterResult : Prop :=
  ∀ (line : Byte) (callback arg : Word) (s : State),
    let r := exec (.ilrRegister line callback arg) s
    (16 ≤ line.toNat → r = .next (s.withResult false 0)) ∧
    ∀ l : LineNo, line.toNat = l.val →
      (callback = 0 → r = .refused .nullCallback) ∧
      (callback ≠ 0 → s.undisturbed → ∃ t, r = .next t ∧ t.out = { res := 1, ok := true } ∧
        t.ilr.table[l] = { valid := true, cb := callback, arg := arg } ∧
        (∀ k : LineNo, k ≠ l → t.ilr.table[k] = s.ilr.table[k]) ∧
        t = { s.pointPassed with out := t.out, ilr := { s.ilr with table := t.ilr.table }, draws := t.draws }) ∧
      (callback ≠ 0 → ∀ i later, s.arrivals = .deliver i :: later → ∃ t, r = .next t ∧
        (∀ k : LineNo, k ≠ l → t.ilr.table[k] = s.ilr.table[k]) ∧
        t = { s with ilr := { s.ilr with table := t.ilr.table }, frames := t.frames, draws := t.draws } ∧
        ((t.ilr.table[l] = { valid := true, cb := callback, arg := s.ilr.table[l].arg } ∧
            t.frames = .ilrRegister l (.argument arg) :: s.frames) ∨
          (t.ilr.table[l] = { s.ilr.table[l] with arg := arg } ∧
            t.frames = .ilrRegister l (.callback callback) :: s.frames)))

/-- R277, R150: a suspended registration completes with its second store, whatever the table holds by then; a further
delivery at its point leaves it suspended as it is (R238). -/
def Obligations.TornRegistrationCompletes : Prop :=
  ∀ (l : LineNo) (s : State),
    (∀ second i later, s.arrivals = .deliver i :: later →
      resume (.ilrRegister l second) s = .next { s with frames := .ilrRegister l second :: s.frames }) ∧
    (s.undisturbed →
      (∀ arg : Word, ∃ t, resume (.ilrRegister l (.argument arg)) s = .next t ∧ t.out = { res := 1, ok := true } ∧
        t.ilr.table[l] = { s.ilr.table[l] with arg := arg } ∧
        (∀ k : LineNo, k ≠ l → t.ilr.table[k] = s.ilr.table[k]) ∧
        t = { s.pointPassed with out := t.out, ilr := { s.ilr with table := t.ilr.table } }) ∧
      (∀ cb : Word, ∃ t, resume (.ilrRegister l (.callback cb)) s = .next t ∧ t.out = { res := 1, ok := true } ∧
        t.ilr.table[l] = { valid := true, cb := cb, arg := s.ilr.table[l].arg } ∧
        (∀ k : LineNo, k ≠ l → t.ilr.table[k] = s.ilr.table[k]) ∧
        t = { s.pointPassed with out := t.out, ilr := { s.ilr with table := t.ilr.table } }))

/-- R151. After a failure nothing is said of the seven unspecified values, and nothing else has changed. -/
def Obligations.IlrConfigResult : Prop :=
  ∀ (prio : Byte) (gok : Bool) (edge : EdgeMode) (mode : PinMode) (port : BitVec 4) (pin : LineNo) (s : State),
    ∃ t, exec (.ilrConfig prio gok edge mode port pin) s = .next t ∧
      t.ilr.table = s.ilr.table ∧
      (∀ l : LineNo, l ≠ pin → t.ilr.attr[l] = s.ilr.attr[l] ∧ pendBit t.ilr.pend l = pendBit s.ilr.pend l) ∧
      (∀ v, v ≠ lineVector pin → t.vectorAttr v = s.vectorAttr v) ∧
      ((mode = .input ∧ gok = true ∧ edge ≠ .notAnEdge ∧ t.out = { res := 1, ok := true } ∧
          t.ilr.attr[pin] = { port := port, rise := decide (edge = .rising ∨ edge = .both)
                              fall := decide (edge = .falling ∨ edge = .both), unmask := true } ∧
          pendBit t.ilr.pend pin = false ∧ t.vectorAttr (lineVector pin) = { en := true, prio := prio } ∧
          t = { s with out := t.out, ilr := t.ilr, nvic := t.nvic }) ∨
        (¬ (mode = .input ∧ gok = true ∧ edge ≠ .notAnEdge) ∧ t.out = { res := 0, ok := false } ∧
          t = { s with out := t.out, ilr := t.ilr, nvic := t.nvic, draws := t.draws }))

/-- R152 in a scripted run, for every range: the flags of the range are acknowledged, and each line that was pending and
registered has its callback invoked, in ascending order. -/
def Obligations.DispatchScripted : Prop :=
  ∀ (first last : LineNo) (s : State), s.Scripted →
    ∃ t, exec (.dispatch first last) s = .next t ∧
      (∀ l, pendBit t.ilr.pend l = (pendBit s.ilr.pend l && !(decide (first ≤ l) && decide (l ≤ last)))) ∧
      t.calls = s.calls ++ s.dueCalls (fun l => decide (first ≤ l) && decide (l ≤ last)) ∧
      t = { s with ilr := { s.ilr with pend := t.ilr.pend }, calls := t.calls }

/-- R99, R155: each vector entry point services exactly the lines of its group, and is the `DISPATCH` of R99's range. -/
def Obligations.VectorEntriesServiceTheirGroup : Prop :=
  (∀ p ∈ vectorEntries, ∀ s : State, s.Scripted →
    ∃ t, exec p.1 s = .next t ∧
      (∀ l, pendBit t.ilr.pend l = (pendBit s.ilr.pend l && lineVector l != p.2)) ∧
      t.calls = s.calls ++ s.dueCalls (fun l => lineVector l == p.2) ∧
      t = { s with ilr := { s.ilr with pend := t.ilr.pend }, calls := t.calls } ∧ t.requests p.2 = false) ∧
  ∀ s : State,
    exec .vecL0 s = exec (.dispatch 0 0) s ∧ exec .vecL1 s = exec (.dispatch 1 1) s ∧
    exec .vecL2 s = exec (.dispatch 2 2) s ∧ exec .vecL3 s = exec (.dispatch 3 3) s ∧
    exec .vecL4 s = exec (.dispatch 4 4) s ∧ exec .vecL5to9 s = exec (.dispatch 5 9) s ∧
    exec .vecL10to15 s = exec (.dispatch 10 15) s

/-- R156 in a scripted run: after a registration, a dispatch over a pending line invokes exactly that callback exactly
once and leaves the flag clear; over a line that is not pending it never does; over one that is not registered it clears
the flag and invokes nothing. -/
def Obligations.RegisteredCallbackRunsOnce : Prop :=
  ∀ (line : Byte) (l first last : LineNo) (callback arg : Word) (s t : State), s.Scripted → first ≤ l → l ≤ last →
    (line.toNat = l.val → callback ≠ 0 → ∃ s1, exec (.ilrRegister line callback arg) s = .next s1 ∧
      ∃ t1, exec (.dispatch first last) s1 = .next t1 ∧ pendBit t1.ilr.pend l = false ∧
        recordsOf l t1.calls = recordsOf l s.calls ++
          if pendBit s.ilr.pend l then [{ line := l, cb := callback, arg := arg }] else []) ∧
    (exec (.dispatch first last) s = .next t →
      (pendBit s.ilr.pend l = false ∨ s.ilr.table[l].valid = false) →
        recordsOf l t.calls = recordsOf l s.calls ∧ pendBit t.ilr.pend l = false)

/-- R152: while a line's callback runs, its flag and every flag the snapshot does not hold for a line still to come may be
set again, and none of them is lost when the handler goes on. -/
def Obligations.RetriggersAreKept : Prop :=
  ∀ (v : VecId) (snap : BitVec 16) (l : LineNo) (rest : List LineNo) (s : State), s.Scripted →
    ∃ t, resume (.dispatch v snap l rest (.inCallback [])) s = .next t ∧
      ∀ k, pendBit t.ilr.pend k = (pendBit s.ilr.pend k && !(decide (k ∈ rest) && pendBit snap k))

/-- R152 from its entry and from every suspension, point by point. The entry takes the snapshot once and stands before the
first line of the range; with something waiting the handler is suspended where it stands (R238). A line that the snapshot
holds is acknowledged, and the handler stands after the acknowledgment with the flag clear and no callback invoked yet; any
other line is passed over. R153: going on from there, a registered line's callback is invoked with the pair the table
holds now; one that has commands to issue uses up its list and the handler is suspended inside it; one that has none is
left at its last point, and then the handler comes to the next line; a line that is not registered is skipped. That a
general `DISPATCH` runs as its first line's vector is the model's choice (log entry 9). -/
def Obligations.AcknowledgedBeforeInvoked : Prop :=
  (∀ (first last : LineNo) (s : State),
    (last < first → exec (.dispatch first last) s = .next s) ∧
    (first ≤ last →
      let rest := (List.finRange 16).filter (fun l => decide (first < l) && decide (l ≤ last))
      exec (.dispatch first last) s = resume (.dispatch (lineVector first) s.ilr.pend first rest .beforeLine) s ∧
      ∀ i later, s.arrivals = .deliver i :: later → exec (.dispatch first last) s =
        .next { s with frames := .dispatch (lineVector first) s.ilr.pend first rest .beforeLine :: s.frames })) ∧
  (∀ (v : VecId) (snap : BitVec 16) (l : LineNo) (rest : List LineNo) (point : DispatchPoint) (i : Instr)
      (later : List Arrival) (s : State),
    s.arrivals = .deliver i :: later → (∀ c cs, point ≠ .inCallback (c :: cs)) →
    resume (.dispatch v snap l rest point) s = .next { s with frames := .dispatch v snap l rest point :: s.frames }) ∧
  (∀ (v : VecId) (snap : BitVec 16) (l : LineNo) (rest : List LineNo) (s : State), s.undisturbed →
    (pendBit snap l = false →
      resume (.dispatch v snap l rest .beforeLine) s = atNextLine v snap rest s.pointPassed) ∧
    (pendBit snap l = true → ∃ u : State,
      resume (.dispatch v snap l rest .beforeLine) s = resume (.dispatch v snap l rest .acknowledged) u ∧
      pendBit u.ilr.pend l = false ∧ (∀ k, k ≠ l → pendBit u.ilr.pend k = pendBit s.ilr.pend k) ∧
      u = { s.pointPassed with ilr := { s.ilr with pend := u.ilr.pend } }) ∧
    resume (.dispatch v snap l rest (.inCallback [])) s = atNextLine v snap rest s.pointPassed) ∧
  (∀ (v : VecId) (snap : BitVec 16) (l : LineNo) (rest : List LineNo) (i : Instr) (later : List Arrival) (s : State),
    s.arrivals = .pass :: .deliver i :: later → pendBit snap l = true →
    ∃ t, resume (.dispatch v snap l rest .beforeLine) s = .next t ∧ t.calls = s.calls ∧
      pendBit t.ilr.pend l = false ∧ (∀ k, k ≠ l → pendBit t.ilr.pend k = pendBit s.ilr.pend k) ∧
      t.frames = .dispatch v snap l rest .acknowledged :: s.frames ∧ t.arrivals = .deliver i :: later ∧
      t = { s with ilr := { s.ilr with pend := t.ilr.pend }, frames := t.frames, arrivals := t.arrivals }) ∧
  ∀ (v : VecId) (snap : BitVec 16) (l : LineNo) (rest : List LineNo) (s : State), s.undisturbed →
    let goesOn := resume (.dispatch v snap l rest .acknowledged) s
    let called : State :=
      { s.pointPassed with calls := s.calls ++ [{ line := l, cb := s.ilr.table[l].cb, arg := s.ilr.table[l].arg }]
                           callbackPlan := s.callbackPlan.tail }
    (s.ilr.table[l].valid = true →
      (∀ c cs more, s.callbackPlan = (c :: cs) :: more →
        goesOn = .next { called with frames := .dispatch v snap l rest (.inCallback (c :: cs)) :: s.frames }) ∧
      (s.callbackPlan = [] ∨ (∃ more, s.callbackPlan = [] :: more) →
        goesOn = resume (.dispatch v snap l rest (.inCallback [])) called ∧
        ∀ i later, called.arrivals = .deliver i :: later →
          goesOn = .next { called with frames := .dispatch v snap l rest (.inCallback []) :: s.frames })) ∧
    (s.ilr.table[l].valid = false → goesOn = atNextLine v snap rest s.pointPassed)

/-! ### Byte Transport -/

/-- R183, R185. -/
def Obligations.BaudDivResult : Prop :=
  ∀ (pclkHz baud : Word) (s : State),
    let mantissa := pclkHz.toNat / (16 * baud.toNat)
    let remainder := pclkHz.toNat % (16 * baud.toNat)
    let fraction := (remainder + baud.toNat / 2) / baud.toNat
    ∃ v : Word, exec (.baudDiv pclkHz baud) s = .next (s.withResult true v) ∧
      (baud = 0 → v = 0) ∧
      (baud ≠ 0 → v.toNat = if 16 ≤ fraction then (mantissa + 1) * 16 + 0 else mantissa * 16 + fraction)

/-- Derived from R183: the packed divisor is the clock divided by the baud rate, rounded once with `baud/2` floored. -/
def Obligations.BaudDivIsOneRoundedDivision : Prop :=
  ∀ (pclkHz baud : Word) (s : State), baud ≠ 0 →
    ∃ v : Word, exec (.baudDiv pclkHz baud) s = .next (s.withResult true v) ∧
      v.toNat = (pclkHz.toNat + baud.toNat / 2) / baud.toNat

/-- R184. -/
def Obligations.BtInitResult : Prop :=
  ∀ (prio : Byte) (gok : Bool) (rxmode txmode : PinMode) (pclkHz baud : Word) (s : State),
    let d := baudDivisor pclkHz.toNat baud.toNat
    let r := exec (.btInit prio gok rxmode txmode pclkHz baud) s
    (s.bt.init = true → r = .refused .reinit) ∧
    (s.bt.init = false → (txmode ≠ .alternate ∨ rxmode ≠ .alternate ∨ gok = false) →
      r = .next (s.withResult false 0)) ∧
    (s.bt.init = false → txmode = .alternate → rxmode = .alternate → gok = true →
      (baud = 0 ∨ 0xFFFF < d → r = .refused .baudUnfit) ∧
      (baud ≠ 0 → d ≤ 0xFFFF → ∃ t, r = .next t ∧ t.out = { res := 1, ok := true } ∧
        t.rx = { s.rx with head := 0, tail := 0, drop := 0 } ∧ t.tx = { s.tx with head := 0, tail := 0, drop := 0 } ∧
        t.bt = { errOre := 0, errFe := 0, errNf := 0, errPe := 0, init := true } ∧ t.us.brr.toNat = d ∧
        t.us = { s.us with clk := true, brr := t.us.brr, te := true, re := true, rxneie := true, txeie := false
                           ue := true, txe := true } ∧
        t.vectorAttr .serial = { en := true, prio := prio } ∧ (∀ v, v ≠ .serial → t.vectorAttr v = s.vectorAttr v) ∧
        t = { s with out := t.out, rx := t.rx, tx := t.tx, bt := t.bt, us := t.us, nvic := t.nvic }))

/-- R186, R187, R66: use before init is refused; a transfer of nothing, or through the null pointer, does nothing. -/
def Obligations.EmptyTransfers : Prop :=
  ∀ (p n : Word) (s : State),
    (s.bt.init = false →
      exec (.btWrite p n) s = .refused .useBeforeInit ∧ exec (.btRead p n) s = .refused .useBeforeInit) ∧
    (s.bt.init = true → n = 0 ∨ p = 0 →
      exec (.btWrite p n) s = .next (s.withResult true 0) ∧ exec (.btRead p n) s = .next (s.withResult true 0))

/-- R186 with nothing arriving: exactly `min(length, ring_space(tx))` bytes are accepted, in order, and the rest are
counted dropped. -/
def Obligations.BtWriteScripted : Prop :=
  ∀ (data length : Word) (s : State), s.arrivals = [] → s.bt.init = true → length ≠ 0 → data ≠ 0 → s.tx.wf = true →
    let n := min length.toNat s.tx.space
    ∃ t, exec (.btWrite data length) s = .next t ∧ t.out = { res := BitVec.ofNat 32 n, ok := true } ∧
      t.tx.contents = s.tx.contents ++ s.bytesAt data n ∧ t.tx.tail = s.tx.tail ∧ t.tx.size = s.tx.size ∧
      t.tx.drop = s.tx.drop + BitVec.ofNat 32 (length.toNat - n) ∧
      t.us = { s.us with txeie := s.us.txeie || decide (n ≠ 0) } ∧
      t = { s with out := t.out, tx := t.tx, us := t.us }

/-- R186 whatever arrives, from the start and from every suspension: at each suspension and at the end the bytes stored so
far are a prefix of the transfer, in order; bytes are dropped only by a full TX, and what is accepted and what is dropped
add up to the length; the transmit-interrupt is armed in the last step, if any byte was stored, whoever turned it off
before (R192 (d)). -/
def Obligations.BtWriteAccountsForEveryByte : Prop :=
  ∀ (data length : Word) (s : State),
    (s.bt.init = true → length ≠ 0 → data ≠ 0 →
      exec (.btWrite data length) s = resume (.btWrite data length (.beforeByte 0 0)) s ∧
      ∀ i later, s.arrivals = .deliver i :: later →
        exec (.btWrite data length) s = .next { s with frames := .btWrite data length (.beforeByte 0 0) :: s.frames }) ∧
    (∀ i : Nat, s.tx.wf = true → i < length.toNat →
      ∃ t n, resume (.btWrite data length (.beforeByte i i)) s = .next t ∧ i ≤ n ∧ n ≤ length.toNat ∧
        t.tx.contents = s.tx.contents ++ (s.bytesAt data n).drop i ∧ t.dmem = s.dmem ∧
        ((t.frames = .btWrite data length (.beforeByte n n) :: s.frames ∧ n < length.toNat ∧
            (s.undisturbed → i < n) ∧ t.tx.drop = s.tx.drop ∧ t.us = s.us ∧ t.out = s.out) ∨
          ((n = length.toNat ∨ t.tx.isFull = true) ∧
            t.tx.drop = s.tx.drop + BitVec.ofNat 32 (length.toNat - n) ∧
            ((t.frames = .btWrite data length (.beforeArm n) :: s.frames ∧ t.us = s.us ∧ t.out = s.out) ∨
              (t.frames = s.frames ∧ t.us = { s.us with txeie := s.us.txeie || decide (n ≠ 0) } ∧
                t.out = { res := BitVec.ofNat 32 n, ok := true }))))) ∧
    ∀ n : Nat,
      (s.undisturbed → resume (.btWrite data length (.beforeArm n)) s =
        .next { s.pointPassed with us := { s.us with txeie := s.us.txeie || decide (n ≠ 0) }
                                   out := { res := BitVec.ofNat 32 n, ok := true } }) ∧
      ∀ i later, s.arrivals = .deliver i :: later → resume (.btWrite data length (.beforeArm n)) s =
        .next { s with frames := .btWrite data length (.beforeArm n) :: s.frames }

/-- R187. With nothing arriving the oldest bytes are copied in order, the rest stay queued, and no other byte of DMEM
changes. Whatever arrives, from the start and from every suspension: the bytes are copied in order from where the last
ones stand, no other byte of DMEM changes, the command ends at the length or at an empty RX, and its result is the count
of all. -/
def Obligations.BtReadCopiesInOrder : Prop :=
  ∀ (output maxLength : Word) (s : State), s.rx.wf = true → Memory.wf s.dmem = true →
    (s.arrivals = [] → s.bt.init = true → maxLength ≠ 0 → output ≠ 0 →
      let n := min maxLength.toNat s.rx.count
      ∃ t, exec (.btRead output maxLength) s = .next t ∧ t.out = { res := BitVec.ofNat 32 n, ok := true } ∧
        t.rx.contents = s.rx.contents.drop n ∧ t.rx = { s.rx with tail := t.rx.tail } ∧
        t.bytesAt output n = s.rx.contents.take n ∧
        (∀ a : Word, (∀ i < n, a ≠ transferAddress output i) → t.memRead a = s.memRead a) ∧
        Memory.wf t.dmem = true ∧
        t = { s with out := t.out, rx := t.rx, dmem := t.dmem }) ∧
    (s.bt.init = true → maxLength ≠ 0 → output ≠ 0 →
      exec (.btRead output maxLength) s = resume (.btRead output maxLength 0) s ∧
      ∀ i later, s.arrivals = .deliver i :: later →
        exec (.btRead output maxLength) s = .next { s with frames := .btRead output maxLength 0 :: s.frames }) ∧
    ∀ n : Nat, n < maxLength.toNat →
      ∃ t m, resume (.btRead output maxLength n) s = .next t ∧ n ≤ m ∧ m ≤ maxLength.toNat ∧
        m - n ≤ s.rx.count ∧ t.rx.contents = s.rx.contents.drop (m - n) ∧ t.rx = { s.rx with tail := t.rx.tail } ∧
        (t.bytesAt output m).drop n = s.rx.contents.take (m - n) ∧
        (∀ a : Word, (∀ i, n ≤ i → i < m → a ≠ transferAddress output i) → t.memRead a = s.memRead a) ∧
        Memory.wf t.dmem = true ∧
        ((t.frames = .btRead output maxLength m :: s.frames ∧ m < maxLength.toNat ∧ (s.undisturbed → n < m) ∧
            t.out = s.out) ∨
          (t.frames = s.frames ∧ (m = maxLength.toNat ∨ t.rx.contents = []) ∧
            t.out = { res := BitVec.ofNat 32 m, ok := true }))

/-- R193. -/
def Obligations.BtStatReads : Prop :=
  ∀ s : State,
    let read (sel : StatSel) (v : Word) : Prop := exec (.btStat sel) s = .next (s.withResult true v)
    read .rxDrop s.rx.drop ∧ read .txDrop s.tx.drop ∧ read .errOre s.bt.errOre ∧ read .errFe s.bt.errFe ∧
    read .errNf s.bt.errNf ∧ read .errPe s.bt.errPe ∧
    read .rxEmpty (if s.rx.head = s.rx.tail then 1 else 0) ∧
    read .rxFull (if (s.rx.head + 1) % s.rx.size = s.rx.tail then 1 else 0) ∧
    read .txEmpty (if s.tx.head = s.tx.tail then 1 else 0) ∧
    read .txFull (if (s.tx.head + 1) % s.tx.size = s.tx.tail then 1 else 0)

/-- R188, steps 1 and 2, with R189: errors are counted and acknowledged and the byte is not queued; without an error one
waiting byte is queued, or dropped where RX is full. -/
def Obligations.UsartReceives : Prop :=
  ∀ s : State, s.RingsWf →
    ∃ t, exec .usartIrq s = .next t ∧
      (s.us.ore = true ∨ s.us.fe = true ∨ s.us.nf = true ∨ s.us.pe = true →
        t.bt.errOre = s.bt.errOre + (if s.us.ore then 1 else 0) ∧ t.bt.errFe = s.bt.errFe + (if s.us.fe then 1 else 0) ∧
        t.bt.errNf = s.bt.errNf + (if s.us.nf then 1 else 0) ∧ t.bt.errPe = s.bt.errPe + (if s.us.pe then 1 else 0) ∧
        t.rx = { s.rx with drop := s.rx.drop + (if s.us.ore then 1 else 0) + (if s.us.fe then 1 else 0) +
                                     (if s.us.nf then 1 else 0) + (if s.us.pe then 1 else 0) } ∧
        t.us.ore = false ∧ t.us.fe = false ∧ t.us.nf = false ∧ t.us.pe = false ∧ t.us.rxne = false) ∧
      (s.us.ore = false → s.us.fe = false → s.us.nf = false → s.us.pe = false →
        t.bt = s.bt ∧ t.us.ore = false ∧ t.us.fe = false ∧ t.us.nf = false ∧ t.us.pe = false ∧ t.us.rxne = false ∧
        (s.us.rxne = false → t.rx = s.rx) ∧
        (s.us.rxne = true → s.rx.isFull = false →
          t.rx.contents = s.rx.contents ++ [s.us.rdr] ∧ t.rx.drop = s.rx.drop ∧ t.rx.tail = s.rx.tail ∧
            t.rx.size = s.rx.size) ∧
        (s.us.rxne = true → s.rx.isFull = true → t.rx = { s.rx with drop := s.rx.drop + 1 })) ∧
      t.bt.init = s.bt.init ∧
      t.us = { s.us with ore := t.us.ore, fe := t.us.fe, nf := t.us.nf, pe := t.us.pe, rxne := t.us.rxne
                         txe := t.us.txe, txeie := t.us.txeie, tdr := t.us.tdr } ∧
      t = { s with rx := t.rx, tx := t.tx, bt := t.bt, us := t.us, txLine := t.txLine }

/-- R188, step 3: with the register empty and the transmit-interrupt on, the oldest byte is sent, or, where TX is empty,
the transmit-interrupt is turned off; otherwise nothing of it changes. R233: after an entry the serial vector requests
nothing. -/
def Obligations.UsartTransmits : Prop :=
  ∀ s : State, s.RingsWf →
    ∃ t, exec .usartIrq s = .next t ∧ t.requests .serial = false ∧
      (s.us.txe = true → s.us.txeie = true → s.tx.contents = [] →
        t.us.txeie = false ∧ t.us.txe = true ∧ t.us.tdr = s.us.tdr ∧ t.tx = s.tx ∧ t.txLine = s.txLine) ∧
      (∀ b rest, s.us.txe = true → s.us.txeie = true → s.tx.contents = b :: rest →
        t.us.tdr = b ∧ t.us.txe = false ∧ t.us.txeie = true ∧ t.tx.contents = rest ∧
          t.tx = { s.tx with tail := t.tx.tail } ∧ t.txLine = s.txLine ++ [b]) ∧
      (s.us.txe = false ∨ s.us.txeie = false →
        t.us.txeie = s.us.txeie ∧ t.us.txe = s.us.txe ∧ t.us.tdr = s.us.tdr ∧ t.tx = s.tx ∧ t.txLine = s.txLine)

/-- R282, R196: in one entry the RX drop count grows as the four error counters together, and by one more for a byte that
found RX full. -/
def Obligations.RxDropAccounting : Prop :=
  ∀ s t : State, exec .usartIrq s = .next t →
    let errors (x : State) : Word := x.bt.errOre + x.bt.errFe + x.bt.errNf + x.bt.errPe
    t.rx.drop - errors t = s.rx.drop - errors s +
      (if s.us.anyError = false ∧ s.us.rxne = true ∧ s.rx.isFull = true then 1 else 0)

/-- R127, R154, R190, R191, and which request each event raises (R233). -/
def Obligations.EnvironmentEvents : Prop :=
  ∀ s : State,
    (∀ value : BitVec 24, exec (.envCvr value) s = .next { s with cvr := value }) ∧
    (∀ (dir : Direction) (line : LineNo),
      let selected := (dir = .rise ∧ s.ilr.attr[line].rise = true) ∨ (dir = .fall ∧ s.ilr.attr[line].fall = true)
      ∃ t, exec (.envEdge dir line) s = .next t ∧
        (selected → pendBit t.ilr.pend line = true) ∧ (¬ selected → t.ilr.pend = s.ilr.pend) ∧
        (∀ k, k ≠ line → pendBit t.ilr.pend k = pendBit s.ilr.pend k) ∧
        t = { s with ilr := { s.ilr with pend := t.ilr.pend } } ∧
        (selected → s.ilr.attr[line].unmask = true → (s.vectorAttr (lineVector line)).en = true →
          t.requests (lineVector line) = true)) ∧
    (∀ (nf fe pe : Bool) (byte : Byte),
      exec (.envRx nf fe pe byte) s = .next
        (if s.us.ue = false ∨ s.us.re = false then s
         else if s.us.rxne then { s with us := { s.us with ore := true } }
         else { s with us := { s.us with rdr := byte, rxne := true, pe := s.us.pe || pe, fe := s.us.fe || fe
                                         nf := s.us.nf || nf } })) ∧
    exec .envTxe s = .next
      (if s.us.ue = false ∨ s.us.te = false then s else { s with us := { s.us with txe := true } }) ∧
    ((s.vectorAttr .serial).en = true → s.us.ue = true →
      (s.us.re = true → s.us.rxneie = true → ∀ nf fe pe byte t, exec (.envRx nf fe pe byte) s = .next t →
        t.requests .serial = true) ∧
      (s.us.te = true → s.us.txeie = true → ∀ t, exec .envTxe s = .next t → t.requests .serial = true))

/-! ### Rings and memory -/

/-- R180: the predicates in terms of the number of live bytes; empty and full never hold together. -/
def Obligations.RingPredicates : Prop :=
  ∀ r : Ring, r.wf = true →
    r.count ≤ r.size - 1 ∧ r.contents.length = r.count ∧ r.count + r.space = r.size - 1 ∧
    (r.head = r.tail ↔ r.count = 0) ∧ ((r.head + 1) % r.size = r.tail ↔ r.count = r.size - 1) ∧
    ¬ (r.isEmpty = true ∧ r.isFull = true)

/-- R71, R181, R182: over any sequence of accesses to a ring the bytes popped, then those still live, are the bytes live
at the start, then those stored; from an empty ring the bytes popped are a prefix of the bytes stored. -/
def Obligations.RingIsFirstInFirstOut : Prop :=
  ∀ (r : Ring) (accesses : List RingAccess), r.wf = true →
    let after := r.run accesses
    after.1.wf = true ∧ after.1.size = r.size ∧ after.2.2 ++ after.1.contents = r.contents ++ after.2.1 ∧
      (r.isEmpty = true → after.2.2 <+: after.2.1)

/-- R65, with the canonical form of DMEM kept (log entry 6). -/
def Obligations.MemoryReadsBack : Prop :=
  ∀ (s : State) (a c : Word) (b : Byte), Memory.wf s.dmem = true →
    (s.memWrite a b).memRead a = b ∧ (c ≠ a → (s.memWrite a b).memRead c = s.memRead c) ∧
    Memory.wf (s.memWrite a b).dmem = true ∧ s.memWrite a b = { s with dmem := (s.memWrite a b).dmem } ∧
    ∀ i : Nat, (transferAddress a i).toNat = (a.toNat + i) % 2 ^ 32

/-! ### Encoding -/

/-- Every well-formed operation decodes from its own words, at every value of every operand, and leaves the words after
it (R91 to R95, R99). -/
def Obligations.EncodedOperationsDecode : Prop :=
  ∀ (i : Instr) (rest : List Word), i.wellFormed = true →
    decode (encode i ++ rest) = .ok (i, rest) ∧ (encode i).length = i.words

/-- Words have one meaning: what decodes is well formed and its encoding is the words consumed, so no bit is ignored. -/
def Obligations.DecodedWordsEncodeBack : Prop :=
  ∀ (ws rest : List Word) (i : Instr), decode ws = .ok (i, rest) → i.wellFormed = true ∧ ws = encode i ++ rest

/-- R94, R96: a first word is accepted exactly if it matches a row of the opcode table and is no reserved `BT_STAT`. -/
def Obligations.DecoderFollowsOpcodeTable : Prop :=
  ∀ (w0 w1 w2 : Word) (rest : List Word),
    (∃ i more, decode (w0 :: w1 :: w2 :: rest) = .ok (i, more)) ↔
      (∃ row ∈ opcodeMasks, w0 &&& row.2 = row.1) ∧ ¬ (w0 &&& 0xFF000000 = 0x24000000 ∧ 10 ≤ w0 &&& 0xF)

/-- R100, R99: the worked encodings. -/
def Obligations.WorkedEncodings : Prop :=
  decode [0x01000000, 0x00F42400, 0x000003E8] = .ok (.tbInit 0 16000000 1000, []) ∧
  decode [0x1000000D, 0x08001235, 0x20000010] = .ok (.ilrRegister 13 0x08001235 0x20000010, []) ∧
  decode [0x1105142D] = .ok (.ilrConfig 5 true .falling .input 2 13, []) ∧
  decode [0x2006001A, 0x00F42400, 0x0001C200] = .ok (.btInit 6 true .alternate .alternate 16000000 115200, []) ∧
  decode [0x24000001] = .ok (.btStat .txDrop, []) ∧ decode [0x91000255] = .ok (.envRx false true false 0x55, []) ∧
  decode [0x93001F3F] = .ok (.envCvr 7999, []) ∧ decode [0x9000001D] = .ok (.envEdge .fall 13, []) ∧
  decode [0x81000059] = .ok (.vecL5to9, []) ∧ decode [0x8100000F] = .ok (.dispatch 0 15, [])

/-! ### The step -/

/-- R21, R90: with nothing in flight a step runs the operation its words decode to, the position moved past them, where the
words ahead are well delimited; the words of any operations one after another are, and so are they before a word that is
no operation (R93, log entry 11). -/
def Obligations.StepRunsTheDecodedOperation : Prop :=
  (∀ (s : State) (i : Instr) (rest : List Word), s.frames = [] → wellDelimited (s.stream.drop s.sp) = true →
    decode (s.stream.drop s.sp) = .ok (i, rest) →
    step s = exec i { s with sp := s.sp + i.words } ∧ s.stream.drop (s.sp + i.words) = rest) ∧
  ∀ is : List Instr, (∀ i ∈ is, i.wellFormed = true) →
    wellDelimited (is.flatMap encode) = true ∧
    ∀ (w : Word) (ws : List Word), decode (w :: ws) = .error (.undefinedOpcode (field w 31 24)) →
      wellDelimited (is.flatMap encode ++ w :: ws) = true

/-- R93, R96, R275: with nothing in flight a step refuses at the end of the stream, before a stream with a truncated
operation (log entry 11), and at words that are no operation. Words that end in a proper part of a three-word operation
are such a stream. R275 ends the run at the end of the stream; that the step function answers the refusal `streamEnded`
there is the model's choice (log entry 15). -/
def Obligations.StepRefusesOtherWords : Prop :=
  ∀ s : State, s.frames = [] →
    (s.stream.length ≤ s.sp → step s = .refused .streamEnded) ∧
    (wellDelimited (s.stream.drop s.sp) = false → step s = .refused .streamMalformed) ∧
    (∀ (is : List Instr) (i : Instr) (k : Nat), (∀ j ∈ is, j.wellFormed = true) → i.words = 3 → 1 ≤ k → k ≤ 2 →
      wellDelimited (is.flatMap encode ++ (encode i).take k) = false ∧
      (s.stream.drop s.sp = is.flatMap encode ++ (encode i).take k → step s = .refused .streamMalformed)) ∧
    (∀ e, s.sp < s.stream.length → wellDelimited (s.stream.drop s.sp) = true →
      decode (s.stream.drop s.sp) = .error e → step s = .refused (.undecodable e))

/-- R237, R238: with an operation in flight a step is what arrives at its preemption point, or that operation going on; a
callback's next command runs over its handler (R153, R280). That a delivery which may not be entered is refused is the
model's reading (log entry 17), and that a callback issuing something other than a command is refused as `notACommand` is
the model's choice (log entry 8). -/
def Obligations.StepInFlight : Prop :=
  ∀ (s : State) (f : Frame) (below : List Frame), s.frames = f :: below →
    (∀ i later, s.arrivals = .deliver i :: later →
      step s = match s.entryRefusal i with
        | some r => .refused r
        | none => exec i { s with arrivals := later }) ∧
    (s.undisturbed → step s = resume f { s with frames := below }) ∧
    (∀ v snap l rest c cs, f = .dispatch v snap l rest (.inCallback (c :: cs)) → s.undisturbed →
      (c.port = .cmd →
        step s = exec c { s.pointPassed with frames := .dispatch v snap l rest (.inCallback cs) :: below }) ∧
      (c.port ≠ .cmd → step s = .refused .notACommand))

/-- R232, R155: which vector's handler each operation is (a general `DISPATCH` is counted under its first line's vector,
log entry 9). R233: what each vector requests. R235, R238, R239: which operations may happen at a preemption point; that
the others are refused, by these names, is the model's (log entry 17). -/
def Obligations.HandlerEntryRules : Prop :=
  (handlerVector? .tickIrq = some .tick ∧ handlerVector? .usartIrq = some .serial ∧
    (∀ p ∈ vectorEntries, handlerVector? p.1 = some p.2) ∧
    (∀ first last, handlerVector? (.dispatch first last) = some (lineVector first)) ∧
    (∀ i, handlerVector? i = none ↔ i.port ≠ .irq) ∧
    (List.finRange 16).map lineVector =
      [.l0, .l1, .l2, .l3, .l4] ++ List.replicate 5 .l5to9 ++ List.replicate 6 .l10to15) ∧
  (∀ s : State,
    (s.requests .serial = true ↔ (s.vectorAttr .serial).en = true ∧ s.us.ue = true ∧
      (s.us.rxneie = true ∧ (s.us.rxne = true ∨ s.us.ore = true) ∨ s.us.txeie = true ∧ s.us.txe = true)) ∧
    ∀ v, v ≠ .tick → v ≠ .serial →
      (s.requests v = true ↔ (s.vectorAttr v).en = true ∧
        ∃ l : LineNo, lineVector l = v ∧ pendBit s.ilr.pend l = true ∧ s.ilr.attr[l].unmask = true)) ∧
  (∀ p, preempts p p = false) ∧
  ∀ (s : State) (i : Instr),
    (i.port = .env → s.entryRefusal i = none) ∧
    (i.port = .cmd → s.entryRefusal i = some .notAnEvent) ∧
    (i.port = .irq → ∃ w, handlerVector? i = some w ∧
      (s.activeVectors = [] → s.entryRefusal i = none) ∧
      (w ∈ s.activeVectors → s.entryRefusal i = some .vectorActive) ∧
      (∀ v outer, s.activeVectors = v :: outer → w ∉ s.activeVectors →
        s.entryRefusal i =
          if preempts (s.vectorAttr w).prio (s.vectorAttr v).prio then none else some .notPreempting))

/-! ### Whole-machine rules

`s.runs i t` is one step of the operation `i`, entered or going on from a suspension; `FrameOfEveryOperation` says that every
step of the machine is one. -/

/-- The frame of every operation, whatever arrives: what it leaves unchanged, entered or going on from a suspension (R237).
Beside that an operation only ever suspends itself on top of what is in flight, and only uses up arrivals from the front.
Every step is one operation running, so that what is said of every run is said of every step. -/
def Obligations.FrameOfEveryOperation : Prop :=
  (∀ (i : Instr) (s t : State), exec i s = .next t →
    s.keeps i t ∧ (t.frames = s.frames ∨ ∃ f, f.isOf i ∧ t.frames = f :: s.frames) ∧ t.arrivals <:+ s.arrivals) ∧
  (∀ (f : Frame) (s t : State), f.issued? = none → resume f s = .next t →
    s.keepsFrom f t ∧ (t.frames = s.frames ∨ ∃ g, (∀ i, f.isOf i → g.isOf i) ∧ t.frames = g :: s.frames) ∧
      t.arrivals <:+ s.arrivals) ∧
  ∀ s t : State, s.FramesWf → step s = .next t →
    ∃ (i : Instr) (u : State), u.runs i t ∧ u = { s with sp := u.sp, arrivals := u.arrivals, frames := u.frames } ∧
      u.arrivals <:+ s.arrivals

/-- R230: a command that has ended failed exactly under the conditions of the table; then `RES` is 0, and, but for
`ILR_CONFIG`, nothing else has changed. One that goes on from a suspension to its end succeeds. -/
def Obligations.FailuresAreTheTable : Prop :=
  (∀ (i : Instr) (s t : State), i.port = .cmd → exec i s = .next t → t.frames = s.frames →
    (t.out.ok = false ↔ failureCondition i) ∧
    (t.out.ok = false → t.out.res = 0 ∧
      ((∀ prio gok edge mode port pin, i ≠ .ilrConfig prio gok edge mode port pin) → t = { s with out := t.out }))) ∧
  ∀ (f : Frame) (s t : State), f.isCommand = true → resume f s = .next t → t.frames = s.frames → t.out.ok = true

/-- The invariant of the machine is kept by every step. -/
def Obligations.StepKeepsInvariant : Prop :=
  ∀ s t : State, s.Inv → step s = .next t → t.Inv

/-- R230: nothing faults. The one fault of the model, a read of an unwritten ring cell (V1), is never reached within the
invariant. -/
def Obligations.NothingFaults : Prop :=
  ∀ (s : State) (e : Fault), s.Inv → step s ≠ .fault e

/-- R192 with R71: no step loses, repeats or reorders a byte accepted for transmission: what has been sent, then what is
queued, only grows at its end. For a `BT_WRITE` that a callback nests in another, where R276 and U10 promise no order, it
rests on the model's reading that one byte is one atomic iteration (log entry 13). -/
def Obligations.TransmissionKeepsOrder : Prop :=
  ∀ s t : State, s.Inv → step s = .next t → s.txLine ++ s.tx.contents <+: t.txLine ++ t.tx.contents

/-- R192: with the transmit-interrupt armed and the register empty, one handler entry and one freeing of the register for
each queued byte, and one more, send every queued byte in order and leave the transmit-interrupt off. -/
def Obligations.DrainingSendsEveryByte : Prop :=
  ∀ s : State, s.RingsWf → s.us.ue = true → s.us.te = true → s.us.txe = true → s.us.txeie = true →
    ∃ t, drain (s.tx.count + 1) s = some t ∧ t.txLine = s.txLine ++ s.tx.contents ∧ t.tx.contents = [] ∧
      t.us.txeie = false

/-- R23. -/
def Obligations.TickCountIsTheTicksAlone : Prop :=
  ∀ (i : Instr) (s t : State), i ≠ .tickIrq → s.runs i t → t.tb.tickCount = s.tb.tickCount

/-- R20: events write neither result register. -/
def Obligations.EventsLeaveResults : Prop :=
  ∀ (i : Instr) (s t : State), i.port ≠ .cmd → s.runs i t → t.out = s.out

/-- R25, R26: only a registration writes the line table, and nothing returns a line to UNREGISTERED. -/
def Obligations.TableIsTheRegistrationsAlone : Prop :=
  ∀ (i : Instr) (s t : State), s.runs i t →
    ((∀ line callback arg, i ≠ .ilrRegister line callback arg) → t.ilr.table = s.ilr.table) ∧
    ∀ l : LineNo, s.ilr.table[l].valid = true → t.ilr.table[l].valid = true

/-- R28: a pending flag is set by an edge alone and cleared by a dispatch or a configuration alone (a failed
configuration leaves its line's flag unspecified). -/
def Obligations.PendingFlagOwners : Prop :=
  ∀ (i : Instr) (s t : State) (l : LineNo), s.runs i t →
    (∀ prio gok edge mode port, i ≠ .ilrConfig prio gok edge mode port l) →
    (pendBit s.ilr.pend l = false → pendBit t.ilr.pend l = true → ∃ dir, i = .envEdge dir l) ∧
    (pendBit s.ilr.pend l = true → pendBit t.ilr.pend l = false →
      i.port = .irq ∧ i ≠ .tickIrq ∧ i ≠ .usartIrq)

/-- R32: the fixed roles of producer and consumer. -/
def Obligations.RingRoles : Prop :=
  ∀ (i : Instr) (s t : State), s.runs i t →
    (∀ prio gok rxmode txmode pclkHz baud, i ≠ .btInit prio gok rxmode txmode pclkHz baud) →
    ((∀ data length, i ≠ .btWrite data length) →
      t.tx.head = s.tx.head ∧ t.tx.buf = s.tx.buf ∧ t.tx.drop = s.tx.drop) ∧
    (i ≠ .usartIrq → t.tx.tail = s.tx.tail ∧ t.rx.head = s.rx.head ∧ t.rx.buf = s.rx.buf ∧ t.rx.drop = s.rx.drop) ∧
    ((∀ output maxLength, i ≠ .btRead output maxLength) → t.rx.tail = s.rx.tail)

/-- R192 (a): the transmit-interrupt is turned on by `BT_WRITE` alone and off by the serial handler alone, which does so
only with TX empty. -/
def Obligations.TransmitInterruptOwners : Prop :=
  ∀ (i : Instr) (s t : State), s.DormantWf → s.runs i t →
    (s.us.txeie = false → t.us.txeie = true → ∃ data length, i = .btWrite data length) ∧
    (s.us.txeie = true → t.us.txeie = false → i = .usartIrq ∧ s.tx.isEmpty = true)

/-- R21, R74: no operation writes the stimulus position or the stream. -/
def Obligations.StimulusIsAnInput : Prop :=
  ∀ (i : Instr) (s t : State), s.runs i t → t.sp = s.sp ∧ t.stream = s.stream

/-- R38: both traces only grow at their end. -/
def Obligations.TracesOnlyGrow : Prop :=
  ∀ s t : State, step s = .next t → s.calls <+: t.calls ∧ s.txLine <+: t.txLine

/-- R233: no operation disables a vector or masks a line again, but a failed configuration of that line's own group. -/
def Obligations.SourcesStayEnabled : Prop :=
  ∀ (i : Instr) (s t : State), s.runs i t →
    (∀ v, (s.vectorAttr v).en = true →
      (∀ prio gok edge mode port pin, i = .ilrConfig prio gok edge mode port pin → lineVector pin = v →
        lineConfigGood gok edge mode = true) → (t.vectorAttr v).en = true) ∧
    (∀ l : LineNo, s.ilr.attr[l].unmask = true →
      (∀ prio gok edge mode port, i = .ilrConfig prio gok edge mode port l → lineConfigGood gok edge mode = true) →
      t.ilr.attr[l].unmask = true)

/-- R236 (a): in a scripted run any two of the three handler bodies, the tick handler, a dispatch and the serial handler,
may be entered in either order, with the same final state. -/
def Obligations.HandlersCommute : Prop :=
  ∀ (first last : LineNo) (a b : Instr) (s s1 t : State), s.Scripted →
    a ∈ [Instr.tickIrq, Instr.usartIrq, Instr.dispatch first last] →
    b ∈ [Instr.tickIrq, Instr.usartIrq, Instr.dispatch first last] → a ≠ b →
    exec a s = .next s1 → exec b s1 = .next t →
    ∃ s2, exec b s = .next s2 ∧ exec a s2 = .next t

/-- R239: at most seven handlers are suspended or running at a preemption point, no vector's twice. -/
def Obligations.NestingIsBounded : Prop :=
  ∀ s : State, s.Inv → s.activeVectors.Nodup ∧ s.activeVectors.length ≤ 7
end

