-- ==== Sys2Proof/Laws/State.lean ====
section
/-! SUPPORT. One lemma for each field of the state under each field update, so that no later proof unfolds an update. -/

namespace Sys2Proof.Machine.State

/-! ### `setOut` -/

@[simp] theorem setOut_out (s : State) (x : Results) : (s.setOut x).out = x := rfl
@[simp] theorem setOut_sp (s : State) (x : Results) : (s.setOut x).sp = s.sp := rfl
@[simp] theorem setOut_stream (s : State) (x : Results) : (s.setOut x).stream = s.stream := rfl
@[simp] theorem setOut_tb (s : State) (x : Results) : (s.setOut x).tb = s.tb := rfl
@[simp] theorem setOut_cvr (s : State) (x : Results) : (s.setOut x).cvr = s.cvr := rfl
@[simp] theorem setOut_ilr (s : State) (x : Results) : (s.setOut x).ilr = s.ilr := rfl
@[simp] theorem setOut_nvic (s : State) (x : Results) : (s.setOut x).nvic = s.nvic := rfl
@[simp] theorem setOut_rx (s : State) (x : Results) : (s.setOut x).rx = s.rx := rfl
@[simp] theorem setOut_tx (s : State) (x : Results) : (s.setOut x).tx = s.tx := rfl
@[simp] theorem setOut_bt (s : State) (x : Results) : (s.setOut x).bt = s.bt := rfl
@[simp] theorem setOut_us (s : State) (x : Results) : (s.setOut x).us = s.us := rfl
@[simp] theorem setOut_dmem (s : State) (x : Results) : (s.setOut x).dmem = s.dmem := rfl
@[simp] theorem setOut_txLine (s : State) (x : Results) : (s.setOut x).txLine = s.txLine := rfl
@[simp] theorem setOut_calls (s : State) (x : Results) : (s.setOut x).calls = s.calls := rfl
@[simp] theorem setOut_frames (s : State) (x : Results) : (s.setOut x).frames = s.frames := rfl
@[simp] theorem setOut_arrivals (s : State) (x : Results) : (s.setOut x).arrivals = s.arrivals := rfl
@[simp] theorem setOut_callbackPlan (s : State) (x : Results) : (s.setOut x).callbackPlan = s.callbackPlan := rfl
@[simp] theorem setOut_draws (s : State) (x : Results) : (s.setOut x).draws = s.draws := rfl

/-! ### `setSp` -/

@[simp] theorem setSp_out (s : State) (x : Nat) : (s.setSp x).out = s.out := rfl
@[simp] theorem setSp_sp (s : State) (x : Nat) : (s.setSp x).sp = x := rfl
@[simp] theorem setSp_stream (s : State) (x : Nat) : (s.setSp x).stream = s.stream := rfl
@[simp] theorem setSp_tb (s : State) (x : Nat) : (s.setSp x).tb = s.tb := rfl
@[simp] theorem setSp_cvr (s : State) (x : Nat) : (s.setSp x).cvr = s.cvr := rfl
@[simp] theorem setSp_ilr (s : State) (x : Nat) : (s.setSp x).ilr = s.ilr := rfl
@[simp] theorem setSp_nvic (s : State) (x : Nat) : (s.setSp x).nvic = s.nvic := rfl
@[simp] theorem setSp_rx (s : State) (x : Nat) : (s.setSp x).rx = s.rx := rfl
@[simp] theorem setSp_tx (s : State) (x : Nat) : (s.setSp x).tx = s.tx := rfl
@[simp] theorem setSp_bt (s : State) (x : Nat) : (s.setSp x).bt = s.bt := rfl
@[simp] theorem setSp_us (s : State) (x : Nat) : (s.setSp x).us = s.us := rfl
@[simp] theorem setSp_dmem (s : State) (x : Nat) : (s.setSp x).dmem = s.dmem := rfl
@[simp] theorem setSp_txLine (s : State) (x : Nat) : (s.setSp x).txLine = s.txLine := rfl
@[simp] theorem setSp_calls (s : State) (x : Nat) : (s.setSp x).calls = s.calls := rfl
@[simp] theorem setSp_frames (s : State) (x : Nat) : (s.setSp x).frames = s.frames := rfl
@[simp] theorem setSp_arrivals (s : State) (x : Nat) : (s.setSp x).arrivals = s.arrivals := rfl
@[simp] theorem setSp_callbackPlan (s : State) (x : Nat) : (s.setSp x).callbackPlan = s.callbackPlan := rfl
@[simp] theorem setSp_draws (s : State) (x : Nat) : (s.setSp x).draws = s.draws := rfl

/-! ### `setTb` -/

@[simp] theorem setTb_out (s : State) (x : TimeBase) : (s.setTb x).out = s.out := rfl
@[simp] theorem setTb_sp (s : State) (x : TimeBase) : (s.setTb x).sp = s.sp := rfl
@[simp] theorem setTb_stream (s : State) (x : TimeBase) : (s.setTb x).stream = s.stream := rfl
@[simp] theorem setTb_tb (s : State) (x : TimeBase) : (s.setTb x).tb = x := rfl
@[simp] theorem setTb_cvr (s : State) (x : TimeBase) : (s.setTb x).cvr = s.cvr := rfl
@[simp] theorem setTb_ilr (s : State) (x : TimeBase) : (s.setTb x).ilr = s.ilr := rfl
@[simp] theorem setTb_nvic (s : State) (x : TimeBase) : (s.setTb x).nvic = s.nvic := rfl
@[simp] theorem setTb_rx (s : State) (x : TimeBase) : (s.setTb x).rx = s.rx := rfl
@[simp] theorem setTb_tx (s : State) (x : TimeBase) : (s.setTb x).tx = s.tx := rfl
@[simp] theorem setTb_bt (s : State) (x : TimeBase) : (s.setTb x).bt = s.bt := rfl
@[simp] theorem setTb_us (s : State) (x : TimeBase) : (s.setTb x).us = s.us := rfl
@[simp] theorem setTb_dmem (s : State) (x : TimeBase) : (s.setTb x).dmem = s.dmem := rfl
@[simp] theorem setTb_txLine (s : State) (x : TimeBase) : (s.setTb x).txLine = s.txLine := rfl
@[simp] theorem setTb_calls (s : State) (x : TimeBase) : (s.setTb x).calls = s.calls := rfl
@[simp] theorem setTb_frames (s : State) (x : TimeBase) : (s.setTb x).frames = s.frames := rfl
@[simp] theorem setTb_arrivals (s : State) (x : TimeBase) : (s.setTb x).arrivals = s.arrivals := rfl
@[simp] theorem setTb_callbackPlan (s : State) (x : TimeBase) : (s.setTb x).callbackPlan = s.callbackPlan := rfl
@[simp] theorem setTb_draws (s : State) (x : TimeBase) : (s.setTb x).draws = s.draws := rfl

/-! ### `setCvr` -/

@[simp] theorem setCvr_out (s : State) (x : BitVec 24) : (s.setCvr x).out = s.out := rfl
@[simp] theorem setCvr_sp (s : State) (x : BitVec 24) : (s.setCvr x).sp = s.sp := rfl
@[simp] theorem setCvr_stream (s : State) (x : BitVec 24) : (s.setCvr x).stream = s.stream := rfl
@[simp] theorem setCvr_tb (s : State) (x : BitVec 24) : (s.setCvr x).tb = s.tb := rfl
@[simp] theorem setCvr_cvr (s : State) (x : BitVec 24) : (s.setCvr x).cvr = x := rfl
@[simp] theorem setCvr_ilr (s : State) (x : BitVec 24) : (s.setCvr x).ilr = s.ilr := rfl
@[simp] theorem setCvr_nvic (s : State) (x : BitVec 24) : (s.setCvr x).nvic = s.nvic := rfl
@[simp] theorem setCvr_rx (s : State) (x : BitVec 24) : (s.setCvr x).rx = s.rx := rfl
@[simp] theorem setCvr_tx (s : State) (x : BitVec 24) : (s.setCvr x).tx = s.tx := rfl
@[simp] theorem setCvr_bt (s : State) (x : BitVec 24) : (s.setCvr x).bt = s.bt := rfl
@[simp] theorem setCvr_us (s : State) (x : BitVec 24) : (s.setCvr x).us = s.us := rfl
@[simp] theorem setCvr_dmem (s : State) (x : BitVec 24) : (s.setCvr x).dmem = s.dmem := rfl
@[simp] theorem setCvr_txLine (s : State) (x : BitVec 24) : (s.setCvr x).txLine = s.txLine := rfl
@[simp] theorem setCvr_calls (s : State) (x : BitVec 24) : (s.setCvr x).calls = s.calls := rfl
@[simp] theorem setCvr_frames (s : State) (x : BitVec 24) : (s.setCvr x).frames = s.frames := rfl
@[simp] theorem setCvr_arrivals (s : State) (x : BitVec 24) : (s.setCvr x).arrivals = s.arrivals := rfl
@[simp] theorem setCvr_callbackPlan (s : State) (x : BitVec 24) : (s.setCvr x).callbackPlan = s.callbackPlan := rfl
@[simp] theorem setCvr_draws (s : State) (x : BitVec 24) : (s.setCvr x).draws = s.draws := rfl

/-! ### `setIlr` -/

@[simp] theorem setIlr_out (s : State) (x : LineRouter) : (s.setIlr x).out = s.out := rfl
@[simp] theorem setIlr_sp (s : State) (x : LineRouter) : (s.setIlr x).sp = s.sp := rfl
@[simp] theorem setIlr_stream (s : State) (x : LineRouter) : (s.setIlr x).stream = s.stream := rfl
@[simp] theorem setIlr_tb (s : State) (x : LineRouter) : (s.setIlr x).tb = s.tb := rfl
@[simp] theorem setIlr_cvr (s : State) (x : LineRouter) : (s.setIlr x).cvr = s.cvr := rfl
@[simp] theorem setIlr_ilr (s : State) (x : LineRouter) : (s.setIlr x).ilr = x := rfl
@[simp] theorem setIlr_nvic (s : State) (x : LineRouter) : (s.setIlr x).nvic = s.nvic := rfl
@[simp] theorem setIlr_rx (s : State) (x : LineRouter) : (s.setIlr x).rx = s.rx := rfl
@[simp] theorem setIlr_tx (s : State) (x : LineRouter) : (s.setIlr x).tx = s.tx := rfl
@[simp] theorem setIlr_bt (s : State) (x : LineRouter) : (s.setIlr x).bt = s.bt := rfl
@[simp] theorem setIlr_us (s : State) (x : LineRouter) : (s.setIlr x).us = s.us := rfl
@[simp] theorem setIlr_dmem (s : State) (x : LineRouter) : (s.setIlr x).dmem = s.dmem := rfl
@[simp] theorem setIlr_txLine (s : State) (x : LineRouter) : (s.setIlr x).txLine = s.txLine := rfl
@[simp] theorem setIlr_calls (s : State) (x : LineRouter) : (s.setIlr x).calls = s.calls := rfl
@[simp] theorem setIlr_frames (s : State) (x : LineRouter) : (s.setIlr x).frames = s.frames := rfl
@[simp] theorem setIlr_arrivals (s : State) (x : LineRouter) : (s.setIlr x).arrivals = s.arrivals := rfl
@[simp] theorem setIlr_callbackPlan (s : State) (x : LineRouter) : (s.setIlr x).callbackPlan = s.callbackPlan := rfl
@[simp] theorem setIlr_draws (s : State) (x : LineRouter) : (s.setIlr x).draws = s.draws := rfl

/-! ### `setNvic` -/

@[simp] theorem setNvic_out (s : State) (x : Vector VectorAttr 9) : (s.setNvic x).out = s.out := rfl
@[simp] theorem setNvic_sp (s : State) (x : Vector VectorAttr 9) : (s.setNvic x).sp = s.sp := rfl
@[simp] theorem setNvic_stream (s : State) (x : Vector VectorAttr 9) : (s.setNvic x).stream = s.stream := rfl
@[simp] theorem setNvic_tb (s : State) (x : Vector VectorAttr 9) : (s.setNvic x).tb = s.tb := rfl
@[simp] theorem setNvic_cvr (s : State) (x : Vector VectorAttr 9) : (s.setNvic x).cvr = s.cvr := rfl
@[simp] theorem setNvic_ilr (s : State) (x : Vector VectorAttr 9) : (s.setNvic x).ilr = s.ilr := rfl
@[simp] theorem setNvic_nvic (s : State) (x : Vector VectorAttr 9) : (s.setNvic x).nvic = x := rfl
@[simp] theorem setNvic_rx (s : State) (x : Vector VectorAttr 9) : (s.setNvic x).rx = s.rx := rfl
@[simp] theorem setNvic_tx (s : State) (x : Vector VectorAttr 9) : (s.setNvic x).tx = s.tx := rfl
@[simp] theorem setNvic_bt (s : State) (x : Vector VectorAttr 9) : (s.setNvic x).bt = s.bt := rfl
@[simp] theorem setNvic_us (s : State) (x : Vector VectorAttr 9) : (s.setNvic x).us = s.us := rfl
@[simp] theorem setNvic_dmem (s : State) (x : Vector VectorAttr 9) : (s.setNvic x).dmem = s.dmem := rfl
@[simp] theorem setNvic_txLine (s : State) (x : Vector VectorAttr 9) : (s.setNvic x).txLine = s.txLine := rfl
@[simp] theorem setNvic_calls (s : State) (x : Vector VectorAttr 9) : (s.setNvic x).calls = s.calls := rfl
@[simp] theorem setNvic_frames (s : State) (x : Vector VectorAttr 9) : (s.setNvic x).frames = s.frames := rfl
@[simp] theorem setNvic_arrivals (s : State) (x : Vector VectorAttr 9) : (s.setNvic x).arrivals = s.arrivals := rfl
@[simp] theorem setNvic_callbackPlan (s : State) (x : Vector VectorAttr 9) : (s.setNvic x).callbackPlan = s.callbackPlan := rfl
@[simp] theorem setNvic_draws (s : State) (x : Vector VectorAttr 9) : (s.setNvic x).draws = s.draws := rfl

/-! ### `setRx` -/

@[simp] theorem setRx_out (s : State) (x : Ring) : (s.setRx x).out = s.out := rfl
@[simp] theorem setRx_sp (s : State) (x : Ring) : (s.setRx x).sp = s.sp := rfl
@[simp] theorem setRx_stream (s : State) (x : Ring) : (s.setRx x).stream = s.stream := rfl
@[simp] theorem setRx_tb (s : State) (x : Ring) : (s.setRx x).tb = s.tb := rfl
@[simp] theorem setRx_cvr (s : State) (x : Ring) : (s.setRx x).cvr = s.cvr := rfl
@[simp] theorem setRx_ilr (s : State) (x : Ring) : (s.setRx x).ilr = s.ilr := rfl
@[simp] theorem setRx_nvic (s : State) (x : Ring) : (s.setRx x).nvic = s.nvic := rfl
@[simp] theorem setRx_rx (s : State) (x : Ring) : (s.setRx x).rx = x := rfl
@[simp] theorem setRx_tx (s : State) (x : Ring) : (s.setRx x).tx = s.tx := rfl
@[simp] theorem setRx_bt (s : State) (x : Ring) : (s.setRx x).bt = s.bt := rfl
@[simp] theorem setRx_us (s : State) (x : Ring) : (s.setRx x).us = s.us := rfl
@[simp] theorem setRx_dmem (s : State) (x : Ring) : (s.setRx x).dmem = s.dmem := rfl
@[simp] theorem setRx_txLine (s : State) (x : Ring) : (s.setRx x).txLine = s.txLine := rfl
@[simp] theorem setRx_calls (s : State) (x : Ring) : (s.setRx x).calls = s.calls := rfl
@[simp] theorem setRx_frames (s : State) (x : Ring) : (s.setRx x).frames = s.frames := rfl
@[simp] theorem setRx_arrivals (s : State) (x : Ring) : (s.setRx x).arrivals = s.arrivals := rfl
@[simp] theorem setRx_callbackPlan (s : State) (x : Ring) : (s.setRx x).callbackPlan = s.callbackPlan := rfl
@[simp] theorem setRx_draws (s : State) (x : Ring) : (s.setRx x).draws = s.draws := rfl

/-! ### `setTx` -/

@[simp] theorem setTx_out (s : State) (x : Ring) : (s.setTx x).out = s.out := rfl
@[simp] theorem setTx_sp (s : State) (x : Ring) : (s.setTx x).sp = s.sp := rfl
@[simp] theorem setTx_stream (s : State) (x : Ring) : (s.setTx x).stream = s.stream := rfl
@[simp] theorem setTx_tb (s : State) (x : Ring) : (s.setTx x).tb = s.tb := rfl
@[simp] theorem setTx_cvr (s : State) (x : Ring) : (s.setTx x).cvr = s.cvr := rfl
@[simp] theorem setTx_ilr (s : State) (x : Ring) : (s.setTx x).ilr = s.ilr := rfl
@[simp] theorem setTx_nvic (s : State) (x : Ring) : (s.setTx x).nvic = s.nvic := rfl
@[simp] theorem setTx_rx (s : State) (x : Ring) : (s.setTx x).rx = s.rx := rfl
@[simp] theorem setTx_tx (s : State) (x : Ring) : (s.setTx x).tx = x := rfl
@[simp] theorem setTx_bt (s : State) (x : Ring) : (s.setTx x).bt = s.bt := rfl
@[simp] theorem setTx_us (s : State) (x : Ring) : (s.setTx x).us = s.us := rfl
@[simp] theorem setTx_dmem (s : State) (x : Ring) : (s.setTx x).dmem = s.dmem := rfl
@[simp] theorem setTx_txLine (s : State) (x : Ring) : (s.setTx x).txLine = s.txLine := rfl
@[simp] theorem setTx_calls (s : State) (x : Ring) : (s.setTx x).calls = s.calls := rfl
@[simp] theorem setTx_frames (s : State) (x : Ring) : (s.setTx x).frames = s.frames := rfl
@[simp] theorem setTx_arrivals (s : State) (x : Ring) : (s.setTx x).arrivals = s.arrivals := rfl
@[simp] theorem setTx_callbackPlan (s : State) (x : Ring) : (s.setTx x).callbackPlan = s.callbackPlan := rfl
@[simp] theorem setTx_draws (s : State) (x : Ring) : (s.setTx x).draws = s.draws := rfl

/-! ### `setBt` -/

@[simp] theorem setBt_out (s : State) (x : Transport) : (s.setBt x).out = s.out := rfl
@[simp] theorem setBt_sp (s : State) (x : Transport) : (s.setBt x).sp = s.sp := rfl
@[simp] theorem setBt_stream (s : State) (x : Transport) : (s.setBt x).stream = s.stream := rfl
@[simp] theorem setBt_tb (s : State) (x : Transport) : (s.setBt x).tb = s.tb := rfl
@[simp] theorem setBt_cvr (s : State) (x : Transport) : (s.setBt x).cvr = s.cvr := rfl
@[simp] theorem setBt_ilr (s : State) (x : Transport) : (s.setBt x).ilr = s.ilr := rfl
@[simp] theorem setBt_nvic (s : State) (x : Transport) : (s.setBt x).nvic = s.nvic := rfl
@[simp] theorem setBt_rx (s : State) (x : Transport) : (s.setBt x).rx = s.rx := rfl
@[simp] theorem setBt_tx (s : State) (x : Transport) : (s.setBt x).tx = s.tx := rfl
@[simp] theorem setBt_bt (s : State) (x : Transport) : (s.setBt x).bt = x := rfl
@[simp] theorem setBt_us (s : State) (x : Transport) : (s.setBt x).us = s.us := rfl
@[simp] theorem setBt_dmem (s : State) (x : Transport) : (s.setBt x).dmem = s.dmem := rfl
@[simp] theorem setBt_txLine (s : State) (x : Transport) : (s.setBt x).txLine = s.txLine := rfl
@[simp] theorem setBt_calls (s : State) (x : Transport) : (s.setBt x).calls = s.calls := rfl
@[simp] theorem setBt_frames (s : State) (x : Transport) : (s.setBt x).frames = s.frames := rfl
@[simp] theorem setBt_arrivals (s : State) (x : Transport) : (s.setBt x).arrivals = s.arrivals := rfl
@[simp] theorem setBt_callbackPlan (s : State) (x : Transport) : (s.setBt x).callbackPlan = s.callbackPlan := rfl
@[simp] theorem setBt_draws (s : State) (x : Transport) : (s.setBt x).draws = s.draws := rfl

/-! ### `setUs` -/

@[simp] theorem setUs_out (s : State) (x : Usart) : (s.setUs x).out = s.out := rfl
@[simp] theorem setUs_sp (s : State) (x : Usart) : (s.setUs x).sp = s.sp := rfl
@[simp] theorem setUs_stream (s : State) (x : Usart) : (s.setUs x).stream = s.stream := rfl
@[simp] theorem setUs_tb (s : State) (x : Usart) : (s.setUs x).tb = s.tb := rfl
@[simp] theorem setUs_cvr (s : State) (x : Usart) : (s.setUs x).cvr = s.cvr := rfl
@[simp] theorem setUs_ilr (s : State) (x : Usart) : (s.setUs x).ilr = s.ilr := rfl
@[simp] theorem setUs_nvic (s : State) (x : Usart) : (s.setUs x).nvic = s.nvic := rfl
@[simp] theorem setUs_rx (s : State) (x : Usart) : (s.setUs x).rx = s.rx := rfl
@[simp] theorem setUs_tx (s : State) (x : Usart) : (s.setUs x).tx = s.tx := rfl
@[simp] theorem setUs_bt (s : State) (x : Usart) : (s.setUs x).bt = s.bt := rfl
@[simp] theorem setUs_us (s : State) (x : Usart) : (s.setUs x).us = x := rfl
@[simp] theorem setUs_dmem (s : State) (x : Usart) : (s.setUs x).dmem = s.dmem := rfl
@[simp] theorem setUs_txLine (s : State) (x : Usart) : (s.setUs x).txLine = s.txLine := rfl
@[simp] theorem setUs_calls (s : State) (x : Usart) : (s.setUs x).calls = s.calls := rfl
@[simp] theorem setUs_frames (s : State) (x : Usart) : (s.setUs x).frames = s.frames := rfl
@[simp] theorem setUs_arrivals (s : State) (x : Usart) : (s.setUs x).arrivals = s.arrivals := rfl
@[simp] theorem setUs_callbackPlan (s : State) (x : Usart) : (s.setUs x).callbackPlan = s.callbackPlan := rfl
@[simp] theorem setUs_draws (s : State) (x : Usart) : (s.setUs x).draws = s.draws := rfl

/-! ### `setDmem` -/

@[simp] theorem setDmem_out (s : State) (x : List Host.Cell) : (s.setDmem x).out = s.out := rfl
@[simp] theorem setDmem_sp (s : State) (x : List Host.Cell) : (s.setDmem x).sp = s.sp := rfl
@[simp] theorem setDmem_stream (s : State) (x : List Host.Cell) : (s.setDmem x).stream = s.stream := rfl
@[simp] theorem setDmem_tb (s : State) (x : List Host.Cell) : (s.setDmem x).tb = s.tb := rfl
@[simp] theorem setDmem_cvr (s : State) (x : List Host.Cell) : (s.setDmem x).cvr = s.cvr := rfl
@[simp] theorem setDmem_ilr (s : State) (x : List Host.Cell) : (s.setDmem x).ilr = s.ilr := rfl
@[simp] theorem setDmem_nvic (s : State) (x : List Host.Cell) : (s.setDmem x).nvic = s.nvic := rfl
@[simp] theorem setDmem_rx (s : State) (x : List Host.Cell) : (s.setDmem x).rx = s.rx := rfl
@[simp] theorem setDmem_tx (s : State) (x : List Host.Cell) : (s.setDmem x).tx = s.tx := rfl
@[simp] theorem setDmem_bt (s : State) (x : List Host.Cell) : (s.setDmem x).bt = s.bt := rfl
@[simp] theorem setDmem_us (s : State) (x : List Host.Cell) : (s.setDmem x).us = s.us := rfl
@[simp] theorem setDmem_dmem (s : State) (x : List Host.Cell) : (s.setDmem x).dmem = x := rfl
@[simp] theorem setDmem_txLine (s : State) (x : List Host.Cell) : (s.setDmem x).txLine = s.txLine := rfl
@[simp] theorem setDmem_calls (s : State) (x : List Host.Cell) : (s.setDmem x).calls = s.calls := rfl
@[simp] theorem setDmem_frames (s : State) (x : List Host.Cell) : (s.setDmem x).frames = s.frames := rfl
@[simp] theorem setDmem_arrivals (s : State) (x : List Host.Cell) : (s.setDmem x).arrivals = s.arrivals := rfl
@[simp] theorem setDmem_callbackPlan (s : State) (x : List Host.Cell) : (s.setDmem x).callbackPlan = s.callbackPlan := rfl
@[simp] theorem setDmem_draws (s : State) (x : List Host.Cell) : (s.setDmem x).draws = s.draws := rfl

/-! ### `setTxLine` -/

@[simp] theorem setTxLine_out (s : State) (x : List Byte) : (s.setTxLine x).out = s.out := rfl
@[simp] theorem setTxLine_sp (s : State) (x : List Byte) : (s.setTxLine x).sp = s.sp := rfl
@[simp] theorem setTxLine_stream (s : State) (x : List Byte) : (s.setTxLine x).stream = s.stream := rfl
@[simp] theorem setTxLine_tb (s : State) (x : List Byte) : (s.setTxLine x).tb = s.tb := rfl
@[simp] theorem setTxLine_cvr (s : State) (x : List Byte) : (s.setTxLine x).cvr = s.cvr := rfl
@[simp] theorem setTxLine_ilr (s : State) (x : List Byte) : (s.setTxLine x).ilr = s.ilr := rfl
@[simp] theorem setTxLine_nvic (s : State) (x : List Byte) : (s.setTxLine x).nvic = s.nvic := rfl
@[simp] theorem setTxLine_rx (s : State) (x : List Byte) : (s.setTxLine x).rx = s.rx := rfl
@[simp] theorem setTxLine_tx (s : State) (x : List Byte) : (s.setTxLine x).tx = s.tx := rfl
@[simp] theorem setTxLine_bt (s : State) (x : List Byte) : (s.setTxLine x).bt = s.bt := rfl
@[simp] theorem setTxLine_us (s : State) (x : List Byte) : (s.setTxLine x).us = s.us := rfl
@[simp] theorem setTxLine_dmem (s : State) (x : List Byte) : (s.setTxLine x).dmem = s.dmem := rfl
@[simp] theorem setTxLine_txLine (s : State) (x : List Byte) : (s.setTxLine x).txLine = x := rfl
@[simp] theorem setTxLine_calls (s : State) (x : List Byte) : (s.setTxLine x).calls = s.calls := rfl
@[simp] theorem setTxLine_frames (s : State) (x : List Byte) : (s.setTxLine x).frames = s.frames := rfl
@[simp] theorem setTxLine_arrivals (s : State) (x : List Byte) : (s.setTxLine x).arrivals = s.arrivals := rfl
@[simp] theorem setTxLine_callbackPlan (s : State) (x : List Byte) : (s.setTxLine x).callbackPlan = s.callbackPlan := rfl
@[simp] theorem setTxLine_draws (s : State) (x : List Byte) : (s.setTxLine x).draws = s.draws := rfl

/-! ### `setCalls` -/

@[simp] theorem setCalls_out (s : State) (x : List CallRecord) : (s.setCalls x).out = s.out := rfl
@[simp] theorem setCalls_sp (s : State) (x : List CallRecord) : (s.setCalls x).sp = s.sp := rfl
@[simp] theorem setCalls_stream (s : State) (x : List CallRecord) : (s.setCalls x).stream = s.stream := rfl
@[simp] theorem setCalls_tb (s : State) (x : List CallRecord) : (s.setCalls x).tb = s.tb := rfl
@[simp] theorem setCalls_cvr (s : State) (x : List CallRecord) : (s.setCalls x).cvr = s.cvr := rfl
@[simp] theorem setCalls_ilr (s : State) (x : List CallRecord) : (s.setCalls x).ilr = s.ilr := rfl
@[simp] theorem setCalls_nvic (s : State) (x : List CallRecord) : (s.setCalls x).nvic = s.nvic := rfl
@[simp] theorem setCalls_rx (s : State) (x : List CallRecord) : (s.setCalls x).rx = s.rx := rfl
@[simp] theorem setCalls_tx (s : State) (x : List CallRecord) : (s.setCalls x).tx = s.tx := rfl
@[simp] theorem setCalls_bt (s : State) (x : List CallRecord) : (s.setCalls x).bt = s.bt := rfl
@[simp] theorem setCalls_us (s : State) (x : List CallRecord) : (s.setCalls x).us = s.us := rfl
@[simp] theorem setCalls_dmem (s : State) (x : List CallRecord) : (s.setCalls x).dmem = s.dmem := rfl
@[simp] theorem setCalls_txLine (s : State) (x : List CallRecord) : (s.setCalls x).txLine = s.txLine := rfl
@[simp] theorem setCalls_calls (s : State) (x : List CallRecord) : (s.setCalls x).calls = x := rfl
@[simp] theorem setCalls_frames (s : State) (x : List CallRecord) : (s.setCalls x).frames = s.frames := rfl
@[simp] theorem setCalls_arrivals (s : State) (x : List CallRecord) : (s.setCalls x).arrivals = s.arrivals := rfl
@[simp] theorem setCalls_callbackPlan (s : State) (x : List CallRecord) : (s.setCalls x).callbackPlan = s.callbackPlan := rfl
@[simp] theorem setCalls_draws (s : State) (x : List CallRecord) : (s.setCalls x).draws = s.draws := rfl

/-! ### `setFrames` -/

@[simp] theorem setFrames_out (s : State) (x : List Frame) : (s.setFrames x).out = s.out := rfl
@[simp] theorem setFrames_sp (s : State) (x : List Frame) : (s.setFrames x).sp = s.sp := rfl
@[simp] theorem setFrames_stream (s : State) (x : List Frame) : (s.setFrames x).stream = s.stream := rfl
@[simp] theorem setFrames_tb (s : State) (x : List Frame) : (s.setFrames x).tb = s.tb := rfl
@[simp] theorem setFrames_cvr (s : State) (x : List Frame) : (s.setFrames x).cvr = s.cvr := rfl
@[simp] theorem setFrames_ilr (s : State) (x : List Frame) : (s.setFrames x).ilr = s.ilr := rfl
@[simp] theorem setFrames_nvic (s : State) (x : List Frame) : (s.setFrames x).nvic = s.nvic := rfl
@[simp] theorem setFrames_rx (s : State) (x : List Frame) : (s.setFrames x).rx = s.rx := rfl
@[simp] theorem setFrames_tx (s : State) (x : List Frame) : (s.setFrames x).tx = s.tx := rfl
@[simp] theorem setFrames_bt (s : State) (x : List Frame) : (s.setFrames x).bt = s.bt := rfl
@[simp] theorem setFrames_us (s : State) (x : List Frame) : (s.setFrames x).us = s.us := rfl
@[simp] theorem setFrames_dmem (s : State) (x : List Frame) : (s.setFrames x).dmem = s.dmem := rfl
@[simp] theorem setFrames_txLine (s : State) (x : List Frame) : (s.setFrames x).txLine = s.txLine := rfl
@[simp] theorem setFrames_calls (s : State) (x : List Frame) : (s.setFrames x).calls = s.calls := rfl
@[simp] theorem setFrames_frames (s : State) (x : List Frame) : (s.setFrames x).frames = x := rfl
@[simp] theorem setFrames_arrivals (s : State) (x : List Frame) : (s.setFrames x).arrivals = s.arrivals := rfl
@[simp] theorem setFrames_callbackPlan (s : State) (x : List Frame) : (s.setFrames x).callbackPlan = s.callbackPlan := rfl
@[simp] theorem setFrames_draws (s : State) (x : List Frame) : (s.setFrames x).draws = s.draws := rfl

/-! ### `setArrivals` -/

@[simp] theorem setArrivals_out (s : State) (x : List Arrival) : (s.setArrivals x).out = s.out := rfl
@[simp] theorem setArrivals_sp (s : State) (x : List Arrival) : (s.setArrivals x).sp = s.sp := rfl
@[simp] theorem setArrivals_stream (s : State) (x : List Arrival) : (s.setArrivals x).stream = s.stream := rfl
@[simp] theorem setArrivals_tb (s : State) (x : List Arrival) : (s.setArrivals x).tb = s.tb := rfl
@[simp] theorem setArrivals_cvr (s : State) (x : List Arrival) : (s.setArrivals x).cvr = s.cvr := rfl
@[simp] theorem setArrivals_ilr (s : State) (x : List Arrival) : (s.setArrivals x).ilr = s.ilr := rfl
@[simp] theorem setArrivals_nvic (s : State) (x : List Arrival) : (s.setArrivals x).nvic = s.nvic := rfl
@[simp] theorem setArrivals_rx (s : State) (x : List Arrival) : (s.setArrivals x).rx = s.rx := rfl
@[simp] theorem setArrivals_tx (s : State) (x : List Arrival) : (s.setArrivals x).tx = s.tx := rfl
@[simp] theorem setArrivals_bt (s : State) (x : List Arrival) : (s.setArrivals x).bt = s.bt := rfl
@[simp] theorem setArrivals_us (s : State) (x : List Arrival) : (s.setArrivals x).us = s.us := rfl
@[simp] theorem setArrivals_dmem (s : State) (x : List Arrival) : (s.setArrivals x).dmem = s.dmem := rfl
@[simp] theorem setArrivals_txLine (s : State) (x : List Arrival) : (s.setArrivals x).txLine = s.txLine := rfl
@[simp] theorem setArrivals_calls (s : State) (x : List Arrival) : (s.setArrivals x).calls = s.calls := rfl
@[simp] theorem setArrivals_frames (s : State) (x : List Arrival) : (s.setArrivals x).frames = s.frames := rfl
@[simp] theorem setArrivals_arrivals (s : State) (x : List Arrival) : (s.setArrivals x).arrivals = x := rfl
@[simp] theorem setArrivals_callbackPlan (s : State) (x : List Arrival) : (s.setArrivals x).callbackPlan = s.callbackPlan := rfl
@[simp] theorem setArrivals_draws (s : State) (x : List Arrival) : (s.setArrivals x).draws = s.draws := rfl

/-! ### `setCallbackPlan` -/

@[simp] theorem setCallbackPlan_out (s : State) (x : List (List Instr)) : (s.setCallbackPlan x).out = s.out := rfl
@[simp] theorem setCallbackPlan_sp (s : State) (x : List (List Instr)) : (s.setCallbackPlan x).sp = s.sp := rfl
@[simp] theorem setCallbackPlan_stream (s : State) (x : List (List Instr)) : (s.setCallbackPlan x).stream = s.stream := rfl
@[simp] theorem setCallbackPlan_tb (s : State) (x : List (List Instr)) : (s.setCallbackPlan x).tb = s.tb := rfl
@[simp] theorem setCallbackPlan_cvr (s : State) (x : List (List Instr)) : (s.setCallbackPlan x).cvr = s.cvr := rfl
@[simp] theorem setCallbackPlan_ilr (s : State) (x : List (List Instr)) : (s.setCallbackPlan x).ilr = s.ilr := rfl
@[simp] theorem setCallbackPlan_nvic (s : State) (x : List (List Instr)) : (s.setCallbackPlan x).nvic = s.nvic := rfl
@[simp] theorem setCallbackPlan_rx (s : State) (x : List (List Instr)) : (s.setCallbackPlan x).rx = s.rx := rfl
@[simp] theorem setCallbackPlan_tx (s : State) (x : List (List Instr)) : (s.setCallbackPlan x).tx = s.tx := rfl
@[simp] theorem setCallbackPlan_bt (s : State) (x : List (List Instr)) : (s.setCallbackPlan x).bt = s.bt := rfl
@[simp] theorem setCallbackPlan_us (s : State) (x : List (List Instr)) : (s.setCallbackPlan x).us = s.us := rfl
@[simp] theorem setCallbackPlan_dmem (s : State) (x : List (List Instr)) : (s.setCallbackPlan x).dmem = s.dmem := rfl
@[simp] theorem setCallbackPlan_txLine (s : State) (x : List (List Instr)) : (s.setCallbackPlan x).txLine = s.txLine := rfl
@[simp] theorem setCallbackPlan_calls (s : State) (x : List (List Instr)) : (s.setCallbackPlan x).calls = s.calls := rfl
@[simp] theorem setCallbackPlan_frames (s : State) (x : List (List Instr)) : (s.setCallbackPlan x).frames = s.frames := rfl
@[simp] theorem setCallbackPlan_arrivals (s : State) (x : List (List Instr)) : (s.setCallbackPlan x).arrivals = s.arrivals := rfl
@[simp] theorem setCallbackPlan_callbackPlan (s : State) (x : List (List Instr)) : (s.setCallbackPlan x).callbackPlan = x := rfl
@[simp] theorem setCallbackPlan_draws (s : State) (x : List (List Instr)) : (s.setCallbackPlan x).draws = s.draws := rfl

/-! ### `setDraws` -/

@[simp] theorem setDraws_out (s : State) (x : Nat) : (s.setDraws x).out = s.out := rfl
@[simp] theorem setDraws_sp (s : State) (x : Nat) : (s.setDraws x).sp = s.sp := rfl
@[simp] theorem setDraws_stream (s : State) (x : Nat) : (s.setDraws x).stream = s.stream := rfl
@[simp] theorem setDraws_tb (s : State) (x : Nat) : (s.setDraws x).tb = s.tb := rfl
@[simp] theorem setDraws_cvr (s : State) (x : Nat) : (s.setDraws x).cvr = s.cvr := rfl
@[simp] theorem setDraws_ilr (s : State) (x : Nat) : (s.setDraws x).ilr = s.ilr := rfl
@[simp] theorem setDraws_nvic (s : State) (x : Nat) : (s.setDraws x).nvic = s.nvic := rfl
@[simp] theorem setDraws_rx (s : State) (x : Nat) : (s.setDraws x).rx = s.rx := rfl
@[simp] theorem setDraws_tx (s : State) (x : Nat) : (s.setDraws x).tx = s.tx := rfl
@[simp] theorem setDraws_bt (s : State) (x : Nat) : (s.setDraws x).bt = s.bt := rfl
@[simp] theorem setDraws_us (s : State) (x : Nat) : (s.setDraws x).us = s.us := rfl
@[simp] theorem setDraws_dmem (s : State) (x : Nat) : (s.setDraws x).dmem = s.dmem := rfl
@[simp] theorem setDraws_txLine (s : State) (x : Nat) : (s.setDraws x).txLine = s.txLine := rfl
@[simp] theorem setDraws_calls (s : State) (x : Nat) : (s.setDraws x).calls = s.calls := rfl
@[simp] theorem setDraws_frames (s : State) (x : Nat) : (s.setDraws x).frames = s.frames := rfl
@[simp] theorem setDraws_arrivals (s : State) (x : Nat) : (s.setDraws x).arrivals = s.arrivals := rfl
@[simp] theorem setDraws_callbackPlan (s : State) (x : Nat) : (s.setDraws x).callbackPlan = s.callbackPlan := rfl
@[simp] theorem setDraws_draws (s : State) (x : Nat) : (s.setDraws x).draws = x := rfl

end Sys2Proof.Machine.State
end

