-- ==== Sys2Proof/Laws/Memory.lean ====
section
/-! SUPPORT. DMEM: reading after writing, and the canonical form that every write keeps. -/

namespace Sys2Proof.Machine.Memory

/-- A write leaves every other address alone. -/
theorem read_write_other (m : List Host.Cell) {a c : Nat} (b : Byte) (h : c ≠ a) : read (write m a b) c = read m c := by
  induction m with
  | nil =>
    unfold write
    split <;> simp [read, Ne.symm h]
  | cons kv rest ih =>
    obtain ⟨k, v⟩ := kv
    unfold write
    split
    · simp [read, ih]
    · split
      · subst k
        split <;> simp [read, Ne.symm h]
      · split <;> simp [read, Ne.symm h]

/-- In a canonical list nothing below its bound is listed. -/
theorem read_below {low a : Nat} {m : List Host.Cell} (h : wfFrom low m = true) (ha : a < low) :
    read m a = unlisted := by
  induction m generalizing low with
  | nil => rfl
  | cons kv rest ih =>
    obtain ⟨k, v⟩ := kv
    simp only [wfFrom, Bool.and_eq_true, decide_eq_true_eq] at h
    have hk : k ≠ a := by omega
    simp only [read, hk, if_false]
    exact ih h.2 (by omega)

/-- A write is read back. -/
theorem read_write_same {low a : Nat} {m : List Host.Cell} (h : wfFrom low m = true) (b : Byte) :
    read (write m a b) a = b := by
  induction m generalizing low with
  | nil =>
    unfold write
    split
    · next hb => simp [read, hb]
    · simp [read]
  | cons kv rest ih =>
    obtain ⟨k, v⟩ := kv
    simp only [wfFrom, Bool.and_eq_true, decide_eq_true_eq] at h
    unfold write
    split
    · next hk => simp [read, ih h.2, Nat.ne_of_lt hk]
    · split
      · next hk hka =>
        split
        · next hb => rw [hb]; exact read_below h.2 (by omega)
        · simp [read]
      · next hk hka =>
        split
        · next hb => simp only [read, hka, if_false, hb]; exact read_below h.2 (by omega)
        · simp [read]

/-- A smaller bound is a weaker condition. -/
theorem wfFrom_mono {low low' : Nat} {m : List Host.Cell} (h : wfFrom low' m = true) (hl : low ≤ low') :
    wfFrom low m = true := by
  cases m with
  | nil => rfl
  | cons kv rest =>
    obtain ⟨k, v⟩ := kv
    simp only [wfFrom, Bool.and_eq_true, decide_eq_true_eq] at h ⊢
    exact ⟨⟨⟨by omega, h.1.1.2⟩, h.1.2⟩, h.2⟩

theorem wfFrom_write {low a : Nat} {m : List Host.Cell} {b : Byte} (h : wfFrom low m = true) (hl : low ≤ a)
    (ha : a < 2 ^ 32) : wfFrom low (write m a b) = true := by
  induction m generalizing low with
  | nil =>
    unfold write
    split
    · rfl
    · simp only [wfFrom, Bool.and_eq_true, decide_eq_true_eq, bne_iff_ne, ne_eq]
      exact ⟨⟨⟨hl, ha⟩, ‹_›⟩, trivial⟩
  | cons kv rest ih =>
    obtain ⟨k, v⟩ := kv
    have h' := h
    simp only [wfFrom, Bool.and_eq_true, decide_eq_true_eq] at h
    unfold write
    split
    · next hk =>
      simp only [wfFrom, Bool.and_eq_true, decide_eq_true_eq]
      exact ⟨h.1, ih h.2 (by omega)⟩
    · split
      · next hk hka =>
        split
        · exact wfFrom_mono h.2 (by omega)
        · next hb =>
          simp only [wfFrom, Bool.and_eq_true, decide_eq_true_eq, bne_iff_ne, ne_eq]
          exact ⟨⟨⟨hl, ha⟩, hb⟩, hka ▸ h.2⟩
      · next hk hka =>
        split
        · exact h'
        · next hb =>
          simp only [wfFrom, Bool.and_eq_true, decide_eq_true_eq, bne_iff_ne, ne_eq]
          exact ⟨⟨⟨hl, ha⟩, hb⟩, ⟨⟨by omega, h.1.1.2⟩, by simpa using h.1.2⟩, h.2⟩

/-- Every write of a byte at a DMEM address keeps the canonical form. -/
theorem wf_write {m : List Host.Cell} (h : wf m = true) (a : Word) (b : Byte) : wf (write m a.toNat b) = true :=
  wfFrom_write h (Nat.zero_le _) a.isLt

end Sys2Proof.Machine.Memory

namespace Sys2Proof.Machine

theorem reset_dmem_wf : Memory.wf State.reset.dmem = true := rfl

@[simp] theorem memWrite_eq (s : State) (a : Word) (b : Byte) :
    s.memWrite a b = s.setDmem (Memory.write s.dmem a.toNat b) := rfl

/-- `MemWrite` then `MemRead` of the same address. -/
theorem memRead_memWrite_same {s : State} (h : Memory.wf s.dmem = true) (a : Word) (b : Byte) :
    (s.memWrite a b).memRead a = b := Memory.read_write_same h b

/-- `MemWrite` leaves every other address alone. -/
theorem memRead_memWrite_other (s : State) {a c : Word} (b : Byte) (h : c ≠ a) :
    (s.memWrite a b).memRead c = s.memRead c :=
  Memory.read_write_other _ b (fun e => h (BitVec.eq_of_toNat_eq e))

end Sys2Proof.Machine
end

