-- ==== Sys2Proof/Laws/Points.lean ====
section
/-! SUPPORT. What a preemption point can do, said once, and a predicate on the next state of a result. -/

namespace Sys2Proof.Machine

/-! ### Results -/

/-- Every next state of the result has the property; a fault or a refusal has none. -/
def Holds (P : State → Prop) : Result → Prop
  | .next t => P t
  | .fault _ => True
  | .refused _ => True

@[simp] theorem holds_next (P : State → Prop) (t : State) : Holds P (.next t) ↔ P t := Iff.rfl

@[simp] theorem holds_fault (P : State → Prop) (e : Fault) : Holds P (.fault e) := trivial

@[simp] theorem holds_refused (P : State → Prop) (e : Refusal) : Holds P (.refused e) := trivial

theorem holds_mono {P Q : State → Prop} {r : Result} (h : Holds P r) (hpq : ∀ t, P t → Q t) : Holds Q r := by
  cases r with
  | next t => exact hpq t h
  | fault _ => trivial
  | refused _ => trivial

/-- How a frame statement is read off: the result is known, so its next state has the property. -/
theorem holds_of_eq {P : State → Prop} {r : Result} {t : State} (h : Holds P r) (hr : r = .next t) : P t := by
  rw [hr] at h
  exact h

@[simp] theorem succeed_eq (s : State) (v : Word) : s.succeed v = .next (s.setOut { res := v, ok := true }) := rfl

@[simp] theorem fail_eq (s : State) : s.fail = .next (s.setOut { res := 0, ok := false }) := rfl

/-! ### Nothing arrives -/

@[simp] theorem arrivalWaiting_of_nil {s : State} (h : s.arrivals = []) : s.arrivalWaiting = false := by
  simp [State.arrivalWaiting, h]

@[simp] theorem passPoint_of_nil {s : State} (h : s.arrivals = []) : s.passPoint = s := by
  simp [State.passPoint, h]

/-- With nothing to arrive, a preemption point does nothing: the operation goes on. -/
theorem atPoint_quiet {s : State} (h : s.arrivals = []) (f : Frame) (go : State → Result) : atPoint f s go = go s := by
  simp [atPoint, h]

/-! ### Something arrives -/

/-- With an arrival waiting, the operation is suspended as its frame and nothing else changes. -/
theorem atPoint_waiting {s : State} {i : Instr} {later : List Arrival} (h : s.arrivals = .deliver i :: later)
    (f : Frame) (go : State → Result) : atPoint f s go = .next (s.suspend f) := by
  simp [atPoint, State.arrivalWaiting, h]

/-- Passing a point changes the arrivals alone. -/
theorem passPoint_eq (s : State) : s.passPoint = s.setArrivals s.passPoint.arrivals := by
  unfold State.passPoint
  split <;> rfl

theorem passPoint_cases (s : State) :
    s.passPoint = s ∨ ∃ later, s.arrivals = .pass :: later ∧ s.passPoint = s.setArrivals later := by
  unfold State.passPoint
  split
  · exact .inr ⟨_, ‹_›, rfl⟩
  · exact .inl rfl

/-- All a preemption point can do: suspend the operation, or let it go on with at most one arrival used up. -/
theorem atPoint_cases (f : Frame) (s : State) (go : State → Result) :
    (∃ i later, s.arrivals = .deliver i :: later ∧ atPoint f s go = .next (s.suspend f)) ∨
      (s.arrivalWaiting = false ∧ atPoint f s go = go (s.setArrivals s.passPoint.arrivals)) := by
  rw [← passPoint_eq]
  unfold atPoint State.arrivalWaiting
  split
  · exact .inl ⟨_, _, ‹_›, rfl⟩
  · exact .inr ⟨rfl, rfl⟩

/-- Passing a point uses up at most the first arrival. -/
theorem passPoint_arrivals_suffix (s : State) : s.passPoint.arrivals <:+ s.arrivals := by
  rcases passPoint_cases s with h | ⟨later, h, h'⟩
  · rw [h]
  · rw [h', h]
    exact List.suffix_cons _ _

/-- A property holds after a preemption point if it holds when the operation is suspended there and when it goes on. -/
theorem holds_atPoint {P : State → Prop} {f : Frame} {s : State} {go : State → Result}
    (hs : P (s.suspend f)) (hg : ∀ a, a <:+ s.arrivals → Holds P (go (s.setArrivals a))) : Holds P (atPoint f s go) := by
  rcases atPoint_cases f s go with ⟨_, _, _, h⟩ | ⟨_, h⟩
  · rw [h]; exact hs
  · rw [h]; exact hg _ (passPoint_arrivals_suffix s)

@[simp] theorem suspend_eq (s : State) (f : Frame) : s.suspend f = s.setFrames (f :: s.frames) := rfl

end Sys2Proof.Machine
end

