-- ==== Sys2Proof/Laws/Ring.lean ====
section
/-! SUPPORT. The rings: index arithmetic, the two predicates, and one specification each for push and pop in terms of the
live bytes (R31, R180 to R182). -/

namespace Sys2Proof.Machine.Ring

/-! ### Index arithmetic -/

/-- Reduction modulo `n` of a sum of two indices. -/
theorem mod_lt_twice {x n : Nat} (h : x < 2 * n) : x % n = if x < n then x else x - n := by
  split
  · next hx => exact Nat.mod_eq_of_lt hx
  · next hx => rw [Nat.mod_eq_sub_mod (by omega), Nat.mod_eq_of_lt (by omega)]

/-- The indices are in range and the ring has at least two cells. -/
structure InRange (r : Ring) : Prop where
  two_le : 2 ≤ r.size
  head_lt : r.head < r.size
  tail_lt : r.tail < r.size

theorem goodSize_two_le {n : Nat} (h : goodSize n = true) : 2 ≤ n := by
  simp only [goodSize, Bool.and_eq_true, decide_eq_true_eq] at h
  exact h.1

/-- What the ring invariant says. -/
theorem wf_iff (r : Ring) : r.wf = true ↔ goodSize r.size = true ∧ r.head < r.size ∧ r.tail < r.size ∧
    ∀ k < r.count, (r.cell ((r.tail + k) % r.size)).isSome = true := by
  simp only [wf, Bool.and_eq_true, decide_eq_true_eq, List.all_eq_true, List.mem_range, and_assoc]

theorem wf.inRange {r : Ring} (h : r.wf = true) : InRange r :=
  let h := (wf_iff r).1 h
  ⟨goodSize_two_le h.1, h.2.1, h.2.2.1⟩

theorem count_eq {r : Ring} (h : InRange r) :
    r.count = if r.tail ≤ r.head then r.head - r.tail else r.head + r.size - r.tail := by
  obtain ⟨_, _, _⟩ := h
  rw [count, mod_lt_twice (by omega)]
  split <;> split <;> omega

theorem nextIndex_eq {r : Ring} {x : Nat} (h : x < r.size) :
    r.nextIndex x = if x + 1 = r.size then 0 else x + 1 := by
  rw [nextIndex, mod_lt_twice (by omega)]
  split <;> split <;> omega

theorem nextIndex_lt {r : Ring} (h : InRange r) (x : Nat) : r.nextIndex x < r.size :=
  Nat.mod_lt _ (by have := h.two_le; omega)

theorem count_lt {r : Ring} (h : InRange r) : r.count < r.size := by
  have := h.two_le
  exact Nat.mod_lt _ (by omega)

/-! ### The two predicates -/

/-- Empty means that no byte is live. -/
theorem isEmpty_iff {r : Ring} (h : InRange r) : r.isEmpty = true ↔ r.count = 0 := by
  have := count_eq h
  obtain ⟨_, _, _⟩ := h
  simp only [isEmpty, beq_iff_eq]
  split at this <;> omega

/-- Full means that `N - 1` bytes are live. -/
theorem isFull_iff {r : Ring} (h : InRange r) : r.isFull = true ↔ r.count = r.size - 1 := by
  have hc := count_eq h
  have hn := nextIndex_eq h.head_lt
  obtain ⟨_, _, _⟩ := h
  simp only [isFull, beq_iff_eq]
  split at hc <;> split at hn <;> omega

/-- The cell the head points at is the one after the last live byte. -/
theorem head_eq {r : Ring} (h : InRange r) : r.head = (r.tail + r.count) % r.size := by
  have hc := count_eq h
  have hl := count_lt h
  obtain ⟨_, _, _⟩ := h
  rw [mod_lt_twice (by omega)]
  split at hc <;> split <;> omega

/-- No live byte lies where the head points. -/
theorem live_ne_head {r : Ring} (h : InRange r) {k : Nat} (hk : k < r.count) :
    (r.tail + k) % r.size ≠ r.head := by
  have hc := count_eq h
  have hl := count_lt h
  obtain ⟨_, _, _⟩ := h
  rw [mod_lt_twice (by omega)]
  split at hc <;> split <;> omega

/-! ### The live bytes -/

/-- A list built from cells that all hold a byte has one byte for each. -/
theorem length_filterMap_range {f : Nat → Option Byte} {n : Nat} (h : ∀ k < n, (f k).isSome = true) :
    ((List.range n).filterMap f).length = n := by
  induction n with
  | zero => rfl
  | succ n ih =>
    rw [List.range_succ, List.filterMap_append, List.length_append, ih (fun k hk => h k (by omega))]
    obtain ⟨b, hb⟩ := Option.isSome_iff_exists.1 (h n (by omega))
    simp [hb]

theorem length_contents {r : Ring} (h : r.wf = true) : r.contents.length = r.count :=
  length_filterMap_range ((wf_iff r).1 h).2.2.2

theorem contents_eq_nil {r : Ring} (h : r.count = 0) : r.contents = [] := by
  simp [contents, h]

/-! ### Push -/

theorem push_eq_none {r : Ring} {b : Byte} : r.push b = none ↔ r.isFull = true := by
  unfold push
  split <;> simp_all

/-- A push that stores changes the storage and the head alone. -/
theorem push_eq_some {r r' : Ring} {b : Byte} (h : r.push b = some r') :
    r.isFull = false ∧ r' = { r with buf := r.buf.set r.head (some b), head := r.nextIndex r.head } := by
  unfold push at h
  split at h
  · cases h
  · next hf => exact ⟨by simpa using hf, (Option.some.inj h).symm⟩

theorem push_size {r r' : Ring} {b : Byte} (h : r.push b = some r') : r'.size = r.size := by
  rw [(push_eq_some h).2]
  simp [size]

theorem push_tail {r r' : Ring} {b : Byte} (h : r.push b = some r') : r'.tail = r.tail := by
  rw [(push_eq_some h).2]

theorem push_drop {r r' : Ring} {b : Byte} (h : r.push b = some r') : r'.drop = r.drop := by
  rw [(push_eq_some h).2]

theorem push_inRange {r r' : Ring} {b : Byte} (hr : InRange r) (h : r.push b = some r') : InRange r' := by
  refine ⟨?_, ?_, ?_⟩ <;> rw [push_size h]
  · exact hr.two_le
  · rw [(push_eq_some h).2]; exact nextIndex_lt hr _
  · rw [push_tail h]; exact hr.tail_lt

theorem push_count {r r' : Ring} {b : Byte} (hr : InRange r) (h : r.push b = some r') : r'.count = r.count + 1 := by
  have hc := count_eq hr
  have hc' := count_eq (push_inRange hr h)
  have hf := (push_eq_some h).1
  have hfull := isFull_iff hr
  have hl := count_lt hr
  have hh : r'.head = r.nextIndex r.head := by rw [(push_eq_some h).2]
  rw [push_size h, push_tail h, hh, nextIndex_eq hr.head_lt] at hc'
  have hnf : r.count ≠ r.size - 1 := fun e => by rw [hfull.2 e] at hf; cases hf
  obtain ⟨_, _, _⟩ := hr
  split at hc <;> (split at hc' <;> split at hc' <;> omega)

theorem push_cell {r r' : Ring} {b : Byte} (hr : InRange r) (h : r.push b = some r') (i : Nat) :
    r'.cell i = if i = r.head then some b else r.cell i := by
  rw [(push_eq_some h).2]
  have := hr.head_lt
  simp only [size] at this
  simp only [cell, List.getD_eq_getElem?_getD, List.getElem?_set]
  split
  · next e => subst e; simp
  · next e => simp [Ne.symm e]

/-- A push appends its byte to the live bytes. -/
theorem push_contents {r r' : Ring} {b : Byte} (hr : InRange r) (h : r.push b = some r') :
    r'.contents = r.contents ++ [b] := by
  simp only [contents]
  rw [push_count hr h, push_tail h, push_size h, List.range_succ, List.filterMap_append]
  congr 1
  · apply List.filterMap_congr
    intro k hk
    rw [push_cell hr h, if_neg (live_ne_head hr (List.mem_range.1 hk))]
  · simp [push_cell hr h, ← head_eq hr]

theorem push_wf {r r' : Ring} {b : Byte} (hr : r.wf = true) (h : r.push b = some r') : r'.wf = true := by
  have hir := wf.inRange hr
  have hir' := push_inRange hir h
  refine (wf_iff r').2 ⟨?_, hir'.head_lt, hir'.tail_lt, fun k hk => ?_⟩
  · rw [push_size h]; exact ((wf_iff r).1 hr).1
  · rw [push_count hir h] at hk
    rw [push_size h, push_tail h, push_cell hir h]
    split
    · rfl
    · next hne =>
      refine ((wf_iff r).1 hr).2.2.2 k ?_
      rcases Nat.lt_or_eq_of_le (Nat.le_of_lt_succ hk) with hk | hk
      · exact hk
      · exact absurd (by rw [hk]; exact (head_eq hir).symm) hne

/-! ### Pop -/

theorem pop_eq_empty {r : Ring} : r.pop = .empty ↔ r.isEmpty = true := by
  unfold pop
  split
  · simp_all
  · split <;> simp_all

/-- A pop that answers a byte changes the tail alone. -/
theorem pop_eq_byte {r r' : Ring} {b : Byte} (h : r.pop = .byte b r') :
    r.isEmpty = false ∧ r.cell r.tail = some b ∧ r' = { r with tail := r.nextIndex r.tail } := by
  unfold pop at h
  split at h
  · cases h
  · next he =>
    split at h
    · next hb =>
      cases h
      exact ⟨by simpa using he, hb, rfl⟩
    · cases h

/-- In a ring that meets its invariant a pop never reads an unwritten cell. -/
theorem pop_ne_unwritten {r : Ring} (h : r.wf = true) : r.pop ≠ .unwritten := by
  have hir := wf.inRange h
  unfold pop
  split
  · simp
  · next he =>
    have hc : 0 < r.count := by
      have := isEmpty_iff hir
      by_contra hz
      exact he (this.2 (by omega))
    have hs := ((wf_iff r).1 h).2.2.2 0 hc
    rw [Nat.add_zero, Nat.mod_eq_of_lt hir.tail_lt] at hs
    obtain ⟨b, hb⟩ := Option.isSome_iff_exists.1 hs
    simp [hb]

theorem pop_size {r r' : Ring} {b : Byte} (h : r.pop = .byte b r') : r'.size = r.size := by
  rw [(pop_eq_byte h).2.2]
  rfl

theorem pop_head {r r' : Ring} {b : Byte} (h : r.pop = .byte b r') : r'.head = r.head := by
  rw [(pop_eq_byte h).2.2]

theorem pop_buf {r r' : Ring} {b : Byte} (h : r.pop = .byte b r') : r'.buf = r.buf := by
  rw [(pop_eq_byte h).2.2]

theorem pop_drop {r r' : Ring} {b : Byte} (h : r.pop = .byte b r') : r'.drop = r.drop := by
  rw [(pop_eq_byte h).2.2]

theorem pop_cell {r r' : Ring} {b : Byte} (h : r.pop = .byte b r') (i : Nat) : r'.cell i = r.cell i := by
  rw [cell, pop_buf h]
  rfl

theorem pop_inRange {r r' : Ring} {b : Byte} (hr : InRange r) (h : r.pop = .byte b r') : InRange r' := by
  refine ⟨?_, ?_, ?_⟩ <;> rw [pop_size h]
  · exact hr.two_le
  · rw [pop_head h]; exact hr.head_lt
  · rw [(pop_eq_byte h).2.2]; exact nextIndex_lt hr _

theorem pop_count {r r' : Ring} {b : Byte} (hr : InRange r) (h : r.pop = .byte b r') : r.count = r'.count + 1 := by
  have hc := count_eq hr
  have hc' := count_eq (pop_inRange hr h)
  have he := (pop_eq_byte h).1
  have hempty := isEmpty_iff hr
  have ht : r'.tail = r.nextIndex r.tail := by rw [(pop_eq_byte h).2.2]
  rw [pop_size h, pop_head h, ht, nextIndex_eq hr.tail_lt] at hc'
  have hne : r.count ≠ 0 := fun e => by rw [hempty.2 e] at he; cases he
  obtain ⟨_, _, _⟩ := hr
  split at hc <;> (split at hc' <;> split at hc' <;> omega)

theorem pop_index {r r' : Ring} {b : Byte} (hr : InRange r) (h : r.pop = .byte b r') {k : Nat} (hk : k < r'.count) :
    (r'.tail + k) % r'.size = (r.tail + (k + 1)) % r.size := by
  have hc := pop_count hr h
  have hl := count_lt hr
  have ht : r'.tail = r.nextIndex r.tail := by rw [(pop_eq_byte h).2.2]
  rw [pop_size h, ht, nextIndex_eq hr.tail_lt]
  obtain ⟨_, _, _⟩ := hr
  split
  · rw [mod_lt_twice (by omega), mod_lt_twice (by omega)]
    split <;> split <;> omega
  · congr 1; omega

/-- A pop answers the oldest live byte and leaves the others. -/
theorem pop_contents {r r' : Ring} {b : Byte} (hr : InRange r) (h : r.pop = .byte b r') :
    r.contents = b :: r'.contents := by
  simp only [contents]
  rw [pop_count hr h, List.range_succ_eq_map, List.filterMap_cons, Nat.add_zero, Nat.mod_eq_of_lt hr.tail_lt,
    (pop_eq_byte h).2.1, List.filterMap_map]
  simp only [List.cons.injEq, true_and]
  apply List.filterMap_congr
  intro k hk
  rw [Function.comp_apply, pop_index hr h (List.mem_range.1 hk), pop_cell h]

theorem pop_wf {r r' : Ring} {b : Byte} (hr : r.wf = true) (h : r.pop = .byte b r') : r'.wf = true := by
  have hir := wf.inRange hr
  have hir' := pop_inRange hir h
  refine (wf_iff r').2 ⟨?_, hir'.head_lt, hir'.tail_lt, fun k hk => ?_⟩
  · rw [pop_size h]; exact ((wf_iff r).1 hr).1
  · rw [pop_index hir h hk, pop_cell h]
    exact ((wf_iff r).1 hr).2.2.2 (k + 1) (by rw [pop_count hir h]; omega)

/-! ### Drop counts and initialisation -/

/-- The drop count plays no part in the invariant. -/
theorem wf_withDrop (r : Ring) (d : Word) : ({ r with drop := d } : Ring).wf = r.wf := rfl

theorem contents_withDrop (r : Ring) (d : Word) : ({ r with drop := d } : Ring).contents = r.contents := rfl

theorem emptied_wf {r : Ring} (h : goodSize r.size = true) : r.emptied.wf = true := by
  have h2 := goodSize_two_le h
  refine (wf_iff _).2 ⟨h, ?_, ?_, ?_⟩
  · show 0 < r.size
    omega
  · show 0 < r.size
    omega
  · intro k hk
    have : r.emptied.count = 0 := by
      show (0 + (r.size - 0)) % r.size = 0
      simp
    omega

theorem emptied_contents (r : Ring) : r.emptied.contents = [] := by
  have : r.emptied.count = 0 := by
    show (0 + (r.size - 0)) % r.size = 0
    simp
  exact contents_eq_nil this

theorem ofSize_wf {n : Nat} (h : goodSize n = true) : (ofSize n).wf = true := by
  have hs : (ofSize n).size = n := by simp [ofSize, size]
  have := emptied_wf (r := ofSize n) (by rw [hs]; exact h)
  exact this

end Sys2Proof.Machine.Ring
end

