-- ==== Sys2Proof/Laws/TimeBase.lean ====
section
/-! SUPPORT. What `NOW_MICROS` can do, said once, and the arithmetic of the Time Base. -/

namespace Sys2Proof.Machine

/-! ### Arithmetic -/

@[simp] theorem elapsed_toNat (now start : Word) :
    (elapsed now start).toNat = (now.toNat + (2 ^ 32 - start.toNat)) % 2 ^ 32 := by
  rw [elapsed, BitVec.toNat_sub]
  congr 1
  omega

theorem usPerSecond_eq : Config.usPerSecond = 1000000 := rfl

theorem usPerMilli_eq : Config.usPerMilli = 1000 := rfl

theorem millisOf_toNat (t periodUs : Word) :
    (millisOf t periodUs).toNat = t.toNat * periodUs.toNat / 1000 % 2 ^ 32 := by
  rw [millisOf, trunc32_toNat, usPerMilli_eq]

theorem microsOf_toNat (tb : TimeBase) (t1 : Word) (c : BitVec 24) :
    (microsOf tb t1 c).toNat = (t1.toNat * tb.periodUs.toNat +
      (tb.load.toNat - c.toNat) * 1000000 / tb.clockHz.toNat) % 2 ^ 32 := by
  rw [microsOf, trunc32_toNat, microsWithinTick, usPerSecond_eq]

theorem tickMicros_toNat (tb : TimeBase) :
    (tickMicros tb).toNat = tb.tickCount.toNat * tb.periodUs.toNat % 2 ^ 32 := by
  rw [tickMicros, trunc32_toNat]

theorem cyclesPerTick_eq (clockHz periodUs : Word) :
    cyclesPerTick clockHz periodUs = clockHz.toNat * periodUs.toNat / 1000000 := by
  rw [cyclesPerTick, usPerSecond_eq]

/-- What the argument test of `TB_INIT` says. -/
theorem timerFits_iff (clockHz periodUs : Word) : timerFits clockHz periodUs = true ↔
    clockHz ≠ 0 ∧ periodUs ≠ 0 ∧ cyclesPerTick clockHz periodUs ≠ 0 ∧
      cyclesPerTick clockHz periodUs - 1 ≤ Config.maxReload := by
  simp only [timerFits, Bool.and_eq_true, bne_iff_ne, ne_eq, decide_eq_true_eq, and_assoc]

/-- A reload value that fits is stored exactly (R120). -/
theorem reload_toNat {c : Nat} (h : c - 1 ≤ Config.maxReload) : (BitVec.ofNat 24 (c - 1)).toNat = c - 1 := by
  simp only [Config.maxReload] at h
  simp only [BitVec.toNat_ofNat]
  omega

/-! ### The vectors' attributes -/

theorem vectorIndex_inj {v w : VecId} (h : vectorIndex v = vectorIndex w) : v = w := by
  cases v <;> cases w <;> first | rfl | exact absurd h (by decide)

@[simp] theorem vectorAttr_setVector_same (s : State) (v : VecId) (x : VectorAttr) :
    (s.setVector v x).vectorAttr v = x := by
  simp [State.vectorAttr, State.setVector]

theorem vectorAttr_setVector_other (s : State) {v w : VecId} (x : VectorAttr) (h : w ≠ v) :
    (s.setVector v x).vectorAttr w = s.vectorAttr w := by
  have hne : (vectorIndex v).val ≠ (vectorIndex w).val := fun e => h (vectorIndex_inj (Fin.ext e)).symm
  simp [State.vectorAttr, State.setVector, hne]

theorem setVector_eq (s : State) (v : VecId) (x : VectorAttr) :
    s.setVector v x = s.setNvic (s.nvic.set (vectorIndex v) x) := rfl

@[simp] theorem vectorAttr_setOut (s : State) (x : Results) (v : VecId) : (s.setOut x).vectorAttr v = s.vectorAttr v := rfl

/-! ### `NOW_MICROS` -/

/-- A rule for everything that `NOW_MICROS` can do. `Q` is kept while points are passed; `P` is wanted of every next state,
a suspension with fewer than `limit` further attempts left, or the end of the command. -/
structure MicrosRule (limit : Nat) (Q P : State → Prop) : Prop where
  pass : ∀ s a, Q s → a <:+ s.arrivals → Q (s.setArrivals a)
  haveT1 : ∀ s left, Q s → left < limit →
    P (s.setFrames (.nowMicros left (.haveT1 s.tb.tickCount) :: s.frames))
  haveCvr : ∀ s left t1, Q s → left < limit → s.cvr ≤ s.tb.load →
    P (s.setFrames (.nowMicros left (.haveCvr t1 s.cvr) :: s.frames))
  mismatch : ∀ s left, Q s → left < limit → P (s.setFrames (.nowMicros left .mismatch :: s.frames))
  done : ∀ s v, Q s → P (s.setOut { res := v, ok := true })

variable {limit : Nat} {Q P : State → Prop}

theorem MicrosRule.secondRead (R : MicrosRule limit Q P) {left : Nat} (hl : left < limit)
    {again : State → Result} (ha : ∀ s, Q s → Holds P (again s)) (t1 : Word) (c : BitVec 24) (s : State) (h : Q s) :
    Holds P (microsSecondRead left t1 c again s) := by
  unfold microsSecondRead
  split
  · exact R.done s _ h
  · exact holds_atPoint (R.mismatch s left h hl) (fun a ha' => ha _ (R.pass s a h ha'))

theorem MicrosRule.sample (R : MicrosRule limit Q P) {left : Nat} (hl : left < limit)
    {again : State → Result} (ha : ∀ s, Q s → Holds P (again s)) (t1 : Word) (s : State) (h : Q s) :
    Holds P (microsSample left t1 again s) := by
  unfold microsSample
  split
  · trivial
  · next hc =>
    exact holds_atPoint (R.haveCvr s left t1 h hl (BitVec.not_lt.1 hc))
      (fun a ha' => R.secondRead hl ha t1 s.cvr _ (R.pass s a h ha'))

theorem MicrosRule.attempts (R : MicrosRule limit Q P) {n : Nat} (hn : n ≤ limit) (s : State) (h : Q s) :
    Holds P (microsAttempts n s) := by
  induction n generalizing s with
  | zero => exact R.done s _ h
  | succ left ih =>
    exact holds_atPoint (R.haveT1 s left h (by omega))
      (fun a ha' => R.sample (by omega) (fun s hs => ih (by omega) s hs) _ _ (R.pass s a h ha'))

theorem MicrosRule.exec (R : MicrosRule Config.microsAttempts Q P) (s : State) (h : Q s) : Holds P (execNowMicros s) := by
  unfold execNowMicros
  split
  · exact R.attempts (Nat.le_refl _) s h
  · exact R.done s _ h

/-- The same from a suspension. The samples it holds are admissible, so a suspension at the same point is too. -/
theorem MicrosRule.resume (R : MicrosRule limit Q P) {left : Nat} (hl : left < limit) (point : MicrosPoint)
    (s : State) (h : Q s) (again : P (s.setFrames (.nowMicros left point :: s.frames))) :
    Holds P (resumeNowMicros left point s) := by
  have ha : ∀ s, Q s → Holds P (microsAttempts left s) := fun s hs => R.attempts (by omega) s hs
  cases point with
  | haveT1 t1 => exact holds_atPoint again (fun a ha' => R.sample hl ha t1 _ (R.pass s a h ha'))
  | haveCvr t1 c => exact holds_atPoint again (fun a ha' => R.secondRead hl ha t1 c _ (R.pass s a h ha'))
  | mismatch => exact holds_atPoint again (fun a ha' => ha _ (R.pass s a h ha'))

end Sys2Proof.Machine
end

