-- ==== Sys2Proof/Laws/ByteTransport.lean ====
section
/-! SUPPORT. What `BT_WRITE`, `BT_READ` and `USART_IRQ` can do, said once each. -/

namespace Sys2Proof.Machine

/-! ### `BT_INIT` -/

/-- What a successful `BT_INIT` does to the state (R184). -/
theorem transportStarted_eq (s : State) (prio : Byte) (d : Nat) :
    transportStarted s prio d =
      { s with rx := s.rx.emptied, tx := s.tx.emptied
               bt := { errOre := 0, errFe := 0, errNf := 0, errPe := 0, init := true }
               us := s.us.started d, nvic := s.nvic.set (vectorIndex .serial) { en := true, prio := prio } } := by
  simp only [transportStarted, setVector_eq]
  rfl

@[simp] theorem transportStarted_out (s : State) (prio : Byte) (d : Nat) :
    (transportStarted s prio d).out = s.out := by
  simp only [transportStarted, State.setVector, State.setNvic_out, State.setUs_out, State.setBt_out, State.setTx_out,
    State.setRx_out]

@[simp] theorem transportStarted_sp (s : State) (prio : Byte) (d : Nat) :
    (transportStarted s prio d).sp = s.sp := by
  simp only [transportStarted, State.setVector, State.setNvic_sp, State.setUs_sp, State.setBt_sp, State.setTx_sp,
    State.setRx_sp]

@[simp] theorem transportStarted_stream (s : State) (prio : Byte) (d : Nat) :
    (transportStarted s prio d).stream = s.stream := by
  simp only [transportStarted, State.setVector, State.setNvic_stream, State.setUs_stream, State.setBt_stream, State.setTx_stream,
    State.setRx_stream]

@[simp] theorem transportStarted_tb (s : State) (prio : Byte) (d : Nat) :
    (transportStarted s prio d).tb = s.tb := by
  simp only [transportStarted, State.setVector, State.setNvic_tb, State.setUs_tb, State.setBt_tb, State.setTx_tb,
    State.setRx_tb]

@[simp] theorem transportStarted_cvr (s : State) (prio : Byte) (d : Nat) :
    (transportStarted s prio d).cvr = s.cvr := by
  simp only [transportStarted, State.setVector, State.setNvic_cvr, State.setUs_cvr, State.setBt_cvr, State.setTx_cvr,
    State.setRx_cvr]

@[simp] theorem transportStarted_ilr (s : State) (prio : Byte) (d : Nat) :
    (transportStarted s prio d).ilr = s.ilr := by
  simp only [transportStarted, State.setVector, State.setNvic_ilr, State.setUs_ilr, State.setBt_ilr, State.setTx_ilr,
    State.setRx_ilr]

@[simp] theorem transportStarted_dmem (s : State) (prio : Byte) (d : Nat) :
    (transportStarted s prio d).dmem = s.dmem := by
  simp only [transportStarted, State.setVector, State.setNvic_dmem, State.setUs_dmem, State.setBt_dmem, State.setTx_dmem,
    State.setRx_dmem]

@[simp] theorem transportStarted_txLine (s : State) (prio : Byte) (d : Nat) :
    (transportStarted s prio d).txLine = s.txLine := by
  simp only [transportStarted, State.setVector, State.setNvic_txLine, State.setUs_txLine, State.setBt_txLine, State.setTx_txLine,
    State.setRx_txLine]

@[simp] theorem transportStarted_calls (s : State) (prio : Byte) (d : Nat) :
    (transportStarted s prio d).calls = s.calls := by
  simp only [transportStarted, State.setVector, State.setNvic_calls, State.setUs_calls, State.setBt_calls, State.setTx_calls,
    State.setRx_calls]

@[simp] theorem transportStarted_frames (s : State) (prio : Byte) (d : Nat) :
    (transportStarted s prio d).frames = s.frames := by
  simp only [transportStarted, State.setVector, State.setNvic_frames, State.setUs_frames, State.setBt_frames, State.setTx_frames,
    State.setRx_frames]

@[simp] theorem transportStarted_arrivals (s : State) (prio : Byte) (d : Nat) :
    (transportStarted s prio d).arrivals = s.arrivals := by
  simp only [transportStarted, State.setVector, State.setNvic_arrivals, State.setUs_arrivals, State.setBt_arrivals, State.setTx_arrivals,
    State.setRx_arrivals]

@[simp] theorem transportStarted_callbackPlan (s : State) (prio : Byte) (d : Nat) :
    (transportStarted s prio d).callbackPlan = s.callbackPlan := by
  simp only [transportStarted, State.setVector, State.setNvic_callbackPlan, State.setUs_callbackPlan, State.setBt_callbackPlan, State.setTx_callbackPlan,
    State.setRx_callbackPlan]

@[simp] theorem transportStarted_draws (s : State) (prio : Byte) (d : Nat) :
    (transportStarted s prio d).draws = s.draws := by
  simp only [transportStarted, State.setVector, State.setNvic_draws, State.setUs_draws, State.setBt_draws, State.setTx_draws,
    State.setRx_draws]

@[simp] theorem transportStarted_rx (s : State) (prio : Byte) (d : Nat) :
    (transportStarted s prio d).rx = s.rx.emptied := by
  simp only [transportStarted, State.setVector, State.setNvic_rx, State.setUs_rx, State.setBt_rx, State.setTx_rx, State.setRx_rx]

@[simp] theorem transportStarted_tx (s : State) (prio : Byte) (d : Nat) :
    (transportStarted s prio d).tx = s.tx.emptied := by
  simp only [transportStarted, State.setVector, State.setNvic_tx, State.setUs_tx, State.setBt_tx, State.setTx_tx]

@[simp] theorem transportStarted_us (s : State) (prio : Byte) (d : Nat) :
    (transportStarted s prio d).us = s.us.started d := by
  simp only [transportStarted, State.setVector, State.setNvic_us, State.setUs_us]

@[simp] theorem transportStarted_bt (s : State) (prio : Byte) (d : Nat) :
    (transportStarted s prio d).bt = { errOre := 0, errFe := 0, errNf := 0, errPe := 0, init := true } := by
  simp only [transportStarted, State.setVector, State.setNvic_bt, State.setUs_bt, State.setBt_bt]

theorem transportStarted_vectorAttr (s : State) (prio : Byte) (d : Nat) (v : VecId) :
    (transportStarted s prio d).vectorAttr v = if v = .serial then { en := true, prio := prio } else s.vectorAttr v := by
  unfold transportStarted
  split
  · next h => rw [h, vectorAttr_setVector_same]
  · next h =>
    rw [vectorAttr_setVector_other _ _ h]
    simp only [State.vectorAttr, State.setUs_nvic, State.setBt_nvic, State.setTx_nvic, State.setRx_nvic]

/-! ### `BT_WRITE` -/

/-- A rule for everything that `BT_WRITE data, length` can do. `Q i` is kept with `i` bytes stored while more are tried; `A i`
holds once the bytes are over, with `i` of them stored and the rest counted; `P` is wanted of every next state, a suspension
or the end of the command. -/
structure WriteRule (data length : Word) (Q A : Nat → State → Prop) (P : State → Prop) : Prop where
  pass : ∀ i s a, Q i s → a <:+ s.arrivals → Q i (s.setArrivals a)
  passArm : ∀ i s a, A i s → a <:+ s.arrivals → A i (s.setArrivals a)
  store : ∀ i s tx, Q i s → i < length.toNat → s.tx.push (s.memRead (transferAddress data i)) = some tx →
    Q (i + 1) (s.setTx tx)
  drop : ∀ i s, Q i s → i < length.toNat → s.tx.isFull = true →
    A i (s.setTx (s.tx.addDrop (trunc32 (length.toNat - i))))
  all : ∀ s, Q length.toNat s → A length.toNat s
  beforeByte : ∀ i s, Q i s → i < length.toNat → P (s.setFrames (.btWrite data length (.beforeByte i i) :: s.frames))
  beforeArm : ∀ i s, A i s → i ≤ length.toNat → P (s.setFrames (.btWrite data length (.beforeArm i) :: s.frames))
  done : ∀ i s, A i s → i ≤ length.toNat →
    P ((if i = 0 then s else s.setUs { s.us with txeie := true }).setOut { res := trunc32 i, ok := true })

theorem WriteRule.arm {data length : Word} {Q A : Nat → State → Prop} {P : State → Prop} (R : WriteRule data length Q A P)
    {i : Nat} (hi : i ≤ length.toNat) (s : State) (h : A i s) : Holds P (writeArm data length i s) :=
  holds_atPoint (R.beforeArm i s h hi) (fun a ha => R.done i _ (R.passArm i s a h ha) hi)

theorem WriteRule.bytes {data length : Word} {Q A : Nat → State → Prop} {P : State → Prop}
    (R : WriteRule data length Q A P) {left i : Nat} (hi : left + i = length.toNat) (s : State) (h : Q i s) :
    Holds P (writeBytes data length left i i s) := by
  induction left generalizing i s with
  | zero =>
    have hl : i = length.toNat := by omega
    subst hl
    exact R.arm (Nat.le_refl _) s (R.all s h)
  | succ left ih =>
    refine holds_atPoint (R.beforeByte i s h (by omega)) (fun a ha => ?_)
    have hq := R.pass i s a h ha
    show Holds P (match Ring.push _ _ with | some tx => _ | none => _)
    split
    · next tx hp => exact ih (by omega) _ (R.store i _ tx hq (by omega) hp)
    · next hp => exact R.arm (by omega) _ (R.drop i _ hq (by omega) (Ring.push_eq_none.1 hp))

theorem WriteRule.exec {data length : Word} {Q A : Nat → State → Prop} {P : State → Prop}
    (R : WriteRule data length Q A P) {s : State} (h : Q 0 s) (nothing : P (s.setOut { res := 0, ok := true })) :
    Holds P (execBtWrite data length s) := by
  unfold execBtWrite
  split
  · split
    · exact nothing
    · exact R.bytes rfl s h
  · trivial

/-- The same from a suspension before a byte, with every byte so far stored. -/
theorem WriteRule.resumeByte {data length : Word} {Q A : Nat → State → Prop} {P : State → Prop}
    (R : WriteRule data length Q A P) {i : Nat} (hi : i ≤ length.toNat) {s : State} (h : Q i s) :
    Holds P (resumeBtWrite data length (.beforeByte i i) s) := R.bytes (Nat.sub_add_cancel hi) s h

/-- A rule for everything that `BT_WRITE` can do from any suspension, whatever its local state: `Q` is kept as TX takes or
refuses bytes, `P` is wanted of every next state. -/
structure WriteFrameRule (data length : Word) (Q P : State → Prop) : Prop where
  pass : ∀ s a, Q s → a <:+ s.arrivals → Q (s.setArrivals a)
  store : ∀ s b tx, Q s → s.tx.push b = some tx → Q (s.setTx tx)
  drop : ∀ s n, Q s → Q (s.setTx (s.tx.addDrop n))
  suspended : ∀ s point, Q s → P (s.setFrames (.btWrite data length point :: s.frames))
  idle : ∀ s v, Q s → P (s.setOut { res := v, ok := true })
  armed : ∀ s v, Q s → P ((s.setUs { s.us with txeie := true }).setOut { res := v, ok := true })

theorem WriteFrameRule.arm {data length : Word} {Q P : State → Prop} (R : WriteFrameRule data length Q P) (accepted : Nat)
    (s : State) (h : Q s) : Holds P (writeArm data length accepted s) := by
  refine holds_atPoint (R.suspended s _ h) (fun a ha => ?_)
  unfold writeFinish
  split
  · exact R.idle _ _ (R.pass s a h ha)
  · exact R.armed _ _ (R.pass s a h ha)

theorem WriteFrameRule.bytes {data length : Word} {Q P : State → Prop} (R : WriteFrameRule data length Q P)
    (left i accepted : Nat) (s : State) (h : Q s) : Holds P (writeBytes data length left i accepted s) := by
  induction left generalizing i accepted s with
  | zero => exact R.arm accepted s h
  | succ left ih =>
    refine holds_atPoint (R.suspended s _ h) (fun a ha => ?_)
    have hq := R.pass s a h ha
    show Holds P (match Ring.push _ _ with | some tx => _ | none => _)
    split
    · next tx hp => exact ih _ _ _ (R.store _ _ tx hq hp)
    · exact R.arm accepted _ (R.drop _ _ hq)

theorem WriteFrameRule.resume {data length : Word} {Q P : State → Prop} (R : WriteFrameRule data length Q P)
    (point : WritePoint) {s : State} (h : Q s) : Holds P (resumeBtWrite data length point s) := by
  cases point with
  | beforeByte i accepted => exact R.bytes _ _ _ s h
  | beforeArm accepted => exact R.arm _ s h

/-! ### `BT_READ` -/

/-- A rule for everything that `BT_READ output, maxLength` can do, `Q n` being kept with `n` bytes copied. -/
structure ReadRule (output maxLength : Word) (Q : Nat → State → Prop) (P : State → Prop) : Prop where
  pass : ∀ n s a, Q n s → a <:+ s.arrivals → Q n (s.setArrivals a)
  copy : ∀ n s b rx, Q n s → n < maxLength.toNat → s.rx.pop = .byte b rx →
    Q (n + 1) ((s.setRx rx).memWrite (transferAddress output n) b)
  beforeByte : ∀ n s, Q n s → n < maxLength.toNat → P (s.setFrames (.btRead output maxLength n :: s.frames))
  done : ∀ n s, Q n s → n ≤ maxLength.toNat → P (s.setOut { res := trunc32 n, ok := true })

theorem ReadRule.bytes {output maxLength : Word} {Q : Nat → State → Prop} {P : State → Prop}
    (R : ReadRule output maxLength Q P) {left n : Nat} (hn : left + n = maxLength.toNat) (s : State) (h : Q n s) :
    Holds P (readBytes output maxLength left n s) := by
  induction left generalizing n s with
  | zero => exact R.done n s h (by omega)
  | succ left ih =>
    refine holds_atPoint (R.beforeByte n s h (by omega)) (fun a ha => ?_)
    have hq := R.pass n s a h ha
    show Holds P (match Ring.pop _ with | .empty => _ | .byte b rx => _ | .unwritten => _)
    split
    · exact R.done n _ hq (by omega)
    · next b rx hp => exact ih (by omega) _ (R.copy n _ b rx hq (by omega) hp)
    · trivial

theorem ReadRule.exec {output maxLength : Word} {Q : Nat → State → Prop} {P : State → Prop}
    (R : ReadRule output maxLength Q P) {s : State} (h : Q 0 s) (nothing : P (s.setOut { res := 0, ok := true })) :
    Holds P (execBtRead output maxLength s) := by
  unfold execBtRead
  split
  · split
    · exact nothing
    · exact R.bytes rfl s h
  · trivial

/-- The same from a suspension; past the end there is nothing left to copy. -/
theorem ReadRule.resume {output maxLength : Word} {Q : Nat → State → Prop} {P : State → Prop}
    (R : ReadRule output maxLength Q P) {n : Nat} {s : State} (h : Q n s)
    (past : maxLength.toNat < n → P (s.setOut { res := trunc32 n, ok := true })) :
    Holds P (resumeBtRead output maxLength n s) := by
  unfold resumeBtRead
  by_cases hn : n ≤ maxLength.toNat
  · exact R.bytes (Nat.sub_add_cancel hn) s h
  · rw [Nat.sub_eq_zero_of_le (by omega)]
    exact past (by omega)

/-! ### `USART_IRQ` -/

@[simp] theorem counted_init (t : Transport) (u : Usart) : (t.counted u).init = t.init := rfl

@[simp] theorem errorsDropped_wf (r : Ring) (u : Usart) : (r.errorsDropped u).wf = r.wf := rfl

@[simp] theorem errorsDropped_contents (r : Ring) (u : Usart) : (r.errorsDropped u).contents = r.contents := rfl

/-- Everything reception can do: nothing; an error counted and acknowledged; a byte read and queued; a byte read and
dropped because RX is full (R188, R189). -/
theorem inboundStep_cases (u : Usart) (s : State) :
    (u.anyError = true ∧ inboundStep u s =
        ((s.setBt (s.bt.counted u)).setRx (s.rx.errorsDropped u)).setUs s.us.acknowledged) ∨
    (u.anyError = false ∧ u.rxne = true ∧ ∃ rx, s.rx.push s.us.rdr = some rx ∧
        inboundStep u s = (s.setUs s.us.dataRead).setRx rx) ∨
    (u.anyError = false ∧ u.rxne = true ∧ s.rx.isFull = true ∧
        inboundStep u s = (s.setUs s.us.dataRead).setRx (s.rx.addDrop 1)) ∨
    (u.anyError = false ∧ u.rxne = false ∧ inboundStep u s = s) := by
  unfold inboundStep
  split
  · next h => exact .inl ⟨h, rfl⟩
  · next h =>
    have h : u.anyError = false := by simpa using h
    split
    · next hr =>
      unfold receiveStep
      split
      · next rx hp => exact .inr (.inl ⟨h, hr, rx, hp, rfl⟩)
      · next hp => exact .inr (.inr (.inl ⟨h, hr, Ring.push_eq_none.1 hp, rfl⟩))
    · next hr => exact .inr (.inr (.inr ⟨h, by simpa using hr, rfl⟩))

/-- Reception never touches the transmit-interrupt, the transmit flag, the TX ring or the traces. -/
theorem inboundStep_keeps (u : Usart) (s : State) :
    (inboundStep u s).us.txeie = s.us.txeie ∧ (inboundStep u s).us.txe = s.us.txe ∧ (inboundStep u s).tx = s.tx ∧
      (inboundStep u s).txLine = s.txLine := by
  rcases inboundStep_cases u s with ⟨_, h⟩ | ⟨_, _, _, _, h⟩ | ⟨_, _, _, h⟩ | ⟨_, _, h⟩ <;> rw [h] <;>
    exact ⟨rfl, rfl, rfl, rfl⟩

/-- Everything transmission can do: nothing; the transmit-interrupt turned off because TX is empty; one byte sent; a fault
on an unwritten cell (R188). -/
theorem transmitStep_cases (u : Usart) (s : State) :
    ((u.txe && s.us.txeie) = false ∧ transmitStep u s = .next s) ∨
    (u.txe = true ∧ s.us.txeie = true ∧ s.tx.isEmpty = true ∧
        transmitStep u s = .next (s.setUs { s.us with txeie := false })) ∨
    (u.txe = true ∧ s.us.txeie = true ∧ ∃ b tx, s.tx.pop = .byte b tx ∧
        transmitStep u s = .next (((s.setTx tx).setUs (s.us.dataWritten b)).setTxLine (s.txLine ++ [b]))) ∨
    (s.tx.pop = .unwritten ∧ transmitStep u s = .fault .unwrittenRingCell) := by
  unfold transmitStep
  split
  · next h =>
    obtain ⟨h1, h2⟩ := Bool.and_eq_true_iff.1 h
    split
    · next hp => exact .inr (.inl ⟨h1, h2, Ring.pop_eq_empty.1 hp, rfl⟩)
    · next b tx hp => exact .inr (.inr (.inl ⟨h1, h2, b, tx, hp, rfl⟩))
    · next hp => exact .inr (.inr (.inr ⟨hp, rfl⟩))
  · next h => exact .inl ⟨by simpa using h, rfl⟩

/-- A rule for everything that `USART_IRQ` can do. `Q` holds after reception, `P` after transmission. -/
structure UsartRule (s : State) (Q P : State → Prop) : Prop where
  errors : s.us.anyError = true →
    Q (((s.setBt (s.bt.counted s.us)).setRx (s.rx.errorsDropped s.us)).setUs s.us.acknowledged)
  queued : ∀ rx, s.us.anyError = false → s.us.rxne = true → s.rx.push s.us.rdr = some rx →
    Q ((s.setUs s.us.dataRead).setRx rx)
  dropped : s.us.anyError = false → s.us.rxne = true → s.rx.isFull = true →
    Q ((s.setUs s.us.dataRead).setRx (s.rx.addDrop 1))
  nothing : s.us.anyError = false → s.us.rxne = false → Q s
  quiet : ∀ s, Q s → P s
  disarmed : ∀ s, Q s → s.us.txeie = true → s.tx.isEmpty = true → P (s.setUs { s.us with txeie := false })
  sent : ∀ s b tx, Q s → s.us.txeie = true → s.tx.pop = .byte b tx →
    P (((s.setTx tx).setUs (s.us.dataWritten b)).setTxLine (s.txLine ++ [b]))

theorem UsartRule.exec {s : State} {Q P : State → Prop} (R : UsartRule s Q P) : Holds P (execUsartIrq s) := by
  have hq : Q (inboundStep s.us s) := by
    rcases inboundStep_cases s.us s with ⟨h1, h⟩ | ⟨h1, h2, rx, h3, h⟩ | ⟨h1, h2, h3, h⟩ | ⟨h1, h2, h⟩ <;> rw [h]
    · exact R.errors h1
    · exact R.queued rx h1 h2 h3
    · exact R.dropped h1 h2 h3
    · exact R.nothing h1 h2
  show Holds P (transmitStep s.us (inboundStep s.us s))
  rcases transmitStep_cases s.us (inboundStep s.us s) with ⟨_, h⟩ | ⟨_, h1, h2, h⟩ | ⟨_, h1, b, tx, h2, h⟩ | ⟨_, h⟩ <;> rw [h]
  · exact R.quiet _ hq
  · exact R.disarmed _ hq h1 h2
  · exact R.sent _ b tx hq h1 h2
  · trivial

/-! ### The divisor -/

theorem baudDivisor_zero (pclkHz : Nat) : baudDivisor pclkHz 0 = 0 := rfl

end Sys2Proof.Machine
end

