-- ==== Sys2Proof/Laws/LineRouter.lean ====
section
/-! SUPPORT. The pending flags, the line table, and what `DISPATCH` can do, said once. -/

namespace Sys2Proof.Machine

/-! ### Pending flags -/

/-- A written flag reads as written. -/
@[simp] theorem pendBit_withPendBit_same (p : BitVec 16) (l : LineNo) (b : Bool) : pendBit (withPendBit p l b) l = b := by
  have := l.isLt
  cases b <;> simp [pendBit, withPendBit, this]

/-- Writing one flag leaves the other fifteen unchanged. -/
theorem pendBit_withPendBit_other (p : BitVec 16) {l k : LineNo} (b : Bool) (h : k ≠ l) :
    pendBit (withPendBit p l b) k = pendBit p k := by
  have hk := k.isLt
  have hl := l.isLt
  have hne : k.val ≠ l.val := fun e => h (Fin.ext e)
  cases b <;> simp [pendBit, withPendBit, hk] <;> omega

/-- Two pending-flags words with the same flags are the same word. -/
theorem pend_ext {p q : BitVec 16} (h : ∀ l, pendBit p l = pendBit q l) : p = q :=
  BitVec.eq_of_getLsbD_eq (fun i hi => h ⟨i, hi⟩)

theorem setPend_eq (s : State) (l : LineNo) (b : Bool) :
    s.setPend l b = s.setIlr { s.ilr with pend := withPendBit s.ilr.pend l b } := rfl

/-! ### Line numbers and ranges -/

theorem lineOperand?_eq_some {b : Byte} (h : b.toNat < 16) : lineOperand? b = some ⟨b.toNat, h⟩ := by
  simp [lineOperand?, h]

theorem lineOperand?_of_eq {b : Byte} {l : LineNo} (h : b.toNat = l.val) : lineOperand? b = some l := by
  rw [lineOperand?_eq_some (h ▸ l.isLt)]
  exact congrArg some (Fin.ext h)

theorem lineOperand?_val {b : Byte} {l : LineNo} (h : lineOperand? b = some l) : l.val = b.toNat := by
  unfold lineOperand? at h
  split at h
  · cases h; rfl
  · cases h

theorem lineOperand?_eq_none {b : Byte} (h : 16 ≤ b.toNat) : lineOperand? b = none := by
  simp [lineOperand?, Nat.not_lt.2 h]

@[simp] theorem mem_lineRange (first last l : LineNo) : l ∈ lineRange first last ↔ first ≤ l ∧ l ≤ last := by
  simp [lineRange]

theorem nodup_lineRange (first last : LineNo) : (lineRange first last).Nodup := (List.nodup_finRange 16).filter _

/-! ### The two stores of a registration -/

/-- The callback and the valid bit of one entry are written, its argument and the other entries kept. -/
@[simp] theorem storeCallback_table (s : State) (l k : LineNo) (cb : Word) :
    (storeCallback s l cb).ilr.table[(k : Nat)] =
      if k = l then { s.ilr.table[(k : Nat)] with valid := true, cb := cb } else s.ilr.table[(k : Nat)] := by
  simp only [storeCallback, State.setIlr_ilr, Fin.getElem_fin, Vector.getElem_set, Fin.val_inj, eq_comm (a := l)]
  split <;> simp_all

/-- The argument of one entry is written, its callback and the other entries kept. -/
@[simp] theorem storeArgument_table (s : State) (l k : LineNo) (arg : Word) :
    (storeArgument s l arg).ilr.table[(k : Nat)] =
      if k = l then { s.ilr.table[(k : Nat)] with arg := arg } else s.ilr.table[(k : Nat)] := by
  simp only [storeArgument, State.setIlr_ilr, Fin.getElem_fin, Vector.getElem_set, Fin.val_inj, eq_comm (a := l)]
  split <;> simp_all

@[simp] theorem storeTable_callback (s : State) (l : LineNo) (cb : Word) :
    storeTable s l (.callback cb) = storeCallback s l cb := rfl

@[simp] theorem storeTable_argument (s : State) (l : LineNo) (arg : Word) :
    storeTable s l (.argument arg) = storeArgument s l arg := rfl

/-- The attributes of one line are written, those of the others kept. -/
@[simp] theorem setLineAttr_attr (s : State) (l k : LineNo) (a : LineAttr) :
    (s.setLineAttr l a).ilr.attr[(k : Nat)] = if k = l then a else s.ilr.attr[(k : Nat)] := by
  simp only [State.setLineAttr, State.setIlr_ilr, Vector.getElem_set, Fin.val_inj, eq_comm (a := l)]

/-- A table store changes the line table alone. -/
theorem storeTable_eq (s : State) (l : LineNo) (x : TableStore) :
    storeTable s l x = s.setIlr { s.ilr with table := (storeTable s l x).ilr.table } := by
  cases x <;> rfl

/-- Everything `ILR_REGISTER` can do: fail; be suspended between its two stores, in either order; succeed after both. -/
theorem holds_ilrRegister {P : State → Prop} {line : Byte} {callback arg : Word} {s : State}
    (failed : P (s.setOut { res := 0, ok := false }))
    (suspended : ∀ l x y, l.val = line.toNat → callback ≠ 0 → (x, y) ∈ [(.callback callback, .argument arg), (.argument arg, .callback callback)] →
      P ((storeTable (s.drawn 1) l x).setFrames (.ilrRegister l y :: s.frames)))
    (done : ∀ l x y a, l.val = line.toNat → callback ≠ 0 → a <:+ s.arrivals → (x, y) ∈ [(.callback callback, .argument arg), (.argument arg, .callback callback)] →
      P ((storeTable ((storeTable (s.drawn 1) l x).setArrivals a) l y).setOut { res := 1, ok := true })) :
    Holds P (execIlrRegister line callback arg s) := by
  unfold execIlrRegister
  split
  · exact failed
  · next l hl =>
    have hl := lineOperand?_val hl
    split
    · trivial
    · next hc =>
      split
      · exact holds_atPoint (suspended l _ _ hl hc (by simp)) (fun a ha => done l (.argument arg) _ a hl hc ha (by simp))
      · exact holds_atPoint (suspended l _ _ hl hc (by simp))
          (fun a ha => done l (.callback callback) _ a hl hc ha (by simp))

/-- Everything a suspended `ILR_REGISTER` can do: be suspended again; succeed after its second store. -/
theorem holds_registerSecond {P : State → Prop} {l : LineNo} {second : TableStore} {s : State}
    (again : P (s.setFrames (.ilrRegister l second :: s.frames)))
    (done : ∀ a, a <:+ s.arrivals → P ((storeTable (s.setArrivals a) l second).setOut { res := 1, ok := true })) :
    Holds P (registerSecond l second s) := holds_atPoint again done

/-! ### The dispatcher -/

/-- A rule for everything that the handler of `v` with snapshot `snap` can do when it has the lines `due` to acknowledge,
as far as the snapshot holds them. `Q` is kept while lines are serviced; `P` is wanted of every next state, a suspension or
the handler's return. -/
structure DispatchRule (v : VecId) (snap : BitVec 16) (due : List LineNo) (Q P : State → Prop) : Prop where
  pass : ∀ s a, Q s → a <:+ s.arrivals → Q (s.setArrivals a)
  acknowledge : ∀ s l, Q s → l ∈ due → pendBit snap l = true → Q (s.setPend l false)
  invoke : ∀ s l, Q s → s.ilr.table[l].valid = true →
    Q ((emitCall s l).setCallbackPlan s.callbackPlan.tail)
  suspended : ∀ s l rest point, Q s → P (s.setFrames (.dispatch v snap l rest point :: s.frames))
  returned : ∀ s, Q s → P s

variable {v : VecId} {snap : BitVec 16} {due : List LineNo} {Q P : State → Prop}

theorem DispatchRule.callback (R : DispatchRule v snap due Q P) (l : LineNo) (rest : List LineNo)
    (commands : List Instr) {next : State → Result} (hn : ∀ s, Q s → Holds P (next s)) (s : State) (h : Q s) :
    Holds P (runCallback v snap l rest commands next s) := by
  cases commands with
  | nil => exact holds_atPoint (R.suspended s l rest _ h) (fun a ha => hn _ (R.pass s a h ha))
  | cons c cs => exact R.suspended s l rest _ h

theorem DispatchRule.invokeLine (R : DispatchRule v snap due Q P) (l : LineNo) (rest : List LineNo)
    {next : State → Result} (hn : ∀ s, Q s → Holds P (next s)) (s : State) (h : Q s) :
    Holds P (invokeLine v snap l rest next s) := by
  unfold Sys2Proof.Machine.invokeLine
  split
  · next hv => exact R.callback l rest _ hn _ (R.invoke s l h hv)
  · exact hn s h

theorem DispatchRule.serviceLine (R : DispatchRule v snap due Q P) {l : LineNo} (hl : l ∈ due) (rest : List LineNo)
    {next : State → Result} (hn : ∀ s, Q s → Holds P (next s)) (s : State) (h : Q s) :
    Holds P (serviceLine v snap l rest next s) := by
  unfold Sys2Proof.Machine.serviceLine
  split
  · next hb =>
    have hq := R.acknowledge s l h hl hb
    exact holds_atPoint (R.suspended _ l rest _ hq) (fun a ha => R.invokeLine l rest hn _ (R.pass _ a hq ha))
  · exact hn s h

theorem DispatchRule.lines (R : DispatchRule v snap due Q P) (ls : List LineNo) (hl : ∀ k ∈ ls, k ∈ due) (s : State)
    (h : Q s) : Holds P (dispatchLines v snap ls s) := by
  induction ls generalizing s with
  | nil => exact R.returned s h
  | cons l rest ih =>
    have hn := ih (fun k hk => hl k (List.mem_cons_of_mem _ hk))
    exact holds_atPoint (R.suspended s l rest _ h)
      (fun a ha => R.serviceLine (hl l List.mem_cons_self) rest hn _ (R.pass s a h ha))

theorem DispatchRule.run {s : State} {first last : LineNo}
    (R : DispatchRule v s.ilr.pend (lineRange first last) Q P) (h : Q s) :
    Holds P (runDispatch v first last s) := R.lines _ (fun _ hk => hk) s h

/-- The same from a suspension. The line it stands at is still to be acknowledged only where it stands before it. -/
theorem DispatchRule.resume (R : DispatchRule v snap due Q P) {l : LineNo} {rest : List LineNo} {point : DispatchPoint}
    (hr : ∀ k ∈ rest, k ∈ due) (hl : point = .beforeLine → l ∈ due) (s : State) (h : Q s) :
    Holds P (resumeDispatch v snap l rest point s) := by
  have hn : ∀ s, Q s → Holds P (dispatchLines v snap rest s) := R.lines rest hr
  cases point with
  | beforeLine =>
    exact holds_atPoint (R.suspended s l rest _ h) (fun a ha => R.serviceLine (hl rfl) rest hn _ (R.pass s a h ha))
  | acknowledged => exact holds_atPoint (R.suspended s l rest _ h) (fun a ha => R.invokeLine l rest hn _ (R.pass s a h ha))
  | inCallback commands => exact R.callback l rest commands hn s h

end Sys2Proof.Machine
end

