-- ==== Sys2Proof/Laws/InFlight.lean ====
section
/-! SUPPORT. A preemption point at which nothing is delivered, and what an operation that goes on from a suspension can do. -/

namespace Sys2Proof.Machine

/-! ### Nothing is delivered -/

theorem undisturbed_of_nil {s : State} (h : s.arrivals = []) : s.undisturbed := by
  intro i later e
  rw [h] at e
  cases e

theorem arrivalWaiting_of_undisturbed {s : State} (h : s.undisturbed) : s.arrivalWaiting = false := by
  unfold State.arrivalWaiting
  split
  · exact absurd ‹_› (h _ _)
  · rfl

theorem passPoint_of_undisturbed {s : State} (h : s.undisturbed) : s.passPoint = { s with arrivals := s.arrivals.tail } := by
  unfold State.passPoint
  split
  · next later e => rw [e]; rfl
  · next hp =>
    cases e : s.arrivals with
    | nil => rw [List.tail_nil, ← e]
    | cons a later =>
      cases a with
      | pass => exact absurd e (hp later)
      | deliver i => exact absurd e (h i later)

/-- Where nothing is delivered the operation goes on, the point used up. -/
theorem atPoint_undisturbed {s : State} (h : s.undisturbed) (f : Frame) (go : State → Result) :
    atPoint f s go = go { s with arrivals := s.arrivals.tail } := by
  simp [atPoint, arrivalWaiting_of_undisturbed h, passPoint_of_undisturbed h]

/-! ### Going on -/

/-- A handler inside a callback with a command left runs that command over itself (R153). -/
theorem resume_issued (v : VecId) (snap : BitVec 16) (l : LineNo) (rest : List LineNo) (c : Instr) (cs : List Instr)
    (s : State) : resume (.dispatch v snap l rest (.inCallback (c :: cs))) s =
      if c.port = .cmd then exec c (s.passPoint.suspend (.dispatch v snap l rest (.inCallback cs)))
      else .refused .notACommand := rfl

/-- A handler with no command left to issue goes on through its lines. -/
theorem resume_dispatch {v : VecId} {snap : BitVec 16} {l : LineNo} {rest : List LineNo} {point : DispatchPoint}
    (h : (Frame.dispatch v snap l rest point).issued? = none) (s : State) :
    resume (.dispatch v snap l rest point) s = resumeDispatch v snap l rest point s := by
  cases point with
  | beforeLine | acknowledged => rfl
  | inCallback commands =>
    cases commands with
    | nil => rfl
    | cons c cs => cases h

/-- What is wanted of every run of an operation: shown where it is entered and at each kind of suspension. -/
theorem holds_runs {P : Instr → State → State → Prop}
    (entered : ∀ i s, Holds (P i s) (exec i s))
    (micros : ∀ left point s, Holds (P .nowMicros s) (resumeNowMicros left point s))
    (register : ∀ l second line callback arg s, line.toNat = l.val →
      Holds (P (.ilrRegister line callback arg) s) (registerSecond l second s))
    (write : ∀ data length point s, Holds (P (.btWrite data length) s) (resumeBtWrite data length point s))
    (read : ∀ output maxLength n s, Holds (P (.btRead output maxLength) s) (resumeBtRead output maxLength n s))
    (dispatch : ∀ i v snap l rest point s, handlerVector? i = some v → i ≠ .tickIrq → i ≠ .usartIrq →
      Holds (P i s) (resumeDispatch v snap l rest point s))
    {i : Instr} {s t : State} (h : s.runs i t) : P i s t := by
  rcases h with h | ⟨f, hf, hn, h⟩
  · exact holds_of_eq (entered i s) h
  · cases f with
    | nowMicros left point => cases hf; exact holds_of_eq (micros left point s) h
    | ilrRegister l second =>
      obtain ⟨line, callback, arg, hl, rfl⟩ := hf
      exact holds_of_eq (register l second line callback arg s hl) h
    | btWrite data length point => cases hf; exact holds_of_eq (write data length point s) h
    | btRead output maxLength n => cases hf; exact holds_of_eq (read output maxLength n s) h
    | dispatch v snap l rest point =>
      rw [resume_dispatch hn] at h
      exact holds_of_eq (dispatch i v snap l rest point s hf.1 hf.2.1 hf.2.2) h

end Sys2Proof.Machine
end

