-- ==== Sys2Proof/Laws/Invariant.lean ====
section
/-! SUPPORT. The small steps of an argument about the invariant: what a suspended operation's well-formedness depends on,
what pushing and popping one does, and which fields the invariant reads. -/

namespace Sys2Proof.Machine

/-- A suspended operation's well-formedness depends on the Time Base and on the transport's initialisation alone. -/
theorem Frame.wf_congr (f : Frame) {s t : State} (tb : t.tb = s.tb) (bt : t.bt.init = s.bt.init) : f.wf t = f.wf s := by
  cases f with
  | nowMicros _ point => cases point <;> simp [Frame.wf, tb]
  | ilrRegister _ second => cases second <;> rfl
  | btWrite _ _ point => cases point <;> simp [Frame.wf, bt]
  | btRead _ _ _ => simp [Frame.wf, bt]
  | dispatch _ _ _ _ _ => rfl

/-- The operations in flight stay well formed where the Time Base and the transport's initialisation are kept. -/
theorem framesWf_congr {s t : State} (h : s.FramesWf) (frames : t.frames = s.frames) (tb : t.tb = s.tb)
    (bt : t.bt.init = s.bt.init) : t.FramesWf := by
  unfold State.FramesWf State.activeVectors
  rw [frames]
  exact ⟨fun f hf => (f.wf_congr tb bt).trans (h.1 f hf), h.2⟩

/-- The invariant reads ten fields only: a state that agrees on them meets it too. -/
theorem inv_congr {s t : State} (h : s.Inv) (dmem : t.dmem = s.dmem) (rx : t.rx = s.rx) (tx : t.tx = s.tx)
    (tb : t.tb = s.tb) (table : t.ilr.table = s.ilr.table) (bt : t.bt = s.bt) (us : t.us = s.us)
    (frames : t.frames = s.frames) (sp : t.sp = s.sp) (stream : t.stream = s.stream) : t.Inv where
  memory := by rw [dmem]; exact h.memory
  rings := by unfold State.RingsWf; rw [rx, tx]; exact h.rings
  timer := by unfold State.TimerWf; rw [tb]; exact h.timer
  table := by unfold State.TableWf; rw [table]; exact h.table
  dormant := by unfold State.DormantWf; rw [rx, tx, bt, us]; exact h.dormant
  armed := by unfold State.ArmedWf; rw [tx, us, frames]; exact h.armed
  frames := framesWf_congr h.frames frames tb (by rw [bt])
  position := by unfold State.PositionWf; rw [sp, stream]; exact h.position

/-- A command may be suspended where no command stands on top. -/
theorem framesWf_pushCommand {s : State} (h : s.FramesWf) (top : ∀ g below, s.frames = g :: below → g.isCommand = false)
    {f : Frame} (hf : f.wf s = true) (hv : f.vector? = none) : (s.setFrames (f :: s.frames)).FramesWf := by
  obtain ⟨h1, h2, h3⟩ := h
  refine ⟨fun g hg => ?_, ?_, ?_⟩
  · refine (g.wf_congr (s := s) rfl rfl).trans ?_
    rcases List.mem_cons.1 hg with rfl | hg
    · exact hf
    · exact h1 g hg
  · simp only [State.setFrames_frames]
    cases hs : s.frames with
    | nil => rfl
    | cons g below =>
      rw [hs] at h2
      simp [stacked, top g below hs, h2]
  · simpa only [State.activeVectors, State.setFrames_frames, List.filterMap_cons, hv] using h3

/-- A handler may be suspended where its vector is not active. -/
theorem framesWf_pushHandler {s : State} (h : s.FramesWf) {v : VecId} (hn : v ∉ s.activeVectors)
    (hv : VecId.ofLines v = true) (snap : BitVec 16) (l : LineNo) (rest : List LineNo) (point : DispatchPoint) :
    (s.setFrames (.dispatch v snap l rest point :: s.frames)).FramesWf := by
  obtain ⟨h1, h2, h3⟩ := h
  refine ⟨fun g hg => ?_, ?_, ?_⟩
  · refine (g.wf_congr (s := s) rfl rfl).trans ?_
    rcases List.mem_cons.1 hg with rfl | hg
    · exact hv
    · exact h1 g hg
  · simp only [State.setFrames_frames]
    cases hs : s.frames with
    | nil => rfl
    | cons g below =>
      rw [hs] at h2
      simp [stacked, Frame.isCommand, Frame.vector?, h2]
  · simp only [State.activeVectors, State.setFrames_frames, List.filterMap_cons, Frame.vector?]
    exact List.nodup_cons.2 ⟨hn, h3⟩

/-- What is known when the running operation is taken off the stack: the rest is well formed, a command did not stand on a
command, a handler's vector is no longer active, and the operation itself is well formed. -/
theorem framesWf_pop {s : State} {f : Frame} {below : List Frame} (h : s.FramesWf) (hf : s.frames = f :: below) :
    (s.setFrames below).FramesWf ∧
      (f.isCommand = true → ∀ g more, below = g :: more → g.isCommand = false) ∧
      (∀ v, f.vector? = some v → v ∉ (s.setFrames below).activeVectors) ∧ f.wf (s.setFrames below) = true := by
  obtain ⟨h1, h2, h3⟩ := h
  rw [hf] at h1 h2
  unfold State.activeVectors at h3
  rw [hf, List.filterMap_cons] at h3
  refine ⟨⟨fun g hg => ?_, ?_, ?_⟩, ?_, ?_, ?_⟩
  · exact (g.wf_congr (s := s) rfl rfl).trans (h1 g (List.mem_cons_of_mem _ hg))
  · show stacked below = true
    cases below with
    | nil => rfl
    | cons g more => simp [stacked] at h2; exact h2.2
  · show (below.filterMap Frame.vector?).Nodup
    split at h3
    · exact h3
    · exact (List.nodup_cons.1 h3).2
  · rintro hc g more rfl
    simp [stacked, hc] at h2
    exact h2.1
  · intro v hv
    rw [hv] at h3
    exact (List.nodup_cons.1 h3).1
  · exact (f.wf_congr (s := s) rfl rfl).trans (h1 f List.mem_cons_self)

end Sys2Proof.Machine
end

