-- ==== Sys2Proof/Laws/PerInstr.lean ====
section
/-! SUPPORT. The per-instruction family `EncodedForm`: an operation's encoding has the length its opcode fixes, and its
first word carries in bits [31:24] an opcode of the operation's own port (R91, R93, R94). One lemma for each constructor. -/

namespace Sys2Proof

/-! ### The sizes of the field codes -/

theorem flagCode_lt (b : Bool) : flagCode b < 2 := by cases b <;> decide

theorem PinMode.code_lt (m : PinMode) : m.code < 4 := by cases m <;> decide

theorem EdgeMode.code_lt (m : EdgeMode) : m.code < 4 := by cases m <;> decide

theorem Direction.code_lt (d : Direction) : d.code < 2 := by cases d <;> decide

theorem StatSel.code_lt (sel : StatSel) : sel.code < 10 := by cases sel <;> decide

/-! ### The first word -/

theorem word0_toNat (op : Nat) (parts : List (Nat × Nat)) :
    (word0 op parts).toNat = (op * 2 ^ 24 + (parts.map (fun p => p.1 * 2 ^ p.2)).sum) % 2 ^ 32 := by
  rw [word0, trunc32_toNat]

/-- Fields that stay below bit 24 leave the opcode as it is. -/
theorem opcode_word0 {op : Nat} {parts : List (Nat × Nat)} (hop : op < 256)
    (h : (parts.map (fun p => p.1 * 2 ^ p.2)).sum < 2 ^ 24) : field (word0 op parts) 31 24 = op := by
  simp only [field, word0_toNat]
  omega

end Sys2Proof

namespace Sys2Proof.Laws

/-- The opcodes of a port (R94). -/
def portRange (op : Nat) : Port → Bool
  | .cmd => decide (0x01 ≤ op) && decide (op ≤ 0x2F)
  | .irq => decide (0x80 ≤ op) && decide (op ≤ 0x8F)
  | .env => decide (0x90 ≤ op) && decide (op ≤ 0x9F)

/-- The length and the opcode of an operation's encoding. -/
def EncodedForm.Statement (i : Instr) : Prop :=
  (encode i).length = i.words ∧ ∃ w0 operands, encode i = w0 :: operands ∧ portRange (field w0 31 24) i.port = true

/-- From an opcode of the port and fields that stay below it to the statement. -/
theorem EncodedForm.of_word0 {i : Instr} {op : Nat} {parts : List (Nat × Nat)} {operands : List Word}
    (he : encode i = word0 op parts :: operands) (hl : operands.length + 1 = i.words) (hop : op < 256)
    (hr : portRange op i.port = true) (hp : (parts.map (fun p => p.1 * 2 ^ p.2)).sum < 2 ^ 24) : EncodedForm.Statement i := by
  refine ⟨by rw [he, ← hl]; rfl, _, _, he, ?_⟩
  rw [opcode_word0 hop hp]
  exact hr

namespace EncodedForm

theorem tbInit : ∀ prio clockHz periodUs, Statement (.tbInit prio clockHz periodUs) := by
  intro prio clockHz periodUs
  have := prio.isLt
  refine of_word0 rfl rfl (by decide) rfl ?_
  simp only [List.map_cons, List.map_nil, List.sum_cons, List.sum_nil]
  omega

theorem nowTicks : Statement .nowTicks := of_word0 rfl rfl (by decide) rfl (by decide)

theorem nowMillis : Statement .nowMillis := of_word0 rfl rfl (by decide) rfl (by decide)

theorem nowMicros : Statement .nowMicros := of_word0 rfl rfl (by decide) rfl (by decide)

theorem elapsedMs : ∀ now start, Statement (.elapsedMs now start) := by
  intro now start
  exact of_word0 rfl rfl (by decide) rfl (by decide)

theorem elapsedUs : ∀ now start, Statement (.elapsedUs now start) := by
  intro now start
  exact of_word0 rfl rfl (by decide) rfl (by decide)

theorem ilrRegister : ∀ line callback arg, Statement (.ilrRegister line callback arg) := by
  intro line callback arg
  have := line.isLt
  refine of_word0 rfl rfl (by decide) rfl ?_
  simp only [List.map_cons, List.map_nil, List.sum_cons, List.sum_nil]
  omega

theorem ilrConfig : ∀ prio gok edge mode port pin, Statement (.ilrConfig prio gok edge mode port pin) := by
  intro prio gok edge mode port pin
  have := prio.isLt
  have := flagCode_lt gok
  have := edge.code_lt
  have := mode.code_lt
  have := port.isLt
  have := pin.isLt
  refine of_word0 rfl rfl (by decide) rfl ?_
  simp only [List.map_cons, List.map_nil, List.sum_cons, List.sum_nil]
  omega

theorem btInit : ∀ prio gok rxmode txmode pclkHz baud, Statement (.btInit prio gok rxmode txmode pclkHz baud) := by
  intro prio gok rxmode txmode pclkHz baud
  have := prio.isLt
  have := flagCode_lt gok
  have := rxmode.code_lt
  have := txmode.code_lt
  refine of_word0 rfl rfl (by decide) rfl ?_
  simp only [List.map_cons, List.map_nil, List.sum_cons, List.sum_nil]
  omega

theorem baudDiv : ∀ pclkHz baud, Statement (.baudDiv pclkHz baud) := by
  intro pclkHz baud
  exact of_word0 rfl rfl (by decide) rfl (by decide)

theorem btWrite : ∀ data length, Statement (.btWrite data length) := by
  intro data length
  exact of_word0 rfl rfl (by decide) rfl (by decide)

theorem btRead : ∀ output maxLength, Statement (.btRead output maxLength) := by
  intro output maxLength
  exact of_word0 rfl rfl (by decide) rfl (by decide)

theorem btStat : ∀ sel, Statement (.btStat sel) := by
  intro sel
  have := sel.code_lt
  refine of_word0 rfl rfl (by decide) rfl ?_
  simp only [List.map_cons, List.map_nil, List.sum_cons, List.sum_nil]
  omega

theorem tickIrq : Statement .tickIrq := of_word0 rfl rfl (by decide) rfl (by decide)

theorem dispatch : ∀ first last, Statement (.dispatch first last) := by
  intro first last
  have := first.isLt
  have := last.isLt
  refine of_word0 rfl rfl (by decide) rfl ?_
  simp only [List.map_cons, List.map_nil, List.sum_cons, List.sum_nil]
  omega

theorem usartIrq : Statement .usartIrq := of_word0 rfl rfl (by decide) rfl (by decide)

theorem envEdge : ∀ dir line, Statement (.envEdge dir line) := by
  intro dir line
  have := dir.code_lt
  have := line.isLt
  refine of_word0 rfl rfl (by decide) rfl ?_
  simp only [List.map_cons, List.map_nil, List.sum_cons, List.sum_nil]
  omega

theorem envRx : ∀ nf fe pe byte, Statement (.envRx nf fe pe byte) := by
  intro nf fe pe byte
  have := byte.isLt
  have := flagCode_lt nf
  have := flagCode_lt fe
  have := flagCode_lt pe
  refine of_word0 rfl rfl (by decide) rfl ?_
  simp only [List.map_cons, List.map_nil, List.sum_cons, List.sum_nil]
  omega

theorem envTxe : Statement .envTxe := of_word0 rfl rfl (by decide) rfl (by decide)

theorem envCvr : ∀ value, Statement (.envCvr value) := by
  intro value
  have := value.isLt
  refine of_word0 rfl rfl (by decide) rfl ?_
  simp only [List.map_cons, List.map_nil, List.sum_cons, List.sum_nil]
  omega

theorem vecL0 : Statement .vecL0 := of_word0 rfl rfl (by decide) rfl (by decide)

theorem vecL1 : Statement .vecL1 := of_word0 rfl rfl (by decide) rfl (by decide)

theorem vecL2 : Statement .vecL2 := of_word0 rfl rfl (by decide) rfl (by decide)

theorem vecL3 : Statement .vecL3 := of_word0 rfl rfl (by decide) rfl (by decide)

theorem vecL4 : Statement .vecL4 := of_word0 rfl rfl (by decide) rfl (by decide)

theorem vecL5to9 : Statement .vecL5to9 := of_word0 rfl rfl (by decide) rfl (by decide)

theorem vecL10to15 : Statement .vecL10to15 := of_word0 rfl rfl (by decide) rfl (by decide)

end EncodedForm

end Sys2Proof.Laws
end

