-- ==== Sys2Proof/Tests/Slice0.lean ====
section
/-! SUPPORT. The model's own tests, on the words and vectors of `30_encoding.md` and `95_test_vectors.md`, and the witnesses:
for each statement with hypotheses, a concrete state and operands that meet them. -/

namespace Sys2Proof.Tests

open Sys2Proof Sys2Proof.Machine

/-! ### Helpers -/

def nextOf : Result → Option State
  | .next t => some t
  | .fault _ => none
  | .refused _ => none

def refusalOf : Result → Option Refusal
  | .refused r => some r
  | .next _ => none
  | .fault _ => none

/-- One field of the next state of one operation. -/
def after {α : Type} (i : Instr) (s : State) (f : State → α) : Option α := (nextOf (exec i s)).map f

/-- What one operation is refused for. -/
def refused (i : Instr) (s : State) : Option Refusal := refusalOf (exec i s)

/-- The operation some words decode to, if they decode to one and nothing is left over. -/
def decoded (ws : List Word) : Option Instr :=
  match decode ws with
  | .ok (i, []) => some i
  | _ => none

/-- Why some words are no operation. -/
def rejected (ws : List Word) : Option DecodeError :=
  match decode ws with
  | .ok _ => none
  | .error e => some e

/-- The reset state with rings of eight cells. -/
def small : State := State.resetSized 8 8

/-- The Time Base after vector T1, with 100 ticks counted and the down-counter halfway. -/
def ticking : State :=
  { small with tb := { init := true, tickCount := 100, load := 15999, periodUs := 1000, clockHz := 16000000 }
               cvr := 7999 }

/-- The transport after vector B13. -/
def ready : State :=
  { small with bt := { small.bt with init := true }, us := small.us.started 0x8B
               dmem := [(0x100, 0x41), (0x101, 0x42), (0x102, 0x43), (0x103, 0x44)] }

/-- TX holds 41 42 and the transmit-interrupt is on. -/
def sending : State :=
  { ready with tx := { ready.tx with buf := [some 0x41, some 0x42, none, none, none, none, none, none], head := 2 }
               us := { ready.us with txeie := true } }

/-- RX holds 41 42. -/
def received : State :=
  { ready with rx := { ready.rx with buf := [some 0x41, some 0x42, none, none, none, none, none, none], head := 2 } }

/-- A full ring of eight cells. -/
def fullRing : Ring :=
  { buf := [some 1, some 2, some 3, some 4, some 5, some 6, some 7, none], head := 7, tail := 0, drop := 0 }

/-- Vector L7: lines 11 and 13 pending, line 13 registered. -/
def pending : State :=
  { small with ilr := { small.ilr with table := small.ilr.table.set 13 { valid := true, cb := 0x08001235, arg := 0x20000010 }
                                       pend := 0x2800 } }

/-- The last registration of `pending` has its line armed on falling edges, as in vector L6. -/
def armed : State :=
  { small with ilr := { small.ilr with attr := small.ilr.attr.set 13 { port := 2, rise := false, fall := true
                                                                       unmask := true } } }

/-- The machine with these words to run. -/
def loaded (ws : List Word) : State := small.load ws

/-! ### Well-formedness -/

theorem test_ill_formed_single_line : (Instr.dispatch 4 4).wellFormed = false := by decide

theorem test_ill_formed_group_5_9 : (Instr.dispatch 5 9).wellFormed = false := by decide

theorem test_ill_formed_group_10_15 : (Instr.dispatch 10 15).wellFormed = false := by decide

theorem test_well_formed_range : (Instr.dispatch 5 8).wellFormed = true := by decide

/-! ### Decoding (R92, R99, R100, section 2.4 of the vectors) -/

theorem test_decode_time_base :
    decoded [0x01000000, 0x00F42400, 0x000003E8] = some (.tbInit 0 16000000 1000) ∧
    decoded [0x010F0000, 0x0501BD00, 0x000003E8] = some (.tbInit 15 84000000 1000) ∧
    decoded [0x02000000] = some .nowTicks ∧ decoded [0x03000000] = some .nowMillis ∧
    decoded [0x04000000] = some .nowMicros ∧
    decoded [0x05000000, 0x80000000, 0x93000000] = some (.elapsedMs 0x80000000 0x93000000) ∧
    decoded [0x06000000, 0x00000010, 0xFFFFFF00] = some (.elapsedUs 0x10 0xFFFFFF00) := by decide

theorem test_decode_line_router :
    decoded [0x1000000D, 0x08001235, 0x20000010] = some (.ilrRegister 13 0x08001235 0x20000010) ∧
    decoded [0x100000FF, 0x08001235, 0x00000000] = some (.ilrRegister 255 0x08001235 0) ∧
    decoded [0x1105142D] = some (.ilrConfig 5 true .falling .input 2 13) ∧
    decoded [0x1105152D] = some (.ilrConfig 5 true .falling .output 2 13) ∧
    decoded [0x1105042D] = some (.ilrConfig 5 false .falling .input 2 13) ∧
    decoded [0x11051C2D] = some (.ilrConfig 5 true .notAnEdge .input 2 13) := by decide

theorem test_decode_byte_transport :
    decoded [0x2006001A, 0x00F42400, 0x0001C200] = some (.btInit 6 true .alternate .alternate 16000000 115200) ∧
    decoded [0x20060018, 0x00F42400, 0x0001C200] = some (.btInit 6 true .alternate .input 16000000 115200) ∧
    decoded [0x2006001E, 0x00F42400, 0x0001C200] = some (.btInit 6 true .analog .alternate 16000000 115200) ∧
    decoded [0x21000000, 0x00F42400, 0x0001C200] = some (.baudDiv 16000000 115200) ∧
    decoded [0x22000000, 0x00000100, 0x00000003] = some (.btWrite 0x100 3) ∧
    decoded [0x23000000, 0x00000200, 0x00000004] = some (.btRead 0x200 4) ∧
    decoded [0x24000001] = some (.btStat .txDrop) ∧ decoded [0x24000009] = some (.btStat .txFull) := by decide

theorem test_decode_handlers :
    decoded [0x80000000] = some .tickIrq ∧ decoded [0x82000000] = some .usartIrq ∧
    decoded [0x81000032] = some (.dispatch 3 2) ∧ decoded [0x81000000] = some .vecL0 ∧
    decoded [0x81000011] = some .vecL1 ∧ decoded [0x81000022] = some .vecL2 ∧ decoded [0x81000033] = some .vecL3 ∧
    decoded [0x81000044] = some .vecL4 ∧ decoded [0x81000059] = some .vecL5to9 ∧
    decoded [0x810000AF] = some .vecL10to15 := by decide

theorem test_decode_environment :
    decoded [0x9000001D] = some (.envEdge .fall 13) ∧ decoded [0x9000000D] = some (.envEdge .rise 13) ∧
    decoded [0x91000255] = some (.envRx false true false 0x55) ∧
    decoded [0x91000735] = some (.envRx true true true 0x35) ∧ decoded [0x92000000] = some .envTxe ∧
    decoded [0x93001F3F] = some (.envCvr 7999) ∧ decoded [0x93FFFFFF] = some (.envCvr 0xFFFFFF) := by decide

theorem test_reject_undefined_opcodes :
    rejected [0x00000000] = some (.undefinedOpcode 0) ∧ rejected [0x07000000] = some (.undefinedOpcode 7) ∧
    rejected [0x12000000] = some (.undefinedOpcode 0x12) ∧ rejected [0x25000000] = some (.undefinedOpcode 0x25) ∧
    rejected [0x83000000] = some (.undefinedOpcode 0x83) ∧ rejected [0x94000000] = some (.undefinedOpcode 0x94) ∧
    rejected [0xFF000000] = some (.undefinedOpcode 0xFF) := by decide

theorem test_reject_reserved :
    rejected [0x02000001] = some .reservedBits ∧ rejected [0x1105F42D] = some .reservedBits ∧
    rejected [0x81000100] = some .reservedBits ∧ rejected [0x91000841] = some .reservedBits ∧
    rejected [0x2400000A] = some .reservedSelector ∧ rejected [0x22000000, 0x00000100] = some .truncated := by decide

theorem test_serialised_stream :
    (decodeBytes [0x3F, 0x1F, 0x00, 0x93]).toOption = some (.envCvr 7999, []) := by decide

theorem test_assembly :
    (Instr.dispatch 5 8).assembly = "DISPATCH first=5, last=8" ∧
    (Instr.ilrConfig 5 true .falling .input 2 13).assembly =
      "ILR_CONFIG prio=5, gok=1, edge=FALLING, mode=INPUT, port=2, pin=13" := by decide

theorem test_assemble_repeat : assembleProgram [(.tickIrq, 2), (.envTxe, 1)] = [0x80000000, 0x80000000, 0x92000000] := by
  decide

theorem test_table_word : decodeTableWord 96 0x000003E800F4240001000000 = some (.tbInit 0 16000000 1000) := by decide

theorem test_with_fetch_word :
    ((nextOf (step (State.reset.withFetchWord 32 0x93001F3F))).map (fun t => (t.cvr, t.sp))) = some (7999, 1) := by decide

/-! ### Time Base (vectors T1 to T26) -/

theorem test_tb_init_largest : after (.tbInit 0 0x01000000 0x000F4240) small (fun t => (t.tb.load, t.out)) =
    some (0xFFFFFF, { res := 1, ok := true }) := by decide

theorem test_tb_init_too_large : after (.tbInit 0 0x01000001 0x000F4240) small (fun t => (t.tb.init, t.out)) =
    some (false, { res := 0, ok := false }) := by decide

theorem test_tb_init_no_cycles : after (.tbInit 0 0x000F423F 1) small (fun t => (t.tb.init, t.out.ok)) =
    some (false, false) := by decide

theorem test_tb_init_twice : refused (.tbInit 0 16000000 1000) ticking = some .reinit := by decide

theorem test_tick_wraps :
    after .tickIrq { ticking with tb := { ticking.tb with tickCount := 0xFFFFFFFF } } (·.tb.tickCount) = some 0 := by decide

theorem test_tick_before_init : refused .tickIrq small = some .tickBeforeInit := by decide

theorem test_now_ticks : after .nowTicks ticking (·.out) = some { res := 100, ok := true } := by decide

theorem test_now_millis_wide :
    after .nowMillis { ticking with tb := { ticking.tb with tickCount := 0x80000000, periodUs := 2000 } } (·.out.res) =
      some 0 := by decide

theorem test_now_millis_wraps :
    after .nowMillis { ticking with tb := { ticking.tb with tickCount := 0xFFFFFFFF, periodUs := 1500 } } (·.out.res) =
      some 0x7FFFFFFE := by decide

theorem test_now_micros : after .nowMicros ticking (·.out) = some { res := 0x18894, ok := true } := by decide

theorem test_now_micros_wraps :
    after .nowMicros { ticking with tb := { ticking.tb with tickCount := 4294967 }, cvr := 0 } (·.out.res) = some 703 := by
  decide

theorem test_now_micros_cvr_above_load : refused .nowMicros { ticking with cvr := 16000 } = some .cvrAboveLoad := by decide

theorem test_elapsed_ms : after (.elapsedMs 0x64 0xFFFFFFF0) small (·.out.res) = some 0x74 := by decide

theorem test_elapsed_us : after (.elapsedUs 0x10 0xFFFFFF00) small (·.out.res) = some 0x110 := by decide

theorem test_env_cvr : after (.envCvr 0xFFFFFF) small (·.cvr) = some 0xFFFFFF := by decide

/-- Trace X2: a tick between the two reads leads to a second attempt. -/
theorem test_now_micros_torn :
    (nextOf (resume (.nowMicros 2 (.haveCvr 99 3)) ticking)).map (·.out.res) = some 0x18894 := by decide

/-! ### Line Router (vectors L1 to L14) -/

/-- The registered pair, in both orders of the two stores. -/
theorem test_register : after (.ilrRegister 13 0x08001235 0x20000010) small (fun t => (t.ilr.table[13], t.out.ok)) =
    some ({ valid := true, cb := 0x08001235, arg := 0x20000010 }, true) := by
  simp only [after, exec, execIlrRegister]
  generalize Config.argumentFirst _ = b
  revert b
  decide

theorem test_register_line_16 : after (.ilrRegister 16 0x08001235 0) small (fun t => (t.ilr.table, t.out)) =
    some (small.ilr.table, { res := 0, ok := false }) := by decide

theorem test_register_null : refused (.ilrRegister 13 0 1) small = some .nullCallback := by decide

theorem test_config : after (.ilrConfig 5 true .falling .input 2 13) { small with ilr := { small.ilr with pend := 0x2001 } }
      (fun t => (t.ilr.attr[13], t.ilr.pend, t.vectorAttr .l10to15)) =
    some ({ port := 2, rise := false, fall := true, unmask := true }, 1, { en := true, prio := 5 }) := by decide

theorem test_config_fails : after (.ilrConfig 5 true .falling .output 2 13) small (fun t => (t.ilr.table, t.out)) =
    some (small.ilr.table, { res := 0, ok := false }) := by decide

theorem test_dispatch_group : after .vecL10to15 pending (fun t => (t.ilr.pend, t.calls)) =
    some (0, [{ line := 13, cb := 0x08001235, arg := 0x20000010 }]) := by decide

theorem test_dispatch_other_group : after .vecL5to9 pending (fun t => (t.ilr.pend, t.calls)) = some (0x2800, []) := by decide

theorem test_dispatch_empty_range : after (.dispatch 3 2) { pending with ilr := { pending.ilr with pend := 0xFFFF } }
    (fun t => (t.ilr.pend, t.calls)) = some (0xFFFF, []) := by decide

theorem test_dispatch_single_lines :
    [Instr.vecL0, .vecL1, .vecL2, .vecL3, .vecL4].map
      (fun i => after i { small with ilr := { small.ilr with pend := 0xFFFF } } (·.ilr.pend)) =
    [some 0xFFFE, some 0xFFFD, some 0xFFFB, some 0xFFF7, some 0xFFEF] := by decide

theorem test_edge_selected : after (.envEdge .fall 13) armed (·.ilr.pend) = some 0x2000 := by decide

theorem test_edge_not_selected : after (.envEdge .rise 13) armed (·.ilr.pend) = some 0 := by decide

/-- Trace X4: an edge that arrives after the acknowledgment is kept. -/
theorem test_retrigger :
    (nextOf (resume (.dispatch .l10to15 0x2000 13 [14, 15] (.inCallback [])) pending)).map (·.ilr.pend) =
      some 0x2800 := by decide

/-! ### Byte Transport (vectors B1 to B30, H1 to H12, E1 to E8) -/

theorem test_baud_div_carry : after (.baudDiv 31500 1000) small (·.out.res) = some 0x20 ∧
    after (.baudDiv 31499 1000) small (·.out.res) = some 0x1F := by decide

theorem test_baud_div_wide : after (.baudDiv 0xFFFFFFFF 1) small (·.out.res) = some 0xFFFFFFFF ∧
    after (.baudDiv 16000000 0) small (·.out.res) = some 0 := by decide

theorem test_bt_init : after (.btInit 6 true .alternate .alternate 16000000 115200) small
      (fun t => (t.us.brr, t.us.txe, t.us.txeie, t.bt.init, t.vectorAttr .serial)) =
    some (0x8B, true, false, true, { en := true, prio := 6 }) := by decide

theorem test_bt_init_order :
    refused (.btInit 6 true .alternate .alternate 16000000 0) small = some .baudUnfit ∧
    after (.btInit 6 true .alternate .input 16000000 0) small (·.out.ok) = some false := by decide

theorem test_bt_write : after (.btWrite 0x100 3) ready (fun t => (t.tx.contents, t.tx.head, t.us.txeie, t.out.res)) =
    some ([0x41, 0x42, 0x43], 3, true, 3) := by decide

theorem test_bt_write_partial : after (.btWrite 0x100 10) ready (fun t => (t.tx.head, t.tx.drop, t.out.res)) =
    some (7, 3, 7) := by decide

theorem test_bt_read : after (.btRead 0x200 4) received
      (fun t => (t.out.res, t.memRead 0x200, t.memRead 0x201, t.rx.isEmpty)) = some (2, 0x41, 0x42, true) := by decide

theorem test_bt_read_wraps : after (.btRead 0xFFFFFFFF 2) received (fun t => (t.memRead 0xFFFFFFFF, t.memRead 0)) =
    some (0x41, 0x42) := by decide

theorem test_bt_stat : after (.btStat .rxEmpty) small (·.out.res) = some 1 ∧
    after (.btStat .rxFull) { ready with rx := fullRing } (·.out.res) = some 1 := by decide

theorem test_use_before_init : refused (.btWrite 0x100 1) small = some .useBeforeInit := by decide

theorem test_usart_error_and_data :
    after .usartIrq { sending with us := { sending.us with fe := true, pe := true, rxne := true } }
      (fun t => (t.bt.errFe, t.rx.drop, t.us.rxne, t.rx.isEmpty, t.txLine)) = some (1, 2, false, true, [0x41]) := by decide

theorem test_usart_both : after .usartIrq { sending with us := { sending.us with rxne := true, rdr := 0x5A } }
      (fun t => (t.rx.contents, t.us.tdr, t.us.txe, t.tx.contents)) = some ([0x5A], 0x41, false, [0x42]) := by decide

theorem test_env_rx_overrun : after (.envRx false false false 0x42) { ready with us := { ready.us with rdr := 0x41, rxne := true } }
    (fun t => (t.us.ore, t.us.rdr, t.us.rxne)) = some (true, 0x41, true) := by decide

theorem test_env_rx_errors : after (.envRx true true true 0x35) ready
    (fun t => (t.us.rdr, t.us.rxne, t.us.pe, t.us.fe, t.us.nf)) = some (0x35, true, true, true, true) := by decide

theorem test_env_txe : after .envTxe { ready with us := { ready.us with txe := false } } (·.us.txe) = some true ∧
    after .envTxe small (·.us.txe) = some false := by decide

/-- The ring walk of section 2.3 wraps its index at step 6. -/
theorem test_ring_walk :
    (Ring.run (Ring.ofSize 4) [.push 1, .push 2, .push 3, .push 4, .pop, .push 5, .pop, .pop, .pop, .pop]).2 =
      ([1, 2, 3, 5], [1, 2, 3, 5]) := by decide

/-! ### Witnesses

Each names the statement whose hypotheses it meets, clause by clause, at boundary values. -/

/-- Something waits at the next preemption point. -/
def interrupted (s : State) : State := { s with arrivals := [.deliver .tickIrq] }

/-- A dispatch in flight at its callback, with one command left to issue. -/
def inCallback : State :=
  { pending with frames := [.dispatch .l10to15 0x2000 13 [14, 15] (.inCallback [.nowTicks])] }

/-- An operation that completes runs. -/
theorem runs_of_exec {i : Instr} {s : State} (h : (nextOf (exec i s)).isSome = true) : ∃ t, s.runs i t := by
  cases e : exec i s with
  | next t => exact ⟨t, .inl e⟩
  | fault r => rw [e] at h; cases h
  | refused r => rw [e] at h; cases h

/-- A suspended operation that goes on runs. -/
theorem runs_of_resume {f : Frame} {i : Instr} {s : State} (hf : f.isOf i) (hn : f.issued? = none)
    (h : (nextOf (resume f s)).isSome = true) : ∃ t, s.runs i t := by
  cases e : resume f s with
  | next t => exact ⟨t, .inr ⟨f, hf, hn, e⟩⟩
  | fault r => rw [e] at h; cases h
  | refused r => rw [e] at h; cases h

theorem witness_OperationsAtReset : Ring.goodSize 2 = true ∧ Ring.goodSize 256 = true := by decide

theorem witness_ResetMeetsInvariant : Ring.goodSize 2 = true ∧ Ring.goodSize 65536 = true := by decide

theorem witness_RingConstructorRejects :
    (Ring.make? 2).isSome = true ∧ Ring.make? 0 = none ∧ Ring.make? 1 = none ∧ Ring.make? 3 = none := by decide

/-- All three clauses: initialised; each failing condition at its boundary; the smallest and the largest reload. -/
theorem witness_TbInitResult :
    ticking.tb.init = true ∧ small.tb.init = false ∧
    (0x000F423F#32).toNat * (1#32).toNat / 1000000 = 0 ∧
    0xFFFFFF < (0x01000001#32).toNat * (1000000#32).toNat / 1000000 - 1 ∧
    (0x01000000#32).toNat * (1000000#32).toNat / 1000000 - 1 ≤ 0xFFFFFF ∧
    (0x01000000#32).toNat * (1000000#32).toNat / 1000000 ≠ 0 ∧
    (1000000#32).toNat * (1#32).toNat / 1000000 ≠ 0 := by decide

theorem witness_TickIrqCounts : ticking.tb.init = true ∧ small.tb.init = false := by decide

/-- The clauses at both ends of the reload value, one above it, and before initialisation. -/
theorem witness_NowMicrosScripted :
    (small.arrivals = [] ∧ small.tb.init = false) ∧
    (ticking.arrivals = [] ∧ ticking.tb.init = true ∧ ticking.tb.load < 16000) ∧
    (({ ticking with cvr := 15999 } : State).cvr ≤ ticking.tb.load ∧ ({ ticking with cvr := 0 } : State).cvr ≤ ticking.tb.load) := by
  decide

/-- Something waiting; nothing delivered, with the sample at the reload value and above it, a coherent and a torn pair, an
attempt left and none. -/
theorem witness_NowMicrosRetries :
    (interrupted ticking).tb.init = true ∧ (interrupted ticking).arrivals = .deliver .tickIrq :: [] ∧
    ({ ticking with cvr := 15999 } : State).cvr ≤ ticking.tb.load ∧ ticking.tb.load < ({ ticking with cvr := 16000 } : State).cvr ∧
    ticking.arrivals = [] ∧ ticking.tb.tickCount = 100 ∧ ticking.tb.tickCount ≠ 99 ∧ ticking.tb.init = true ∧
    ((nextOf (resume (.nowMicros 1 .mismatch) { ticking with arrivals := [.pass, .deliver .tickIrq] })).map (·.frames)) =
      some [.nowMicros 0 (.haveT1 100)] := by decide

theorem witness_NowMicrosRetries_undisturbed :
    ticking.undisturbed ∧ ({ ticking with arrivals := [.pass, .deliver .tickIrq] } : State).undisturbed :=
  ⟨(fun _ _ h => by cases h), (fun _ _ h => by cases h)⟩

theorem witness_MicrosStayWithinTheTick :
    ticking.TimerWf ∧ ticking.tb.init = true ∧ ticking.arrivals = [] ∧ ticking.cvr ≤ ticking.tb.load := by
  unfold State.TimerWf
  decide

theorem witness_MillisNeverDecrease :
    ticking.tb.init = true ∧ ticking.tb.periodUs = ticking.tb.periodUs ∧
    ticking.tb.tickCount.toNat ≤ ticking.tb.tickCount.toNat ∧
    ticking.tb.tickCount.toNat * ticking.tb.periodUs.toNat / 1000 < 2 ^ 32 := by decide

theorem witness_ElapsedIsWrapSafe : (0x10 : Word) = 0xFFFFFF00 + 0x110 := by decide

theorem witness_IlrRegisterResult_undisturbed : small.undisturbed ∧
    ({ small with arrivals := [.pass, .deliver .tickIrq] } : State).undisturbed :=
  ⟨(fun _ _ h => by cases h), (fun _ _ h => by cases h)⟩

/-- The two clauses on the line at the two sides of 15, and both outcomes within the second. -/
theorem witness_IlrRegisterResult :
    16 ≤ (16#8).toNat ∧ (15#8).toNat = (15 : LineNo).val ∧ (0x08001235 : Word) ≠ 0 ∧ small.arrivals = [] ∧
    (interrupted small).arrivals = .deliver .tickIrq :: [] := by decide

theorem witness_TornRegistrationCompletes : (interrupted pending).arrivals = .deliver .tickIrq :: [] := by decide

theorem witness_TornRegistrationCompletes_undisturbed : pending.undisturbed ∧
    ({ pending with arrivals := [.pass, .deliver .tickIrq] } : State).undisturbed :=
  ⟨(fun _ _ h => by cases h), (fun _ _ h => by cases h)⟩

theorem witness_IlrConfigResult :
    ((15 : LineNo) ≠ 14 ∧ VecId.l0 ≠ lineVector 15) ∧ lineConfigGood true .both .input = true ∧
    lineConfigGood true .notAnEdge .input = false := by decide

theorem witness_DispatchScripted : pending.Scripted := by
  unfold State.Scripted
  decide

theorem witness_VectorEntriesServiceTheirGroup : (Instr.vecL10to15, VecId.l10to15) ∈ vectorEntries ∧ pending.Scripted := by
  unfold State.Scripted
  decide

/-- The first clause at line 13 of a whole range; the second at a line that is not pending and at one not registered. -/
theorem witness_RegisteredCallbackRunsOnce :
    pending.Scripted ∧ (0 : LineNo) ≤ 13 ∧ (13 : LineNo) ≤ 15 ∧ (13#8).toNat = (13 : LineNo).val ∧ (1 : Word) ≠ 0 ∧
    (nextOf (exec (.dispatch 0 15) pending)).isSome = true ∧ pendBit pending.ilr.pend 12 = false ∧
    pending.ilr.table[(11 : LineNo)].valid = false := by
  unfold State.Scripted
  decide

theorem witness_RetriggersAreKept : inCallback.Scripted := by
  unfold State.Scripted
  decide

/-- An empty range, a range of one line and of all; something waiting at a point; a line the snapshot does not hold; an
arrival after the acknowledgment; a registered line whose callback has a command, an empty list, no list; a line that
is not registered. -/
theorem witness_AcknowledgedBeforeInvoked :
    (2 : LineNo) < 3 ∧ (15 : LineNo) ≤ 15 ∧ (0 : LineNo) ≤ 15 ∧
    (interrupted pending).arrivals = .deliver .tickIrq :: [] ∧ pendBit pending.ilr.pend 12 = false ∧
    ({ pending with arrivals := [.pass, .deliver (.envEdge .fall 13)] } : State).arrivals =
      .pass :: .deliver (.envEdge .fall 13) :: [] ∧ pendBit pending.ilr.pend 13 = true ∧
    pending.ilr.table[(13 : LineNo)].valid = true ∧ pending.callbackPlan = [] ∧
    ({ pending with callbackPlan := [[.nowTicks]] } : State).callbackPlan = (.nowTicks :: []) :: [] ∧
    ({ pending with callbackPlan := [[]] } : State).callbackPlan = [] :: [] ∧
    pending.ilr.table[(11 : LineNo)].valid = false := by decide

/-- The points at which a handler is suspended again: any but a callback with a command left. -/
theorem witness_AcknowledgedBeforeInvoked_points :
    (∀ c cs, DispatchPoint.beforeLine ≠ .inCallback (c :: cs)) ∧ (∀ c cs, DispatchPoint.acknowledged ≠ .inCallback (c :: cs)) ∧
    ∀ c cs, DispatchPoint.inCallback [] ≠ .inCallback (c :: cs) := ⟨nofun, nofun, nofun⟩

/-- A handler entered with something waiting is suspended before its first line with the flags of that moment. -/
theorem test_dispatch_snapshot : (nextOf (exec (.dispatch 11 13) (interrupted pending))).map (·.frames) =
    some [.dispatch .l10to15 0x2800 11 [12, 13] .beforeLine] := by decide

theorem witness_AcknowledgedBeforeInvoked_undisturbed : pending.undisturbed ∧
    ({ pending with arrivals := [.pass, .deliver .tickIrq] } : State).undisturbed :=
  ⟨(fun _ _ h => by cases h), (fun _ _ h => by cases h)⟩

/-- A callback with a command to issue uses up its list, is recorded, and is suspended over. -/
theorem test_callback_issues :
    (nextOf (resume (.dispatch .l10to15 0x2000 13 [14, 15] .acknowledged) { pending with callbackPlan := [[.nowTicks], []] })).map
      (fun t => (t.callbackPlan, t.calls, t.frames)) =
    some ([[]], [{ line := 13, cb := 0x08001235, arg := 0x20000010 }],
      [.dispatch .l10to15 0x2000 13 [14, 15] (.inCallback [.nowTicks])]) := by decide

theorem witness_BaudDivResult : (0 : Word) = 0 ∧ (115200 : Word) ≠ 0 ∧
    16 ≤ ((31500#32).toNat % (16 * (1000#32).toNat) + (1000#32).toNat / 2) / (1000#32).toNat := by decide

theorem witness_BaudDivIsOneRoundedDivision : (1 : Word) ≠ 0 := by decide

/-- Initialised; a wrong pin; the largest divisor that fits and the next one. -/
theorem witness_BtInitResult :
    ready.bt.init = true ∧ small.bt.init = false ∧ PinMode.input ≠ .alternate ∧
    baudDivisor 65535 1 ≤ 0xFFFF ∧ 0xFFFF < baudDivisor 65536 1 ∧ (1 : Word) ≠ 0 := by decide

theorem witness_EmptyTransfers : small.bt.init = false ∧ ready.bt.init = true := by decide

/-- Room for no byte, and room for all but one cell. -/
theorem witness_BtWriteScripted :
    ready.arrivals = [] ∧ ready.bt.init = true ∧ (1 : Word) ≠ 0 ∧ (0x100 : Word) ≠ 0 ∧ ready.tx.wf = true ∧
    fullRing.wf = true ∧ fullRing.space = 0 := by decide

/-- The start with something waiting; a byte in the middle; the arming, with bytes stored and with none. -/
theorem witness_BtWriteAccountsForEveryByte :
    ready.bt.init = true ∧ (3 : Word) ≠ 0 ∧ (0x100 : Word) ≠ 0 ∧ (interrupted ready).arrivals = .deliver .tickIrq :: [] ∧
    sending.tx.wf = true ∧ 2 < (3#32).toNat ∧
    (nextOf (resume (.btWrite 0x100 3 (.beforeByte 2 2)) sending)).isSome = true ∧
    (nextOf (resume (.btWrite 0x100 3 (.beforeByte 2 2)) (interrupted sending))).isSome = true ∧
    (nextOf (resume (.btWrite 0x100 3 (.beforeArm 3)) ready)).map (·.us.txeie) = some true ∧
    (nextOf (resume (.btWrite 0x100 3 (.beforeArm 0)) ready)).map (·.us.txeie) = some false := by decide

theorem witness_BtWriteAccountsForEveryByte_undisturbed : ready.undisturbed := fun _ _ h => by cases h

/-- Nothing arriving, and the start with something waiting; a byte in the middle of a transfer, and the last one. -/
theorem witness_BtReadCopiesInOrder :
    received.arrivals = [] ∧ received.bt.init = true ∧ (4 : Word) ≠ 0 ∧ (0x200 : Word) ≠ 0 ∧ received.rx.wf = true ∧
    Memory.wf received.dmem = true ∧ (interrupted received).arrivals = .deliver .tickIrq :: [] ∧ 1 < (4#32).toNat ∧
    3 < (4#32).toNat := by decide

/-- A read that goes on from its second byte copies from there and counts all. -/
theorem test_bt_read_resumed : (nextOf (resume (.btRead 0x200 4 1) received)).map
    (fun t => (t.out.res, t.memRead 0x200, t.memRead 0x201, t.memRead 0x202)) = some (3, 0, 0x41, 0x42) := by decide

theorem witness_UsartReceives :
    sending.RingsWf ∧ ({ sending.us with ore := true } : Usart).ore = true ∧ sending.us.ore = false ∧
    sending.us.fe = false ∧ sending.us.nf = false ∧ sending.us.pe = false ∧ sending.rx.isFull = false ∧
    fullRing.isFull = true := by
  unfold State.RingsWf
  decide

theorem witness_UsartTransmits :
    sending.RingsWf ∧ sending.us.txe = true ∧ sending.us.txeie = true ∧ sending.tx.contents = 0x41 :: [0x42] ∧
    ready.tx.contents = [] ∧ ready.us.txeie = false := by
  unfold State.RingsWf
  decide

theorem witness_RxDropAccounting : (nextOf (exec .usartIrq sending)).isSome = true := by decide

theorem witness_EnvironmentEvents :
    armed.ilr.attr[(13 : LineNo)].fall = true ∧ armed.ilr.attr[(13 : LineNo)].rise = false ∧
    armed.ilr.attr[(13 : LineNo)].unmask = true ∧
    ((armed.setVector .l10to15 { en := true, prio := 5 }).vectorAttr (lineVector 13)).en = true := by decide

/-- The serial vector enabled, the receiver and the transmitter on, both interrupts on. -/
theorem witness_EnvironmentEvents_serial :
    let s := sending.setVector .serial { en := true, prio := 6 }
    (s.vectorAttr .serial).en = true ∧ s.us.ue = true ∧ s.us.re = true ∧ s.us.rxneie = true ∧ s.us.te = true ∧
    s.us.txeie = true ∧ (nextOf (exec (.envRx false false false 1) s)).isSome = true ∧
    (nextOf (exec .envTxe s)).isSome = true := by decide

theorem witness_RingPredicates : fullRing.wf = true ∧ (Ring.ofSize 2).wf = true := by decide

theorem witness_RingIsFirstInFirstOut : fullRing.wf = true ∧ (Ring.ofSize 2).wf = true ∧ (Ring.ofSize 2).isEmpty = true := by
  decide

theorem witness_MemoryReadsBack : Memory.wf ready.dmem = true ∧ (0xFFFFFFFF : Word) ≠ 0 := by decide

theorem witness_EncodedOperationsDecode : (Instr.dispatch 0 15).wellFormed = true ∧ Instr.vecL0.wellFormed = true := by decide

theorem witness_DecodedWordsEncodeBack : (decode [0x93FFFFFF, 0]).toOption = some (.envCvr 0xFFFFFF, [0]) := by decide

/-- An operation alone in the stream; two operations one after another; a word that is no operation. -/
theorem witness_StepRunsTheDecodedOperation :
    (loaded [0x02000000]).frames = [] ∧ wellDelimited ((loaded [0x02000000]).stream.drop 0) = true ∧
    (decode ((loaded [0x02000000]).stream.drop 0)).toOption = some (.nowTicks, []) ∧
    (∀ i ∈ [Instr.btWrite 0x100 3, .vecL0], i.wellFormed = true) ∧
    rejected [0xFF000000] = some (.undefinedOpcode (field 0xFF000000 31 24)) := by decide

/-- The end of the stream; a truncated operation ahead, alone and after another; a word that is no operation. -/
theorem witness_StepRefusesOtherWords :
    (loaded []).frames = [] ∧ (loaded []).stream.length ≤ (loaded []).sp ∧
    wellDelimited ((loaded [0x02000000, 0x22000000, 0x100]).stream.drop 0) = false ∧
    (loaded [0x02000000, 0x22000000, 0x100]).stream.drop 0 =
      [Instr.nowTicks].flatMap encode ++ (encode (.btWrite 0x100 3)).take 2 ∧
    (Instr.btWrite 0x100 3).words = 3 ∧ Instr.nowTicks.wellFormed = true ∧
    wellDelimited ((loaded [0]).stream.drop 0) = true ∧ 0 < (loaded [0]).stream.length ∧
    rejected (loaded [0]).stream = some (.undefinedOpcode 0) := by decide

/-- Something delivered; a callback's next command, and something it cannot issue. -/
theorem witness_StepInFlight :
    (interrupted inCallback).arrivals = .deliver .tickIrq :: [] ∧
    inCallback.frames = .dispatch .l10to15 0x2000 13 [14, 15] (.inCallback [.nowTicks]) :: [] ∧
    Instr.nowTicks.port = .cmd ∧ Instr.tickIrq.port ≠ .cmd := by decide

theorem witness_StepInFlight_undisturbed :
    inCallback.undisturbed ∧ ({ inCallback with arrivals := [.pass, .deliver .tickIrq] } : State).undisturbed :=
  ⟨(fun _ _ h => by cases h), (fun _ _ h => by cases h)⟩

theorem witness_HandlerEntryRules :
    Instr.envTxe.port = .env ∧ Instr.nowTicks.port = .cmd ∧ Instr.tickIrq.port = .irq ∧ small.activeVectors = [] ∧
    inCallback.activeVectors = .l10to15 :: [] ∧ VecId.l10to15 ∈ inCallback.activeVectors ∧
    VecId.tick ∉ inCallback.activeVectors := by decide

theorem inv_sending : sending.Inv where
  memory := by decide
  rings := by unfold State.RingsWf; decide
  timer := by unfold State.TimerWf; decide
  table := by unfold State.TableWf; decide
  dormant := by intro h; cases h
  armed := by intro h; cases h
  frames := by unfold State.FramesWf; decide
  position := by unfold State.PositionWf; decide

theorem inv_inCallback : inCallback.Inv where
  memory := by decide
  rings := by unfold State.RingsWf; decide
  timer := by unfold State.TimerWf; decide
  table := by unfold State.TableWf; decide
  dormant := by intro _; decide
  armed := by intro _; exact .inl (by decide)
  frames := by unfold State.FramesWf; decide
  position := by unfold State.PositionWf; decide

theorem witness_StepKeepsInvariant : inCallback.Inv ∧ (nextOf (step inCallback)).isSome = true :=
  ⟨inv_inCallback, by decide⟩

theorem witness_NothingFaults : inCallback.Inv ∧ sending.Inv := ⟨inv_inCallback, inv_sending⟩

theorem witness_TransmissionKeepsOrder :
    (sending.load [0x82000000]).Inv ∧ (nextOf (step (sending.load [0x82000000]))).isSome = true :=
  ⟨{ inv_sending with position := by unfold State.PositionWf; decide }, by decide⟩

theorem witness_DrainingSendsEveryByte :
    sending.RingsWf ∧ sending.us.ue = true ∧ sending.us.te = true ∧ sending.us.txe = true ∧ sending.us.txeie = true :=
  ⟨inv_sending.rings, by decide⟩

/-- Entered; going on from a suspension; a step with an operation in flight. -/
theorem witness_FrameOfEveryOperation :
    (nextOf (exec (.btWrite 0x100 3) (interrupted ready))).isSome = true ∧
    (Frame.btWrite 0x100 3 (.beforeByte 1 1)).issued? = none ∧
    (nextOf (resume (.btWrite 0x100 3 (.beforeByte 1 1)) ready)).isSome = true ∧
    inCallback.FramesWf ∧ (nextOf (step inCallback)).isSome = true :=
  ⟨by decide, by decide, by decide, inv_inCallback.frames, by decide⟩

theorem witness_FailuresAreTheTable :
    (Instr.ilrRegister 16 1 0).port = .cmd ∧
    after (.ilrRegister 16 1 0) small (fun t => (t.frames, t.out.ok)) = some (small.frames, false) ∧
    (Frame.btRead 0x200 4 1).isCommand = true ∧
    (nextOf (resume (.btRead 0x200 4 1) received)).map (·.frames) = some received.frames := by decide

theorem witness_TickCountIsTheTicksAlone :
    Instr.nowTicks ≠ .tickIrq ∧ (∃ t, ticking.runs .nowTicks t) ∧ Instr.nowMicros ≠ .tickIrq ∧ ∃ t, ticking.runs .nowMicros t :=
  ⟨by decide, runs_of_exec (by decide), by decide,
    runs_of_resume (f := .nowMicros 0 .mismatch) rfl rfl (by decide)⟩

theorem witness_EventsLeaveResults :
    Instr.tickIrq.port ≠ .cmd ∧ (∃ t, ticking.runs .tickIrq t) ∧ Instr.vecL10to15.port ≠ .cmd ∧
    ∃ t, pending.runs .vecL10to15 t :=
  ⟨by decide, runs_of_exec (by decide), by decide,
    runs_of_resume (f := .dispatch .l10to15 0x2800 13 [14, 15] .beforeLine) ⟨rfl, nofun, nofun⟩ rfl (by decide)⟩

/-- A line registered before, and an operation that is no registration; a registration going on. -/
theorem witness_TableIsTheRegistrationsAlone :
    (∃ t, pending.runs .vecL10to15 t) ∧ pending.ilr.table[(13 : LineNo)].valid = true ∧
    ∃ t, pending.runs (.ilrRegister 13 1 0) t :=
  ⟨runs_of_exec (by decide), by decide,
    runs_of_resume (f := .ilrRegister 13 (.argument 0)) ⟨13, 1, 0, rfl, rfl⟩ rfl (by decide)⟩

/-- A flag that is set, a flag that is cleared, and one that is cleared after a suspension. -/
theorem witness_PendingFlagOwners :
    (after (.envEdge .fall 13) armed (fun t => pendBit t.ilr.pend 13) = some true ∧ pendBit armed.ilr.pend 13 = false) ∧
    (after .vecL10to15 pending (fun t => pendBit t.ilr.pend 13) = some false ∧ pendBit pending.ilr.pend 13 = true) ∧
    (nextOf (resume (.dispatch .l10to15 0x2000 13 [14, 15] .beforeLine) pending)).map (fun t => pendBit t.ilr.pend 13) =
      some false := by
  decide

theorem witness_RingRoles :
    (∃ t, sending.runs .usartIrq t) ∧ (∃ t, received.runs (.btRead 0x200 4) t) ∧ ∃ t, ready.runs (.btWrite 0x100 3) t :=
  ⟨runs_of_exec (by decide), runs_of_resume (f := .btRead 0x200 4 1) rfl rfl (by decide),
    runs_of_resume (f := .btWrite 0x100 3 (.beforeByte 1 1)) rfl rfl (by decide)⟩

/-- Turned on by a write, and by one that goes on; turned off by the handler, which finds TX empty. -/
theorem witness_TransmitInterruptOwners :
    ready.DormantWf ∧ ready.us.txeie = false ∧ after (.btWrite 0x100 1) ready (·.us.txeie) = some true ∧
    (nextOf (resume (.btWrite 0x100 3 (.beforeArm 3)) ready)).map (·.us.txeie) = some true ∧
    after .usartIrq { ready with us := { ready.us with txeie := true } } (·.us.txeie) = some false :=
  ⟨(fun h => by cases h), by decide⟩

theorem witness_StimulusIsAnInput : (∃ t, small.runs .envTxe t) ∧ ∃ t, ticking.runs .nowMicros t :=
  ⟨runs_of_exec (by decide), runs_of_resume (f := .nowMicros 2 (.haveT1 100)) rfl rfl (by decide)⟩

theorem witness_TracesOnlyGrow : (nextOf (step (sending.load [0x82000000]))).isSome = true := by decide

/-- An enabled vector and an unmasked line, an operation that completes and one that goes on. -/
theorem witness_SourcesStayEnabled :
    ((small.setVector .tick { en := true, prio := 0 }).vectorAttr .tick).en = true ∧
    armed.ilr.attr[(13 : LineNo)].unmask = true ∧ (∃ t, armed.runs .usartIrq t) ∧ ∃ t, armed.runs .vecL10to15 t :=
  ⟨by decide, by decide, runs_of_exec (by decide),
    runs_of_resume (f := .dispatch .l10to15 0x2000 13 [14, 15] .beforeLine) ⟨rfl, nofun, nofun⟩ rfl (by decide)⟩

theorem witness_HandlersCommute :
    ticking.Scripted ∧ Instr.tickIrq ≠ .usartIrq ∧
    ((nextOf (exec .tickIrq ticking)).bind (fun s => nextOf (exec .usartIrq s))).isSome = true := by
  unfold State.Scripted
  decide

theorem witness_NestingIsBounded : inCallback.Inv := inv_inCallback

end Sys2Proof.Tests
end

section
/-! The sizes the ring constructor accepts, and the empty ring it gives (R7, R30). -/

namespace Sys2Proof.Machine.Ring

@[simp] theorem ofSize_size (n : Nat) : (ofSize n).size = n := by
  rw [size, ofSize, List.length_replicate]

@[simp] theorem ofSize_count (n : Nat) : (ofSize n).count = 0 := by
  have hhead : (ofSize n).head = 0 := rfl
  have htail : (ofSize n).tail = 0 := rfl
  rw [count, hhead, htail, ofSize_size, Nat.sub_zero, Nat.zero_add, Nat.mod_self]

@[simp] theorem ofSize_space (n : Nat) : (ofSize n).space = n - 1 := by
  rw [space, ofSize_size, ofSize_count, Nat.sub_zero]

theorem goodSize_two_pow {k : Nat} (hk : 1 ≤ k) : goodSize (2 ^ k) = true := by
  have hle : 2 ^ 1 ≤ 2 ^ k := Nat.pow_le_pow_right (by decide) hk
  simpa [goodSize, Nat.log2_two_pow] using hle

/-- The exponent is the logarithm the test computes, and at least 1 because the size is at least 2. -/
theorem goodSize_iff (n : Nat) : goodSize n = true ↔ ∃ k, 1 ≤ k ∧ n = 2 ^ k := by
  constructor
  · intro h
    have htwo : 2 ≤ n := goodSize_two_le h
    have hpow : 2 ^ n.log2 = n := by
      rw [goodSize, Bool.and_eq_true, decide_eq_true_eq, decide_eq_true_eq] at h
      exact h.2
    have hlog : 1 ≤ n.log2 := (Nat.le_log2 (by omega)).2 htwo
    exact ⟨n.log2, hlog, hpow.symm⟩
  · rintro ⟨k, hk, rfl⟩
    exact goodSize_two_pow hk

theorem make?_eq_none_iff (n : Nat) : make? n = none ↔ ¬ goodSize n = true := by
  rw [make?, ite_eq_right_iff]
  exact imp_congr_right fun _ => iff_false_intro (Option.some_ne_none _)

theorem eq_ofSize_of_make? {n : Nat} {r : Ring} (h : make? n = some r) : r = ofSize n := by
  rw [make?, Option.ite_none_right_eq_some] at h
  exact (Option.some.inj h.2).symm

end Sys2Proof.Machine.Ring

namespace Sys2Proof

open Machine

/-- Settles O4: the size test is exactly "a power of two of at least 2", and an accepted ring is the empty one (R7). -/
theorem ringConstructorRejects : Obligations.RingConstructorRejects := by
  intro n
  constructor
  · rw [Ring.make?_eq_none_iff, Ring.goodSize_iff]
  · intro r h
    obtain rfl := Ring.eq_ofSize_of_make? h
    exact ⟨Ring.ofSize_size n, Ring.ofSize_count n, Ring.ofSize_space n⟩

end Sys2Proof
end

section
/-! What each interruptible operation leaves unchanged, entered or going on from a suspension, read off its rule (R28, R32,
R64, R237). -/

namespace Sys2Proof.Machine

/-! ### Suspending, and passing points -/

/-- `u` is `s` with some points passed: arrivals are used up from the front and nothing else is changed. -/
def State.passed (s u : State) : Prop := ∃ a, a <:+ s.arrivals ∧ u = s.setArrivals a

theorem State.passed_refl (s : State) : s.passed s := ⟨s.arrivals, List.suffix_rfl, rfl⟩

theorem State.passed.setArrivals {s u : State} (h : s.passed u) {a : List Arrival} (ha : a <:+ u.arrivals) :
    s.passed (u.setArrivals a) := by
  obtain ⟨b, hb, rfl⟩ := h
  exact ⟨a, ha.trans hb, rfl⟩

/-- What is in flight is unchanged or has one operation in `F` suspended on top, and arrivals are used up from the front. -/
def State.suspendsIn (F : Frame → Prop) (s t : State) : Prop :=
  (t.frames = s.frames ∨ ∃ f, F f ∧ t.frames = f :: s.frames) ∧ t.arrivals <:+ s.arrivals

theorem State.suspendsIn.mono {F G : Frame → Prop} {s t : State} (h : s.suspendsIn F t) (hFG : ∀ f, F f → G f) :
    s.suspendsIn G t :=
  ⟨h.1.imp_right fun ⟨f, hf, e⟩ => ⟨f, hFG f hf, e⟩, h.2⟩

/-- An operation with no preemption point suspends nothing and uses up no arrival. -/
theorem State.suspendsIn_of_eq {F : Frame → Prop} {s t : State} (frames : t.frames = s.frames)
    (arrivals : t.arrivals = s.arrivals) : s.suspendsIn F t :=
  ⟨.inl frames, arrivals ▸ List.suffix_rfl⟩

/-! ### `NOW_MICROS` -/

theorem isOf_nowMicros (left : Nat) (point : MicrosPoint) : (Frame.nowMicros left point).isOf .nowMicros := rfl

/-- `NOW_MICROS` writes the result registers alone. -/
theorem microsRule_keeps (limit : Nat) (s : State) : MicrosRule limit s.passed
    (fun t => s.keeps .nowMicros t ∧ s.suspendsIn (Frame.isOf .nowMicros) t) where
  pass _ _ h ha := h.setArrivals ha
  haveT1 := by
    rintro _ left ⟨a, ha, rfl⟩ -
    exact ⟨rfl, .inr ⟨_, isOf_nowMicros _ _, rfl⟩, ha⟩
  haveCvr := by
    rintro _ left t1 ⟨a, ha, rfl⟩ - -
    exact ⟨rfl, .inr ⟨_, isOf_nowMicros _ _, rfl⟩, ha⟩
  mismatch := by
    rintro _ left ⟨a, ha, rfl⟩ -
    exact ⟨rfl, .inr ⟨_, isOf_nowMicros _ _, rfl⟩, ha⟩
  done := by
    rintro _ v ⟨a, ha, rfl⟩
    exact ⟨rfl, .inl rfl, ha⟩

theorem execNowMicros_keeps (s : State) :
    Holds (fun t => s.keeps .nowMicros t ∧ s.suspendsIn (Frame.isOf .nowMicros) t) (execNowMicros s) :=
  (microsRule_keeps _ s).exec s s.passed_refl

theorem resumeNowMicros_keeps (left : Nat) (point : MicrosPoint) (s : State) :
    Holds (fun t => s.keeps .nowMicros t ∧ s.suspendsIn (Frame.isOf .nowMicros) t) (resumeNowMicros left point s) :=
  (microsRule_keeps _ s).resume (Nat.lt_succ_self left) point s s.passed_refl
    ⟨rfl, .inr ⟨_, isOf_nowMicros _ _, rfl⟩, List.suffix_rfl⟩

/-! ### `ILR_REGISTER` -/

/-- A store in the line table writes one entry. -/
theorem storeTable_table_other (s : State) {l k : LineNo} (x : TableStore) (h : k ≠ l) :
    (storeTable s l x).ilr.table[k] = s.ilr.table[k] := by
  cases x <;> simp [h]

/-- No store in the line table returns a line to UNREGISTERED (R26). -/
theorem storeTable_valid {s : State} (l : LineNo) (x : TableStore) {k : LineNo} (h : s.ilr.table[k].valid = true) :
    (storeTable s l x).ilr.table[k].valid = true := by
  rw [Fin.getElem_fin] at h
  cases x <;> simp only [storeTable_callback, storeTable_argument, storeCallback_table, storeArgument_table,
    Fin.getElem_fin] <;> split <;> simp [h]

@[simp] theorem storeTable_frames (s : State) (l : LineNo) (x : TableStore) : (storeTable s l x).frames = s.frames := by
  cases x <;> rfl

@[simp] theorem storeTable_arrivals (s : State) (l : LineNo) (x : TableStore) :
    (storeTable s l x).arrivals = s.arrivals := by
  cases x <;> rfl

theorem execIlrRegister_keeps (line : Byte) (callback arg : Word) (s : State) :
    Holds (fun t => s.keeps (.ilrRegister line callback arg) t ∧ s.suspendsIn (Frame.isOf (.ilrRegister line callback arg)) t)
      (execIlrRegister line callback arg s) := by
  have other {l k : LineNo} (hl : l.val = line.toNat) (hk : k.val ≠ line.toNat) : k ≠ l := fun e => hk (e ▸ hl)
  refine holds_ilrRegister ⟨⟨rfl, fun _ _ => rfl⟩, State.suspendsIn_of_eq rfl rfl⟩ ?suspended ?done
  case suspended =>
    intro l x y hl _ _
    have hf : (Frame.ilrRegister l y).isOf (.ilrRegister line callback arg) := ⟨line, callback, arg, hl.symm, rfl⟩
    refine ⟨⟨?_, fun k hk => storeTable_table_other _ x (other hl hk)⟩, .inr ⟨_, hf, rfl⟩, ?_⟩
    · rw [storeTable_eq]
      rfl
    · simp [State.drawn]
  case done =>
    intro l x y a hl _ ha _
    refine ⟨⟨?_, fun k hk => ?_⟩, .inl ?_, ?_⟩
    · rw [storeTable_eq _ l y, storeTable_eq _ l x]
      rfl
    · exact (storeTable_table_other _ y (other hl hk)).trans (storeTable_table_other _ x (other hl hk))
    · simp [State.drawn]
    · simpa using ha

theorem registerSecond_keepsFrom (l : LineNo) (second : TableStore) (s : State) :
    Holds (fun t => s.keepsFrom (.ilrRegister l second) t ∧
        s.suspendsIn (fun g => ∀ i, (Frame.ilrRegister l second).isOf i → g.isOf i) t) (registerSecond l second s) := by
  refine holds_registerSecond ⟨⟨rfl, fun _ _ => rfl⟩, .inr ⟨_, fun _ h => h, rfl⟩, List.suffix_rfl⟩ fun a ha => ?_
  refine ⟨⟨?_, fun k hk => storeTable_table_other _ second hk⟩, .inl ?_, ?_⟩
  · rw [storeTable_eq]
    rfl
  · simp
  · simpa using ha

/-! ### `BT_WRITE` -/

theorem isOf_btWrite (data length : Word) (point : WritePoint) :
    (Frame.btWrite data length point).isOf (.btWrite data length) := rfl

/-- `BT_WRITE` under way: TX has taken or refused bytes, its tail untouched (R32), and points have been passed. -/
def State.fillingTx (s u : State) : Prop :=
  ∃ buf head drop a, a <:+ s.arrivals ∧ u = (s.setTx { s.tx with buf := buf, head := head, drop := drop }).setArrivals a

theorem State.fillingTx_refl (s : State) : s.fillingTx s := ⟨_, _, _, _, List.suffix_rfl, rfl⟩

theorem writeFrameRule_keeps (data length : Word) (s : State) : WriteFrameRule data length s.fillingTx
    (fun t => s.keeps (.btWrite data length) t ∧ s.suspendsIn (Frame.isOf (.btWrite data length)) t) where
  pass := by
    rintro _ a ⟨buf, head, drop, b, hb, rfl⟩ ha
    exact ⟨buf, head, drop, a, ha.trans hb, rfl⟩
  store := by
    rintro _ c tx ⟨buf, head, drop, b, hb, rfl⟩ hp
    obtain ⟨-, rfl⟩ := Ring.push_eq_some hp
    exact ⟨_, _, drop, b, hb, rfl⟩
  drop := by
    rintro _ n ⟨buf, head, drop, b, hb, rfl⟩
    exact ⟨buf, head, _, b, hb, rfl⟩
  suspended := by
    rintro _ point ⟨buf, head, drop, b, hb, rfl⟩
    exact ⟨rfl, .inr ⟨_, isOf_btWrite data length point, rfl⟩, hb⟩
  idle := by
    rintro _ v ⟨buf, head, drop, b, hb, rfl⟩
    exact ⟨rfl, .inl rfl, hb⟩
  armed := by
    rintro _ v ⟨buf, head, drop, b, hb, rfl⟩
    exact ⟨rfl, .inl rfl, hb⟩

theorem execBtWrite_keeps (data length : Word) (s : State) :
    Holds (fun t => s.keeps (.btWrite data length) t ∧ s.suspendsIn (Frame.isOf (.btWrite data length)) t)
      (execBtWrite data length s) := by
  unfold execBtWrite
  split
  · split
    · exact ⟨rfl, State.suspendsIn_of_eq rfl rfl⟩
    · exact (writeFrameRule_keeps data length s).bytes _ _ _ s s.fillingTx_refl
  · trivial

/-- Past its last byte `BT_WRITE` only arms the transmit-interrupt and answers. -/
theorem writeArm_keepsFrom (data length : Word) (accepted : Nat) (s : State) :
    Holds (fun t => s.keepsFrom (.btWrite data length (.beforeArm accepted)) t ∧
      s.suspendsIn (Frame.isOf (.btWrite data length)) t) (writeArm data length accepted s) := by
  refine holds_atPoint ⟨rfl, .inr ⟨_, isOf_btWrite data length _, rfl⟩, List.suffix_rfl⟩ fun a ha => ?_
  unfold writeFinish
  split
  · exact ⟨rfl, .inl rfl, ha⟩
  · exact ⟨rfl, .inl rfl, ha⟩

theorem resumeBtWrite_keepsFrom (data length : Word) (point : WritePoint) (s : State) :
    Holds (fun t => s.keepsFrom (.btWrite data length point) t ∧ s.suspendsIn (Frame.isOf (.btWrite data length)) t)
      (resumeBtWrite data length point s) := by
  cases point with
  | beforeByte i accepted => exact (writeFrameRule_keeps data length s).resume _ s.fillingTx_refl
  | beforeArm accepted => exact writeArm_keepsFrom data length accepted s

/-! ### `BT_READ` -/

theorem isOf_btRead (output maxLength : Word) (n : Nat) :
    (Frame.btRead output maxLength n).isOf (.btRead output maxLength) := rfl

/-- Every DMEM address but those of the transfer from byte `n` on reads as before. -/
def State.memoryBut (output maxLength : Word) (n : Nat) (s u : State) : Prop :=
  ∀ a : Word, (∀ k, n ≤ k → k < maxLength.toNat → a ≠ transferAddress output k) → u.memRead a = s.memRead a

/-- `BT_READ` under way from byte `n`, now at byte `k`: RX's tail has moved, the bytes from `n` to `k` are written, and
points have been passed. -/
def State.drainingRx (output maxLength : Word) (n : Nat) (s : State) (k : Nat) (u : State) : Prop :=
  n ≤ k ∧ s.memoryBut output maxLength n u ∧
    ∃ tail dmem a, a <:+ s.arrivals ∧ u = ((s.setRx { s.rx with tail := tail }).setDmem dmem).setArrivals a

theorem State.drainingRx_refl (output maxLength : Word) (n : Nat) (s : State) : s.drainingRx output maxLength n n s :=
  ⟨Nat.le_refl n, fun _ _ => rfl, _, _, _, List.suffix_rfl, rfl⟩

theorem readRule_keepsFrom (output maxLength : Word) (n : Nat) (s : State) :
    ReadRule output maxLength (s.drainingRx output maxLength n)
      (fun t => s.keepsFrom (.btRead output maxLength n) t ∧ s.suspendsIn (Frame.isOf (.btRead output maxLength)) t) where
  pass := by
    rintro k _ a ⟨hk, hm, tail, dmem, b, hb, rfl⟩ ha
    exact ⟨hk, hm, tail, dmem, a, ha.trans hb, rfl⟩
  copy := by
    rintro k _ c rx ⟨hk, hm, tail, dmem, b, hb, rfl⟩ hlt hp
    obtain ⟨-, -, rfl⟩ := Ring.pop_eq_byte hp
    refine ⟨by omega, fun a ha => ?_, _, _, b, hb, rfl⟩
    exact (memRead_memWrite_other _ c (ha k hk hlt)).trans (hm a ha)
  beforeByte := by
    rintro k _ ⟨-, hm, tail, dmem, b, hb, rfl⟩ -
    exact ⟨⟨rfl, hm⟩, .inr ⟨_, isOf_btRead output maxLength k, rfl⟩, hb⟩
  done := by
    rintro k _ ⟨-, hm, tail, dmem, b, hb, rfl⟩ -
    exact ⟨⟨rfl, hm⟩, .inl rfl, hb⟩

theorem resumeBtRead_keepsFrom (output maxLength : Word) (n : Nat) (s : State) :
    Holds (fun t => s.keepsFrom (.btRead output maxLength n) t ∧ s.suspendsIn (Frame.isOf (.btRead output maxLength)) t)
      (resumeBtRead output maxLength n s) :=
  (readRule_keepsFrom output maxLength n s).resume (s.drainingRx_refl output maxLength n)
    fun _ => ⟨⟨rfl, fun _ _ => rfl⟩, State.suspendsIn_of_eq rfl rfl⟩

/-- A `BT_READ` that goes on from a byte leaves what the whole operation leaves. -/
theorem keeps_of_keepsFrom_btRead {output maxLength : Word} {n : Nat} {s t : State}
    (h : s.keepsFrom (.btRead output maxLength n) t) : s.keeps (.btRead output maxLength) t :=
  ⟨h.1, fun a ha => h.2 a fun k _ hk => ha k hk⟩

theorem execBtRead_keeps (output maxLength : Word) (s : State) :
    Holds (fun t => s.keeps (.btRead output maxLength) t ∧ s.suspendsIn (Frame.isOf (.btRead output maxLength)) t)
      (execBtRead output maxLength s) := by
  have nothing : s.keepsFrom (.btRead output maxLength 0) (s.setOut { res := 0, ok := true }) := ⟨rfl, fun _ _ => rfl⟩
  exact holds_mono ((readRule_keepsFrom output maxLength 0 s).exec (s.drainingRx_refl output maxLength 0)
    ⟨nothing, State.suspendsIn_of_eq rfl rfl⟩) fun t h => ⟨keeps_of_keepsFrom_btRead h.1, h.2⟩

/-! ### `DISPATCH` and the vector entries -/

/-- A handler of vector `v` under way with the lines in `p` to service: only flags in `p` are changed and only by clearing
them, the callback trace grows at its end, and arrivals are used up from the front. -/
structure State.Serviced (s : State) (p : LineNo → Bool) (u : State) : Prop where
  only : s.onlyDispatched u p
  cleared : ∀ l, pendBit s.ilr.pend l = false → pendBit u.ilr.pend l = false
  calls : s.calls <+: u.calls
  arrivals : u.arrivals <:+ s.arrivals

theorem State.serviced_refl (s : State) (p : LineNo → Bool) : s.Serviced p s :=
  ⟨⟨rfl, fun _ _ => rfl⟩, fun _ h => h, List.prefix_rfl, List.suffix_rfl⟩

variable {s u : State} {p : LineNo → Bool}

theorem State.Serviced.setArrivals (h : s.Serviced p u) {a : List Arrival} (ha : a <:+ u.arrivals) :
    s.Serviced p (u.setArrivals a) where
  only := ⟨by rw [h.only.1]; rfl, h.only.2⟩
  cleared := h.cleared
  calls := h.calls
  arrivals := ha.trans h.arrivals

theorem State.Serviced.setFrames (h : s.Serviced p u) (frames : List Frame) : s.Serviced p (u.setFrames frames) where
  only := ⟨by rw [h.only.1]; rfl, h.only.2⟩
  cleared := h.cleared
  calls := h.calls
  arrivals := h.arrivals

theorem State.Serviced.acknowledge (h : s.Serviced p u) {l : LineNo} (hl : p l = true) :
    s.Serviced p (u.setPend l false) where
  only := by
    refine ⟨by rw [h.only.1]; rfl, fun k hk => ?_⟩
    have hne : k ≠ l := fun e => by rw [e, hl] at hk; cases hk
    exact (pendBit_withPendBit_other _ _ hne).trans (h.only.2 k hk)
  cleared k hk := by
    by_cases hne : k = l
    · rw [hne]
      exact pendBit_withPendBit_same _ _ _
    · exact (pendBit_withPendBit_other _ _ hne).trans (h.cleared k hk)
  calls := h.calls
  arrivals := h.arrivals

theorem State.Serviced.invoke (h : s.Serviced p u) (l : LineNo) (plan : List (List Instr)) :
    s.Serviced p ((emitCall u l).setCallbackPlan plan) where
  only := ⟨by rw [h.only.1]; rfl, h.only.2⟩
  cleared := h.cleared
  calls := h.calls.trans (List.prefix_append _ _)
  arrivals := h.arrivals

/-- All a handler of lines does, whose lines as far as the snapshot holds them are in `p`. -/
theorem dispatchRule_serviced {v : VecId} {snap : BitVec 16} {due : List LineNo} (s : State) {p : LineNo → Bool}
    (hp : ∀ l ∈ due, pendBit snap l = true → p l = true) {F : Frame → Prop}
    (hF : ∀ l rest point, F (.dispatch v snap l rest point)) :
    DispatchRule v snap due (fun u => s.Serviced p u ∧ u.frames = s.frames)
      (fun t => s.Serviced p t ∧ s.suspendsIn F t) where
  pass _ _ h ha := ⟨h.1.setArrivals ha, h.2⟩
  acknowledge _ l h hl hb := ⟨h.1.acknowledge (hp l hl hb), h.2⟩
  invoke _ l h _ := ⟨h.1.invoke l _, h.2⟩
  suspended _ l rest point h := ⟨h.1.setFrames _, .inr ⟨_, hF l rest point, by rw [← h.2]; rfl⟩, h.1.arrivals⟩
  returned _ h := ⟨h.1, .inl h.2, h.1.arrivals⟩

/-- Each operation that is a handler of lines is `dispatch` over a range of lines it may service. -/
theorem exec_lineHandler {i : Instr} {v : VecId} (hv : handlerVector? i = some v) (ht : i ≠ .tickIrq) (hu : i ≠ .usartIrq) :
    ∃ first last p, (∀ s, exec i s = runDispatch v first last s) ∧ (∀ l ∈ lineRange first last, p l = true) ∧
      ∀ s t : State, s.onlyDispatched t p → s.keeps i t := by
  cases i with
  | tickIrq => exact absurd rfl ht
  | usartIrq => exact absurd rfl hu
  | dispatch first last => cases hv; exact ⟨first, last, _, fun _ => rfl, by simp, fun _ _ h => h⟩
  | vecL0 => cases hv; exact ⟨0, 0, _, fun _ => rfl, by decide, fun _ _ h => h⟩
  | vecL1 => cases hv; exact ⟨1, 1, _, fun _ => rfl, by decide, fun _ _ h => h⟩
  | vecL2 => cases hv; exact ⟨2, 2, _, fun _ => rfl, by decide, fun _ _ h => h⟩
  | vecL3 => cases hv; exact ⟨3, 3, _, fun _ => rfl, by decide, fun _ _ h => h⟩
  | vecL4 => cases hv; exact ⟨4, 4, _, fun _ => rfl, by decide, fun _ _ h => h⟩
  | vecL5to9 => cases hv; exact ⟨5, 9, _, fun _ => rfl, by decide, fun _ _ h => h⟩
  | vecL10to15 => cases hv; exact ⟨10, 15, _, fun _ => rfl, by decide, fun _ _ h => h⟩
  | _ => cases hv

theorem exec_lineHandler_serviced {i : Instr} {v : VecId} (hv : handlerVector? i = some v) (ht : i ≠ .tickIrq)
    (hu : i ≠ .usartIrq) (s : State) :
    Holds (fun t => ∃ p, s.Serviced p t ∧ s.keeps i t ∧ s.suspendsIn (Frame.isOf i) t) (exec i s) := by
  obtain ⟨first, last, p, hexec, hp, hkeeps⟩ := exec_lineHandler hv ht hu
  have R := dispatchRule_serviced (snap := s.ilr.pend) s (fun l hl _ => hp l hl)
    (F := Frame.isOf i) (v := v) fun _ _ _ => ⟨hv, ht, hu⟩
  rw [hexec]
  exact holds_mono (R.run ⟨s.serviced_refl p, rfl⟩) fun t h => ⟨p, h.1, hkeeps s t h.1.only, h.2⟩

theorem resumeDispatch_serviced (v : VecId) (snap : BitVec 16) (l : LineNo) (rest : List LineNo) (point : DispatchPoint)
    (s : State) :
    Holds (fun t => s.Serviced (fun k => decide (k ∈ point.linesToCome l rest) && pendBit snap k) t ∧
        s.suspendsIn (fun g => ∀ i, (Frame.dispatch v snap l rest point).isOf i → g.isOf i) t)
      (resumeDispatch v snap l rest point s) := by
  have R := dispatchRule_serviced (v := v) (snap := snap) (due := point.linesToCome l rest) s
    (p := fun k => decide (k ∈ point.linesToCome l rest) && pendBit snap k) (fun k hk hb => by simp [hk, hb])
    (F := fun g => ∀ i, (Frame.dispatch v snap l rest point).isOf i → g.isOf i) fun _ _ _ _ h => h
  refine R.resume (fun k hk => ?_) (fun e => ?_) s ⟨s.serviced_refl _, rfl⟩
  · cases point with
    | beforeLine => exact List.mem_cons_of_mem _ hk
    | acknowledged | inCallback _ => exact hk
  · subst e
    exact List.mem_cons_self

end Sys2Proof.Machine
end

section
/-! The frame of every operation and every step (R21, R237), and the whole-machine rules read off it. -/

namespace Sys2Proof.Machine

/-! ### Operations with no preemption point -/

theorem onlyVectors_refl (s : State) (vs : List VecId) : s.onlyVectors s vs := fun _ _ => rfl

/-- Where one vector's attributes are replaced those of the others are kept. -/
theorem onlyVectors_of_set {s t : State} {v : VecId} {x : VectorAttr} (h : t.nvic = s.nvic.set (vectorIndex v) x) :
    s.onlyVectors t [v] := fun w hw => by
  have hne : w ≠ v := by simpa using hw
  rw [State.vectorAttr, h]
  exact vectorAttr_setVector_other s x hne

theorem execTbInit_keeps (prio : Byte) (clockHz periodUs : Word) (s : State) :
    Holds (s.keeps (.tbInit prio clockHz periodUs)) (execTbInit prio clockHz periodUs s) := by
  unfold execTbInit
  split
  · trivial
  · split
    · exact ⟨rfl, onlyVectors_of_set rfl⟩
    · exact ⟨rfl, onlyVectors_refl s _⟩

theorem setPend_setLineAttr_eq (s : State) (l : LineNo) (a : LineAttr) (b : Bool) :
    (s.setLineAttr l a).setPend l b =
      s.setIlr { s.ilr with attr := s.ilr.attr.set l a, pend := withPendBit s.ilr.pend l b } := rfl

/-- The writes of a configuration, whatever the values. -/
theorem keeps_ilrConfig (prio : Byte) (gok : Bool) (edge : EdgeMode) (mode : PinMode) (port : BitVec 4) (pin : LineNo)
    (s : State) (a : LineAttr) (b : Bool) (x : VectorAttr) (n : Nat) (out : Results) :
    s.keeps (.ilrConfig prio gok edge mode port pin)
      (((((s.setLineAttr pin a).setPend pin b).setVector (lineVector pin) x).setDraws n).setOut out) := by
  rw [setPend_setLineAttr_eq]
  refine ⟨rfl, onlyVectors_of_set rfl, fun l hl => ⟨?_, pendBit_withPendBit_other _ b hl⟩⟩
  exact (setLineAttr_attr s pin l a).trans (if_neg hl)

theorem execIlrConfig_keeps (prio : Byte) (gok : Bool) (edge : EdgeMode) (mode : PinMode) (port : BitVec 4) (pin : LineNo)
    (s : State) :
    Holds (s.keeps (.ilrConfig prio gok edge mode port pin)) (execIlrConfig prio gok edge mode port pin s) := by
  unfold execIlrConfig
  split
  · exact keeps_ilrConfig prio gok edge mode port pin s _ _ _ s.draws _
  · exact keeps_ilrConfig prio gok edge mode port pin s _ _ _ (s.draws + 5) _

theorem execBtInit_keeps (prio : Byte) (gok : Bool) (rxmode txmode : PinMode) (pclkHz baud : Word) (s : State) :
    Holds (s.keeps (.btInit prio gok rxmode txmode pclkHz baud)) (execBtInit prio gok rxmode txmode pclkHz baud s) := by
  unfold execBtInit
  split
  · trivial
  · split
    · split
      · trivial
      · rw [transportStarted_eq]
        exact ⟨rfl, onlyVectors_of_set rfl⟩
    · exact ⟨rfl, onlyVectors_refl s _⟩

theorem execTickIrq_keeps (s : State) : Holds (s.keeps .tickIrq) (execTickIrq s) := by
  unfold execTickIrq
  split
  · exact rfl
  · trivial

/-- Reception keeps RX's tail and the transmitting half; transmission keeps TX's head and storage (R32, R188). -/
theorem usartRule_keeps (s : State) : UsartRule s (s.keeps .usartIrq) (s.keeps .usartIrq) where
  errors _ := rfl
  queued := by
    rintro rx - - hp
    obtain ⟨-, rfl⟩ := Ring.push_eq_some hp
    exact rfl
  dropped _ _ _ := rfl
  nothing _ _ := rfl
  quiet _ h := h
  disarmed u h _ _ := by
    show u.setUs _ = _
    rw [h]
    rfl
  sent := by
    rintro u b tx h - hp
    obtain ⟨-, -, rfl⟩ := Ring.pop_eq_byte hp
    show State.setTxLine _ _ = _
    rw [h]
    rfl

theorem execEnvEdge_keeps (dir : Direction) (line : LineNo) (s : State) :
    Holds (s.keeps (.envEdge dir line)) (execEnvEdge dir line s) := by
  unfold execEnvEdge
  split
  · exact ⟨rfl, fun l hl => pendBit_withPendBit_other _ true hl⟩
  · exact ⟨rfl, fun _ _ => rfl⟩

theorem execEnvRx_keeps (nf fe pe : Bool) (byte : Byte) (s : State) :
    Holds (s.keeps (.envRx nf fe pe byte)) (execEnvRx nf fe pe byte s) := by
  unfold execEnvRx Usart.received
  split
  · split
    · exact rfl
    · exact rfl
  · exact rfl

theorem execEnvTxe_keeps (s : State) : Holds (s.keeps .envTxe) (execEnvTxe s) := by
  unfold execEnvTxe
  split
  · exact rfl
  · exact rfl

/-! ### Every operation -/

/-- An operation with no preemption point keeps what is in flight and every arrival. -/
theorem keeps_suspendsIn {i : Instr} {s : State} {r : Result} {F : Frame → Prop} (h : Holds (s.keeps i) r)
    (same : ∀ t, s.keeps i t → t.frames = s.frames ∧ t.arrivals = s.arrivals) :
    Holds (fun t => s.keeps i t ∧ s.suspendsIn F t) r :=
  holds_mono h fun t ht => ⟨ht, State.suspendsIn_of_eq (same t ht).1 (same t ht).2⟩

theorem exec_keeps (i : Instr) (s : State) : Holds (fun t => s.keeps i t ∧ s.suspendsIn (Frame.isOf i) t) (exec i s) := by
  have lines {v : VecId} (hv : handlerVector? i = some v) (ht : i ≠ .tickIrq) (hu : i ≠ .usartIrq) :
      Holds (fun t => s.keeps i t ∧ s.suspendsIn (Frame.isOf i) t) (exec i s) :=
    holds_mono (exec_lineHandler_serviced hv ht hu s) fun _ ⟨_, _, hk, hs⟩ => ⟨hk, hs⟩
  cases i with
  | nowTicks | nowMillis | elapsedMs _ _ | elapsedUs _ _ | baudDiv _ _ | btStat _ | envCvr _ =>
    exact ⟨rfl, State.suspendsIn_of_eq rfl rfl⟩
  | nowMicros => exact execNowMicros_keeps s
  | ilrRegister line callback arg => exact execIlrRegister_keeps line callback arg s
  | btWrite data length => exact execBtWrite_keeps data length s
  | btRead output maxLength => exact execBtRead_keeps output maxLength s
  | tbInit prio clockHz periodUs =>
    exact keeps_suspendsIn (execTbInit_keeps prio clockHz periodUs s)
      fun _ h => ⟨(congrArg State.frames h.1 :), (congrArg State.arrivals h.1 :)⟩
  | ilrConfig prio gok edge mode port pin =>
    exact keeps_suspendsIn (execIlrConfig_keeps prio gok edge mode port pin s)
      fun _ h => ⟨(congrArg State.frames h.1 :), (congrArg State.arrivals h.1 :)⟩
  | btInit prio gok rxmode txmode pclkHz baud =>
    exact keeps_suspendsIn (execBtInit_keeps prio gok rxmode txmode pclkHz baud s)
      fun _ h => ⟨(congrArg State.frames h.1 :), (congrArg State.arrivals h.1 :)⟩
  | envEdge dir line =>
    exact keeps_suspendsIn (execEnvEdge_keeps dir line s)
      fun _ h => ⟨(congrArg State.frames h.1 :), (congrArg State.arrivals h.1 :)⟩
  | tickIrq =>
    exact keeps_suspendsIn (execTickIrq_keeps s)
      fun _ h => ⟨(congrArg State.frames h :), (congrArg State.arrivals h :)⟩
  | usartIrq =>
    exact keeps_suspendsIn (usartRule_keeps s).exec
      fun _ h => ⟨(congrArg State.frames h :), (congrArg State.arrivals h :)⟩
  | envRx nf fe pe byte =>
    exact keeps_suspendsIn (execEnvRx_keeps nf fe pe byte s)
      fun _ h => ⟨(congrArg State.frames h :), (congrArg State.arrivals h :)⟩
  | envTxe =>
    exact keeps_suspendsIn (execEnvTxe_keeps s)
      fun _ h => ⟨(congrArg State.frames h :), (congrArg State.arrivals h :)⟩
  | dispatch _ _ | vecL0 | vecL1 | vecL2 | vecL3 | vecL4 | vecL5to9 | vecL10to15 => exact lines rfl nofun nofun

theorem resume_keepsFrom {f : Frame} (hf : f.issued? = none) (s : State) :
    Holds (fun t => s.keepsFrom f t ∧ s.suspendsIn (fun g => ∀ i, f.isOf i → g.isOf i) t) (resume f s) := by
  cases f with
  | nowMicros left point =>
    exact holds_mono (resumeNowMicros_keeps left point s) fun _ h => ⟨h.1, h.2.mono fun _ hg _ e => e ▸ hg⟩
  | ilrRegister l second => exact registerSecond_keepsFrom l second s
  | btWrite data length point =>
    exact holds_mono (resumeBtWrite_keepsFrom data length point s) fun _ h => ⟨h.1, h.2.mono fun _ hg _ e => e ▸ hg⟩
  | btRead output maxLength n =>
    exact holds_mono (resumeBtRead_keepsFrom output maxLength n s) fun _ h => ⟨h.1, h.2.mono fun _ hg _ e => e ▸ hg⟩
  | dispatch v snap l rest point =>
    rw [resume_dispatch hf]
    exact holds_mono (resumeDispatch_serviced v snap l rest point s) fun _ h => ⟨h.1.only, h.2⟩

/-! ### Every step -/

/-- All a step that answers a next state can be. -/
inductive StepOf (s t : State) : Prop
  /-- With nothing in flight the next operation of the stream runs. -/
  | fetched (i : Instr) (idle : s.frames = []) (ok : fetch s = .ok i) (run : exec i (s.advance i) = .next t)
  /-- What arrives at the present point happens. -/
  | arrived (i : Instr) (later : List Arrival) (waiting : s.arrivals = .deliver i :: later)
      (allowed : s.entryRefusal i = none) (run : exec i (s.setArrivals later) = .next t)
  /-- The operation in flight goes on. -/
  | resumed (f : Frame) (below : List Frame) (top : s.frames = f :: below) (own : f.issued? = none)
      (run : resume f (s.setFrames below) = .next t)
  /-- The callback of the handler in flight issues its next command. -/
  | issued (v : VecId) (snap : BitVec 16) (l : LineNo) (rest : List LineNo) (c : Instr) (cs : List Instr)
      (below : List Frame) (a : List Arrival) (top : s.frames = .dispatch v snap l rest (.inCallback (c :: cs)) :: below)
      (command : c.port = .cmd) (passed : a <:+ s.arrivals)
      (run : exec c ((s.setArrivals a).setFrames (.dispatch v snap l rest (.inCallback cs) :: below)) = .next t)

/-- A suspended operation either goes on itself or is a handler whose callback issues a command. -/
theorem Frame.issued?_cases (f : Frame) :
    f.issued? = none ∨ ∃ v snap l rest c cs, f = .dispatch v snap l rest (.inCallback (c :: cs)) := by
  unfold Frame.issued?
  split
  · exact .inr ⟨_, _, _, _, _, _, rfl⟩
  all_goals exact .inl rfl

theorem stepOf_resume {s t : State} {f : Frame} {below : List Frame} (top : s.frames = f :: below)
    (h : resume f (s.setFrames below) = .next t) : StepOf s t := by
  rcases f.issued?_cases with own | ⟨v, snap, l, rest, c, cs, rfl⟩
  · exact .resumed f below top own h
  · rw [resume_issued] at h
    split at h
    · next hc =>
      rw [passPoint_eq] at h
      exact .issued v snap l rest c cs below _ top hc (passPoint_arrivals_suffix (s.setFrames below)) h
    · cases h

theorem stepOf_step {s t : State} (h : step s = .next t) : StepOf s t := by
  unfold step at h
  split at h
  · next f below top =>
    unfold stepInFlight at h
    split at h
    · next i later waiting =>
      unfold arrive at h
      split at h
      · cases h
      · next allowed => exact .arrived i later waiting allowed h
    · exact stepOf_resume top h
  · next idle =>
    split at h
    · next i ok => exact .fetched i idle ok h
    · cases h

/-- Every well-formed suspended operation is some operation. -/
theorem Frame.exists_isOf {s : State} {f : Frame} (h : f.wf s = true) : ∃ i, f.isOf i := by
  cases f with
  | nowMicros left point => exact ⟨_, rfl⟩
  | btWrite data length point => exact ⟨_, rfl⟩
  | btRead output maxLength n => exact ⟨_, rfl⟩
  | ilrRegister l second =>
    have : (BitVec.ofNat 8 l.val).toNat = l.val := by
      have := l.isLt
      simp only [BitVec.toNat_ofNat]
      omega
    exact ⟨_, _, 0, 0, this, rfl⟩
  | dispatch v snap l rest point =>
    cases v with
    | tick | serial => cases h
    | l0 => exact ⟨.vecL0, rfl, nofun, nofun⟩
    | l1 => exact ⟨.vecL1, rfl, nofun, nofun⟩
    | l2 => exact ⟨.vecL2, rfl, nofun, nofun⟩
    | l3 => exact ⟨.vecL3, rfl, nofun, nofun⟩
    | l4 => exact ⟨.vecL4, rfl, nofun, nofun⟩
    | l5to9 => exact ⟨.vecL5to9, rfl, nofun, nofun⟩
    | l10to15 => exact ⟨.vecL10to15, rfl, nofun, nofun⟩

/-- Every step is one operation running, entered or going on, from a state that differs in the position, the arrivals and
what is in flight alone. -/
theorem step_runs {s t : State} (hf : s.FramesWf) (h : step s = .next t) :
    ∃ (i : Instr) (u : State), u.runs i t ∧ u = { s with sp := u.sp, arrivals := u.arrivals, frames := u.frames } ∧
      u.arrivals <:+ s.arrivals := by
  cases stepOf_step h with
  | fetched i idle ok run => exact ⟨i, s.advance i, .inl run, rfl, List.suffix_rfl⟩
  | arrived i later waiting allowed run =>
    exact ⟨i, s.setArrivals later, .inl run, rfl, waiting ▸ List.suffix_cons _ _⟩
  | resumed f below top own run =>
    obtain ⟨i, hi⟩ := Frame.exists_isOf (hf.1 f (top ▸ List.mem_cons_self))
    exact ⟨i, s.setFrames below, .inr ⟨f, hi, own, run⟩, rfl, List.suffix_rfl⟩
  | issued v snap l rest c cs below a top command passed run => exact ⟨c, _, .inl run, rfl, passed⟩

end Sys2Proof.Machine

namespace Sys2Proof

open Machine

/-- Settles O44: the frame of each operation from its own rule, and of each step from what a step can be (R28, R32, R64,
R237). -/
theorem frameOfEveryOperation : Obligations.FrameOfEveryOperation :=
  ⟨fun i s _ h => holds_of_eq (exec_keeps i s) h, fun _ s _ hf h => holds_of_eq (resume_keepsFrom hf s) h,
    fun _ _ hf h => step_runs hf h⟩

end Sys2Proof
end

section
/-! Fetching (R21, R90, R93): how many words an operation takes, and word lists made of whole operations. -/

namespace Sys2Proof

/-! ### What decodes -/

/-- Decoding picks the opcode's row, takes as many operand words as the row says, and assembles them. -/
theorem decode_eq_ok {ws rest : List Word} {i : Instr} (h : decode ws = .ok (i, rest)) :
    ∃ w0 more row w1 w2, ws = w0 :: more ∧ opRow? (field w0 31 24) = some row ∧
      takeOperands row.words more = some (w1, w2, rest) ∧ assemble row.code w0 w1 w2 = .ok i := by
  unfold decode at h
  split at h
  · cases h
  · next w0 more =>
    split at h
    · cases h
    · next row hrow =>
      split at h
      · split at h
        · cases h
        · next w1 w2 rest' htake =>
          split at h
          · next hi => cases h; exact ⟨w0, more, row, w1, w2, rfl, hrow, htake, hi⟩
          · cases h
      · cases h

theorem opRow?_code {code : Nat} {row : OpRow} (h : opRow? code = some row) : row.code = code := by
  simpa using List.find?_some h

theorem dispatchSpelling_words (first last : LineNo) : (dispatchSpelling first last).words = 1 := by
  unfold dispatchSpelling
  split <;> rfl

/-- The operation that a row's opcode assembles to takes the row's number of words. -/
theorem assemble_words {code : Nat} {row : OpRow} {w0 w1 w2 : Word} {i : Instr} (hr : opRow? code = some row)
    (h : assemble code w0 w1 w2 = .ok i) : i.words = row.words := by
  unfold assemble at h
  split at h
  -- `BT_STAT`, whose selector may be reserved; `DISPATCH`, whose range has two spellings; an undefined opcode
  case h_13 =>
    split at h
    · cases hr; cases h; rfl
    · cases h
  case h_15 =>
    cases hr
    cases h
    exact dispatchSpelling_words _ _
  case h_21 => cases h
  all_goals
    cases hr
    cases h
    rfl

/-- No opcode of the table is undefined. -/
theorem assemble_ne_undefined {code op : Nat} {row : OpRow} {w0 w1 w2 : Word} (hr : opRow? code = some row) :
    assemble code w0 w1 w2 ≠ .error (.undefinedOpcode op) := by
  intro h
  unfold assemble at h
  split at h
  case h_13 => split at h <;> cases h
  case h_21 =>
    have defined : ∀ r ∈ opRows, r.code ∈ opRows.map OpRow.code := fun r hr => List.mem_map_of_mem hr
    have := defined row (List.mem_of_find?_eq_some hr)
    rw [opRow?_code hr] at this
    simp_all [opRows, timeBaseRows, lineRouterRows, byteTransportRows, eventRows]
  all_goals cases h

theorem Instr.words_cases (i : Instr) : i.words = 1 ∨ i.words = 3 := by
  cases i <;> simp [Instr.words]

/-- The words a row takes are those before the rest. -/
theorem takeOperands_eq_some {n : Nat} {more rest : List Word} {w1 w2 : Word} (hn : n = 1 ∨ n = 3)
    (h : takeOperands n more = some (w1, w2, rest)) : ∃ operands, operands.length + 1 = n ∧ more = operands ++ rest := by
  rcases hn with rfl | rfl
  · cases h
    exact ⟨[], rfl, rfl⟩
  · unfold takeOperands at h
    rw [if_pos rfl] at h
    split at h
    · cases h
      exact ⟨[w1, w2], rfl, rfl⟩
    · cases h

/-- What decodes stands before the rest and takes its own number of words (R21, R93). -/
theorem decode_consumes {ws rest : List Word} {i : Instr} (h : decode ws = .ok (i, rest)) :
    ∃ taken, taken.length = i.words ∧ ws = taken ++ rest := by
  obtain ⟨w0, more, row, w1, w2, rfl, hrow, htake, hi⟩ := decode_eq_ok h
  have hw : i.words = row.words := assemble_words hrow (opRow?_code hrow ▸ hi)
  obtain ⟨operands, hl, rfl⟩ := takeOperands_eq_some (hw ▸ i.words_cases) htake
  exact ⟨w0 :: operands, by rw [hw, ← hl]; rfl, rfl⟩

/-- Words are rejected for an undefined opcode only where the opcode has no row. -/
theorem opRow?_of_decode_undefined {w : Word} {ws : List Word} {op : Nat}
    (h : decode (w :: ws) = .error (.undefinedOpcode op)) : opRow? (field w 31 24) = none := by
  cases hrow : opRow? (field w 31 24) with
  | none => rfl
  | some row =>
    simp only [decode, hrow] at h
    split at h
    · split at h
      · cases h
      · split at h
        · cases h
        · next e he =>
          cases h
          exact absurd he (assemble_ne_undefined (by rw [opRow?_code hrow]; exact hrow))
    · cases h

/-! ### Word lists made of whole operations -/

/-- An opcode that is not in the map ends the walk over a stream. -/
theorem wellDelimited_undefined {w0 : Word} (h : opRow? (field w0 31 24) = none) (rest : List Word) :
    wellDelimited (w0 :: rest) = true := by
  rcases rest with _ | ⟨w1, _ | ⟨w2, more⟩⟩ <;> simp only [wellDelimited, h]

theorem opRow?_words {code : Nat} {row : OpRow} (h : opRow? code = some row) : row.words = 1 ∨ row.words = 3 := by
  have : ∀ r ∈ opRows, r.words = 1 ∨ r.words = 3 := by decide
  exact this row (List.mem_of_find?_eq_some h)

/-- The walk over a stream goes on after the words of an operation that is complete. -/
theorem wellDelimited_complete {w0 : Word} {operands : List Word} {row : OpRow} (hrow : opRow? (field w0 31 24) = some row)
    (hl : row.words = operands.length + 1) (rest : List Word) :
    wellDelimited (w0 :: operands ++ rest) = wellDelimited rest := by
  match operands with
  | [] => rcases rest with _ | ⟨w1, _ | ⟨w2, more⟩⟩ <;> simp_all [wellDelimited]
  | [w1] =>
    have := opRow?_words hrow
    simp only [List.length_cons, List.length_nil] at hl
    omega
  | [w1, w2] => simp_all [wellDelimited]
  | w1 :: w2 :: w3 :: more =>
    have := opRow?_words hrow
    simp only [List.length_cons] at hl
    omega

/-- The first word of an encoding has the opcode of a row that takes as many words as the encoding has. -/
def EncodedRow (ws : List Word) : Prop :=
  ∃ w0 operands row, ws = w0 :: operands ∧ opRow? (field w0 31 24) = some row ∧ row.words = operands.length + 1

theorem encodedRow_of_word0 {ws : List Word} {op : Nat} {parts : List (Nat × Nat)} {operands : List Word} {row : OpRow}
    (hw : ws = word0 op parts :: operands) (hop : op < 256) (hrow : opRow? op = some row)
    (hl : row.words = operands.length + 1) (hp : (parts.map (fun p => p.1 * 2 ^ p.2)).sum < 2 ^ 24) : EncodedRow ws :=
  ⟨_, operands, row, hw, by rw [opcode_word0 hop hp, hrow], hl⟩

/-- The value of a word's fields, one at a time. -/
theorem fieldSum_cons (v k : Nat) (parts : List (Nat × Nat)) :
    (((v, k) :: parts).map (fun p => p.1 * 2 ^ p.2)).sum = v * 2 ^ k + (parts.map (fun p => p.1 * 2 ^ p.2)).sum := by
  rw [List.map_cons, List.sum_cons]

theorem fieldSum_nil : (([] : List (Nat × Nat)).map (fun p => p.1 * 2 ^ p.2)).sum = 0 := rfl

theorem encodedRow_encode (i : Instr) : EncodedRow (encode i) := by
  cases i with
  | tbInit prio _ _ =>
    have := prio.isLt
    exact encodedRow_of_word0 rfl (by decide) rfl rfl (by simp only [fieldSum_cons, fieldSum_nil]; omega)
  | ilrRegister line _ _ =>
    have := line.isLt
    exact encodedRow_of_word0 rfl (by decide) rfl rfl (by simp only [fieldSum_cons, fieldSum_nil]; omega)
  | ilrConfig prio gok edge mode port pin =>
    have := prio.isLt
    have := flagCode_lt gok
    have := edge.code_lt
    have := mode.code_lt
    have := port.isLt
    have := pin.isLt
    exact encodedRow_of_word0 rfl (by decide) rfl rfl (by simp only [fieldSum_cons, fieldSum_nil]; omega)
  | btInit prio gok rxmode txmode _ _ =>
    have := prio.isLt
    have := flagCode_lt gok
    have := rxmode.code_lt
    have := txmode.code_lt
    exact encodedRow_of_word0 rfl (by decide) rfl rfl (by simp only [fieldSum_cons, fieldSum_nil]; omega)
  | btStat sel =>
    have := sel.code_lt
    exact encodedRow_of_word0 rfl (by decide) rfl rfl (by simp only [fieldSum_cons, fieldSum_nil]; omega)
  | dispatch first last =>
    have := first.isLt
    have := last.isLt
    exact encodedRow_of_word0 rfl (by decide) rfl rfl (by simp only [fieldSum_cons, fieldSum_nil]; omega)
  | envEdge dir line =>
    have := dir.code_lt
    have := line.isLt
    exact encodedRow_of_word0 rfl (by decide) rfl rfl (by simp only [fieldSum_cons, fieldSum_nil]; omega)
  | envRx nf fe pe byte =>
    have := byte.isLt
    have := flagCode_lt nf
    have := flagCode_lt fe
    have := flagCode_lt pe
    exact encodedRow_of_word0 rfl (by decide) rfl rfl (by simp only [fieldSum_cons, fieldSum_nil]; omega)
  | envCvr value =>
    have := value.isLt
    exact encodedRow_of_word0 rfl (by decide) rfl rfl (by simp only [fieldSum_cons, fieldSum_nil]; omega)
  | _ => exact encodedRow_of_word0 rfl (by decide) rfl rfl (by decide)

/-- The walk over a stream passes over the encodings of any operations. -/
theorem wellDelimited_flatMap_encode (is : List Instr) (ws : List Word) :
    wellDelimited (is.flatMap encode ++ ws) = wellDelimited ws := by
  induction is with
  | nil => rfl
  | cons i is ih =>
    obtain ⟨w0, operands, row, hw, hrow, hl⟩ := encodedRow_encode i
    rw [List.flatMap_cons, List.append_assoc, hw, wellDelimited_complete hrow hl, ih]

end Sys2Proof

namespace Sys2Proof.Machine

/-- What is fetched stands at the position, and the stream goes on after its words (R21). -/
theorem drop_after_decode {s : State} {i : Instr} {rest : List Word} (h : decode (s.stream.drop s.sp) = .ok (i, rest)) :
    s.stream.drop (s.sp + i.words) = rest := by
  obtain ⟨taken, hl, he⟩ := decode_consumes h
  rw [← List.drop_drop, he, ← hl, List.drop_left]

/-- Moving on by an operation that was fetched stays within the stream (R21). -/
theorem positionWf_advance {s : State} {i : Instr} (h : fetch s = .ok i) : (s.advance i).PositionWf := by
  unfold fetch at h
  split at h
  · cases h
  · split at h
    · split at h
      · next i' rest hd =>
        cases h
        obtain ⟨taken, hl, he⟩ := decode_consumes hd
        have := congrArg List.length he
        have := i.words_cases
        simp only [State.wordsAhead, List.length_drop, List.length_append] at *
        show s.sp + i.words ≤ s.stream.length
        omega
      · cases h
    · cases h

theorem step_of_decode {s : State} {i : Instr} {rest : List Word} (idle : s.frames = [])
    (hw : wellDelimited (s.stream.drop s.sp) = true) (hd : decode (s.stream.drop s.sp) = .ok (i, rest)) :
    step s = exec i { s with sp := s.sp + i.words } := by
  have hne : (s.stream.drop s.sp).isEmpty = false := by
    cases he : s.stream.drop s.sp with
    | nil => rw [he] at hd; cases hd
    | cons _ _ => rfl
  have hf : fetch s = .ok i := by
    simp only [fetch, State.wordsAhead, hne, hw, hd, if_true, Bool.false_eq_true, if_false]
  have hs : step s = exec i (s.advance i) := by simp only [step, idle, hf]
  exact hs

end Sys2Proof.Machine

namespace Sys2Proof

open Machine

/-- Settles O40: decoding consumes exactly the operation's words, and the walk over a stream passes over every encoding
(R21, R90, R93). -/
theorem stepRunsTheDecodedOperation : Obligations.StepRunsTheDecodedOperation := by
  refine ⟨fun s i rest idle hw hd => ⟨step_of_decode idle hw hd, drop_after_decode hd⟩, fun is _ => ⟨?_, fun w ws h => ?_⟩⟩
  · rw [← List.append_nil (is.flatMap encode), wellDelimited_flatMap_encode]
    rfl
  · rw [wellDelimited_flatMap_encode]
    exact wellDelimited_undefined (opRow?_of_decode_undefined h) ws

end Sys2Proof
end

section
/-! The invariant of the machine (log entry 20): it holds at reset and every step keeps it. -/

namespace Sys2Proof.Machine

/-! ### At reset -/

theorem inv_resetSized {nRx nTx : Nat} (hRx : Ring.goodSize nRx = true) (hTx : Ring.goodSize nTx = true) :
    (State.resetSized nRx nTx).Inv where
  memory := rfl
  rings := ⟨Ring.ofSize_wf hRx, Ring.ofSize_wf hTx⟩
  timer := rfl
  table l h := by simp [State.resetSized, LineEntry.unregistered] at h
  dormant _ := ⟨rfl, rfl, rfl, rfl, rfl, rfl⟩
  armed _ := .inl rfl
  frames := ⟨nofun, rfl, List.nodup_nil⟩
  position := Nat.le_refl 0

/-! ### Suspending and taking off the stack -/

/-- No command stands on top of what is in flight, so a command may run (R237). -/
def State.commandMayStand (s : State) : Prop := ∀ g below, s.frames = g :: below → g.isCommand = false

/-- A byte left waiting by a `BT_WRITE` in flight stays accounted for when more is suspended. -/
theorem armedWf_push {s : State} (h : s.ArmedWf) (f : Frame) : (s.setFrames (f :: s.frames)).ArmedWf := fun off =>
  (h off).imp_right fun ⟨g, hg, hs⟩ => ⟨g, List.mem_cons_of_mem _ hg, hs⟩

theorem armedWf_pushStored {s : State} {f : Frame} (h : f.hasStored = true) : (s.setFrames (f :: s.frames)).ArmedWf :=
  fun _ => .inr ⟨f, List.mem_cons_self, h⟩

theorem armedWf_pop {s : State} {f : Frame} {below : List Frame} (h : s.ArmedWf) (top : s.frames = f :: below)
    (hf : f.hasStored = false) : (s.setFrames below).ArmedWf := fun off =>
  (h off).imp_right fun ⟨g, hg, hs⟩ => by
    rw [top] at hg
    rcases List.mem_cons.1 hg with rfl | hg
    · rw [hf] at hs
      cases hs
    · exact ⟨g, hg, hs⟩

/-- Only what is in flight has changed: its two parts of the invariant are left to show. -/
theorem inv_setFrames {s : State} (h : s.Inv) {frames : List Frame} (hf : (s.setFrames frames).FramesWf)
    (ha : (s.setFrames frames).ArmedWf) : (s.setFrames frames).Inv where
  memory := h.memory
  rings := h.rings
  timer := h.timer
  table := h.table
  dormant := h.dormant
  armed := ha
  frames := hf
  position := h.position

theorem inv_pushCommand {s : State} (h : s.Inv) (top : s.commandMayStand) {f : Frame} (hf : f.wf s = true)
    (hv : f.vector? = none) : (s.setFrames (f :: s.frames)).Inv :=
  inv_setFrames h (framesWf_pushCommand h.frames top hf hv) (armedWf_push h.armed f)

theorem inv_pushHandler {s : State} (h : s.Inv) {v : VecId} (inactive : v ∉ s.activeVectors)
    (hv : VecId.ofLines v = true) (snap : BitVec 16) (l : LineNo) (rest : List LineNo) (point : DispatchPoint) :
    (s.setFrames (.dispatch v snap l rest point :: s.frames)).Inv :=
  inv_setFrames h (framesWf_pushHandler h.frames inactive hv snap l rest point) (armedWf_push h.armed _)

theorem inv_pop {s : State} (h : s.Inv) {f : Frame} {below : List Frame} (top : s.frames = f :: below)
    (hf : f.hasStored = false) : (s.setFrames below).Inv :=
  inv_setFrames h (framesWf_pop h.frames top).1 (armedWf_pop h.armed top hf)

/-! ### Fields the invariant does not read -/

theorem inv_setOut {s : State} (h : s.Inv) (x : Results) : (s.setOut x).Inv :=
  inv_congr h rfl rfl rfl rfl rfl rfl rfl rfl rfl rfl

theorem inv_setArrivals {s : State} (h : s.Inv) (a : List Arrival) : (s.setArrivals a).Inv :=
  inv_congr h rfl rfl rfl rfl rfl rfl rfl rfl rfl rfl

/-! ### The Time Base -/

/-- A suspended operation stays well formed when the Time Base or the transport is initialised. -/
theorem Frame.wf_mono {f : Frame} {s t : State} (h : f.wf s = true)
    (tb : s.tb.init = true → t.tb.init = true ∧ t.tb.load = s.tb.load) (bt : s.bt.init = true → t.bt.init = true) :
    f.wf t = true := by
  cases f with
  | nowMicros left point =>
    have hi : s.tb.init = true := by
      cases point <;> simp only [Frame.wf, Bool.and_eq_true] at h <;> simp only [h]
    obtain ⟨hi', hl⟩ := tb hi
    cases point <;> simpa only [Frame.wf, hi, hi', hl] using h
  | ilrRegister l second => cases second <;> exact h
  | btWrite data length point =>
    have hi : s.bt.init = true := by
      cases point <;> simp only [Frame.wf, Bool.and_eq_true] at h <;> simp only [h]
    cases point <;> simpa only [Frame.wf, hi, bt hi] using h
  | btRead output maxLength n =>
    have hi : s.bt.init = true := by
      simp only [Frame.wf, Bool.and_eq_true] at h
      simp only [h]
    simpa only [Frame.wf, hi, bt hi] using h
  | dispatch _ _ _ _ _ => exact h

theorem framesWf_mono {s t : State} (h : s.FramesWf) (frames : t.frames = s.frames)
    (tb : s.tb.init = true → t.tb.init = true ∧ t.tb.load = s.tb.load) (bt : s.bt.init = true → t.bt.init = true) :
    t.FramesWf := by
  unfold State.FramesWf State.activeVectors
  rw [frames]
  exact ⟨fun f hf => Frame.wf_mono (h.1 f hf) tb bt, h.2⟩

/-- Only the Time Base and the vectors have changed, and a running Time Base keeps its reload value. -/
theorem inv_timer {s t : State} (h : s.Inv) (same : t = { s with out := t.out, tb := t.tb, nvic := t.nvic })
    (timer : t.TimerWf) (kept : s.tb.init = true → t.tb.init = true ∧ t.tb.load = s.tb.load) : t.Inv where
  memory := by rw [same]; exact h.memory
  rings := by rw [same]; exact h.rings
  timer := timer
  table := by rw [same]; exact h.table
  dormant := by rw [same]; exact h.dormant
  armed := by rw [same]; exact h.armed
  frames := framesWf_mono h.frames (by rw [same]) kept (by rw [same]; exact id)
  position := by rw [same]; exact h.position

theorem timerWf_of_init {s : State} (hi : s.tb.init = true) : s.TimerWf ↔ s.tb.clockHz ≠ 0 ∧ s.tb.periodUs ≠ 0 ∧
    s.tb.load.toNat + 1 = cyclesPerTick s.tb.clockHz s.tb.periodUs := by
  rw [State.TimerWf, if_pos hi]

/-- The Time Base is initialised once, with a clock and a period that are not 0 and a reload value that fits (R120). -/
theorem execTbInit_inv {s : State} (h : s.Inv) (prio : Byte) (clockHz periodUs : Word) :
    Holds State.Inv (execTbInit prio clockHz periodUs s) := by
  unfold execTbInit
  split
  · trivial
  · next hinit =>
    split
    · next hfits =>
      obtain ⟨hc, hp, hcycles, hmax⟩ := (timerFits_iff clockHz periodUs).1 hfits
      refine inv_timer h rfl ((timerWf_of_init rfl).2 ⟨hc, hp, ?_⟩) fun hi => absurd hi hinit
      have := reload_toNat hmax
      show (BitVec.ofNat 24 (cyclesPerTick clockHz periodUs - 1)).toNat + 1 = cyclesPerTick clockHz periodUs
      omega
    · exact inv_setOut h _

theorem execTickIrq_inv {s : State} (h : s.Inv) : Holds State.Inv (execTickIrq s) := by
  unfold execTickIrq
  split
  · next hi =>
    have timer := (timerWf_of_init hi).1 h.timer
    exact inv_timer h rfl ((timerWf_of_init (by exact hi)).2 timer) fun _ => ⟨hi, rfl⟩
  · trivial

/-- `NOW_MICROS` runs while the Time Base does, and every sample it holds is at most the reload value (R39, R124). -/
theorem microsRule_inv : MicrosRule Config.microsAttempts
    (fun s => s.Inv ∧ s.tb.init = true ∧ s.commandMayStand) State.Inv where
  pass s a h _ := ⟨inv_setArrivals h.1 a, h.2⟩
  haveT1 s left h hl := inv_pushCommand h.1 h.2.2 (by simp [Frame.wf, h.2.1, hl]) rfl
  haveCvr s left t1 h hl hc := inv_pushCommand h.1 h.2.2 (by simp [Frame.wf, h.2.1, hl, hc]) rfl
  mismatch s left h hl := inv_pushCommand h.1 h.2.2 (by simp [Frame.wf, h.2.1, hl]) rfl
  done s v h := inv_setOut h.1 _

theorem execNowMicros_inv {s : State} (h : s.Inv) (top : s.commandMayStand) : Holds State.Inv (execNowMicros s) := by
  unfold execNowMicros
  split
  · next hi => exact microsRule_inv.attempts (Nat.le_refl _) s ⟨h, hi, top⟩
  · exact inv_setOut h _

theorem resumeNowMicros_inv {s : State} (h : s.Inv) (top : s.commandMayStand) {left : Nat} {point : MicrosPoint}
    (hf : (Frame.nowMicros left point).wf s = true) : Holds State.Inv (resumeNowMicros left point s) := by
  have hi : s.tb.init = true ∧ left < Config.microsAttempts := by
    cases point <;> simp only [Frame.wf, Bool.and_eq_true, decide_eq_true_eq] at hf <;> simp only [hf, and_self]
  exact microsRule_inv.resume hi.2 point s ⟨h, hi.1, top⟩ (inv_pushCommand h top hf rfl)

/-! ### The line table -/

theorem storeTable_tableWf {s : State} (h : s.TableWf) (l : LineNo) {x : TableStore} (hx : ∀ cb, x = .callback cb → cb ≠ 0) :
    (storeTable s l x).TableWf := by
  intro k hk
  by_cases hkl : k = l
  · subst hkl
    cases x with
    | callback cb => simpa using hx cb rfl
    | argument arg => simpa using h k (by simpa using hk)
  · rw [storeTable_table_other s x hkl] at hk ⊢
    exact h k hk

theorem inv_storeTable {s : State} (h : s.Inv) (l : LineNo) {x : TableStore} (hx : ∀ cb, x = .callback cb → cb ≠ 0) :
    (storeTable s l x).Inv where
  memory := by rw [storeTable_eq]; exact h.memory
  rings := by rw [storeTable_eq]; exact h.rings
  timer := by rw [storeTable_eq]; exact h.timer
  table := storeTable_tableWf h.table l hx
  dormant := by rw [storeTable_eq]; exact h.dormant
  armed := by rw [storeTable_eq]; exact h.armed
  frames := by rw [storeTable_eq]; exact h.frames
  position := by rw [storeTable_eq]; exact h.position

theorem inv_drawn {s : State} (h : s.Inv) (n : Nat) : (s.drawn n).Inv :=
  inv_congr h rfl rfl rfl rfl rfl rfl rfl rfl rfl rfl

theorem wf_ilrRegister {l : LineNo} {x : TableStore} (hx : ∀ cb, x = .callback cb → cb ≠ 0) (s : State) :
    (Frame.ilrRegister l x).wf s = true := by
  cases x with
  | callback cb => simpa [Frame.wf] using hx cb rfl
  | argument arg => rfl

/-- Both stores of a registration whose callback is not null, in either order, keep the table free of null callbacks. -/
theorem execIlrRegister_inv {s : State} (h : s.Inv) (top : s.commandMayStand) (line : Byte) (callback arg : Word) :
    Holds State.Inv (execIlrRegister line callback arg s) := by
  have notNull {x y : TableStore} (hc : callback ≠ 0) (hxy : (x, y) ∈ [(TableStore.callback callback, TableStore.argument arg),
      (.argument arg, .callback callback)]) : (∀ cb, x = .callback cb → cb ≠ 0) ∧ ∀ cb, y = .callback cb → cb ≠ 0 := by
    simp only [List.mem_cons, Prod.mk.injEq, List.not_mem_nil, or_false] at hxy
    have kept : ∀ cb, TableStore.callback callback = .callback cb → cb ≠ 0 := fun _ e => TableStore.callback.inj e ▸ hc
    rcases hxy with ⟨rfl, rfl⟩ | ⟨rfl, rfl⟩
    · exact ⟨kept, nofun⟩
    · exact ⟨nofun, kept⟩
  have first {l : LineNo} {x : TableStore} (hx : ∀ cb, x = .callback cb → cb ≠ 0) : (storeTable (s.drawn 1) l x).Inv :=
    inv_storeTable (inv_drawn h 1) l hx
  refine holds_ilrRegister (inv_setOut h _) ?suspended ?done
  case suspended =>
    intro l x y _ hc hxy
    obtain ⟨hx, hy⟩ := notNull hc hxy
    have hs : (storeTable (s.drawn 1) l x).frames = s.frames := storeTable_frames _ _ _
    have := inv_pushCommand (first (l := l) hx) (fun g below e => top g below (hs ▸ e)) (wf_ilrRegister (l := l) hy _) rfl
    rwa [hs] at this
  case done =>
    intro l x y a _ hc _ hxy
    obtain ⟨hx, hy⟩ := notNull hc hxy
    exact inv_setOut (inv_storeTable (inv_setArrivals (first hx) a) l hy) _

theorem registerSecond_inv {s : State} (h : s.Inv) (top : s.commandMayStand) {l : LineNo} {second : TableStore}
    (hf : (Frame.ilrRegister l second).wf s = true) : Holds State.Inv (registerSecond l second s) := by
  have hx : ∀ cb, second = .callback cb → cb ≠ 0 := by
    rintro cb rfl
    simpa [Frame.wf] using hf
  exact holds_registerSecond (inv_pushCommand h top hf rfl) fun a _ =>
    inv_setOut (inv_storeTable (inv_setArrivals h a) l hx) _

/-! ### The Byte Transport -/

/-- With the transport initialised, only the rings, the transmit-interrupt and DMEM have their parts left to show. -/
theorem inv_transport {s t : State} (h : s.Inv)
    (same : t = { s with out := t.out, nvic := t.nvic, rx := t.rx, tx := t.tx, bt := t.bt, us := t.us, dmem := t.dmem
                         txLine := t.txLine })
    (init : t.bt.init = true) (memory : Memory.wf t.dmem = true) (rings : t.RingsWf) (armed : t.ArmedWf) : t.Inv where
  memory := memory
  rings := rings
  timer := by rw [same]; exact h.timer
  table := by rw [same]; exact h.table
  dormant off := by rw [init] at off; cases off
  armed := armed
  frames := framesWf_mono h.frames (by rw [same]) (by rw [same]; exact fun hi => ⟨hi, rfl⟩) fun _ => init
  position := by rw [same]; exact h.position

theorem execBtInit_inv {s : State} (h : s.Inv) (prio : Byte) (gok : Bool) (rxmode txmode : PinMode)
    (pclkHz baud : Word) : Holds State.Inv (execBtInit prio gok rxmode txmode pclkHz baud s) := by
  unfold execBtInit
  split
  · trivial
  · split
    · split
      · trivial
      · have rings : s.rx.emptied.wf = true ∧ s.tx.emptied.wf = true :=
          ⟨Ring.emptied_wf ((Ring.wf_iff _).1 h.rings.1).1, Ring.emptied_wf ((Ring.wf_iff _).1 h.rings.2).1⟩
        refine inv_setOut (inv_transport h ?_ (by simp) (by simpa using h.memory) (by simpa [State.RingsWf] using rings)
          fun _ => .inl (by simp [Ring.emptied, Ring.isEmpty])) _
        rw [transportStarted_eq]
    · exact inv_setOut h _

/-- `s` with the transmit-interrupt on. -/
def State.withTxeie (s : State) : State := s.setUs { s.us with txeie := true }

theorem armedWf_of_txeie {s : State} (on : s.us.txeie = true) : s.ArmedWf := fun off => by rw [on] at off; cases off

theorem inv_withTxeie {s : State} (h : s.Inv) (init : s.bt.init = true) : s.withTxeie.Inv :=
  inv_transport h rfl init h.memory h.rings (armedWf_of_txeie rfl)

/-- The invariant but for the waiting byte, which a `BT_WRITE` breaks while it runs, and that part of it by itself. -/
theorem inv_of_withTxeie {s : State} (h : s.withTxeie.Inv) (init : s.bt.init = true) (armed : s.ArmedWf) : s.Inv :=
  inv_transport h rfl init h.memory h.rings armed

/-- `BT_WRITE` under way with `i` bytes stored: the invariant would hold with the transmit-interrupt on, and holds as it is
while no byte is stored. -/
structure State.Writing (i : Nat) (s : State) : Prop where
  armed : s.withTxeie.Inv
  init : s.bt.init = true
  top : s.commandMayStand
  idle : i = 0 → s.ArmedWf

/-- A suspension of `BT_WRITE` counts for the bytes that it has stored and that wait (R192 (b)). -/
theorem State.Writing.suspended {i : Nat} {s : State} (h : s.Writing i) {f : Frame} (hf : f.wf s = true)
    (hv : f.vector? = none) (stored : f.hasStored = (i != 0)) : (s.setFrames (f :: s.frames)).Inv := by
  have hpushed := inv_pushCommand h.armed h.top ((f.wf_congr (s := s) rfl rfl).trans hf) hv
  refine inv_of_withTxeie hpushed h.init ?_
  by_cases hi : i = 0
  · exact armedWf_push (h.idle hi) f
  · exact armedWf_pushStored (by simpa [stored] using hi)

theorem State.Writing.setTx {i j : Nat} {s : State} (h : s.Writing i) {tx : Ring} (hwf : tx.wf = true)
    (idle : j = 0 → (s.setTx tx).ArmedWf) : (s.setTx tx).Writing j where
  armed := inv_transport h.armed rfl h.init h.armed.memory ⟨h.armed.rings.1, hwf⟩ (armedWf_of_txeie rfl)
  init := h.init
  top := h.top
  idle := idle

theorem writeRule_inv {data length : Word} (hd : isNull data = false) :
    WriteRule data length State.Writing State.Writing State.Inv where
  pass i s a h _ := ⟨inv_setArrivals h.armed a, h.init, h.top, h.idle⟩
  passArm i s a h _ := ⟨inv_setArrivals h.armed a, h.init, h.top, h.idle⟩
  store i s tx h _ hp := h.setTx (Ring.push_wf h.armed.rings.2 hp) nofun
  drop i s h _ _ := h.setTx ((Ring.wf_withDrop _ _).trans h.armed.rings.2) h.idle
  all s h := h
  beforeByte i s h hi := h.suspended (by simp [Frame.wf, h.init, hd, hi]) rfl rfl
  beforeArm i s h hi := h.suspended (by simp [Frame.wf, h.init, hd, hi]) rfl rfl
  done i s h _ := by
    split
    · next hi => exact inv_setOut (inv_of_withTxeie h.armed h.init (h.idle hi)) _
    · exact inv_setOut h.armed _

theorem execBtWrite_inv {s : State} (h : s.Inv) (top : s.commandMayStand) (data length : Word) :
    Holds State.Inv (execBtWrite data length s) := by
  unfold execBtWrite
  split
  · next init =>
    split
    · exact inv_setOut h _
    · next hne =>
      have hd : isNull data = false := by
        simp only [not_or, Bool.not_eq_true] at hne
        exact hne.2
      exact (writeRule_inv hd).bytes rfl s ⟨inv_withTxeie h init, init, top, fun _ => h.armed⟩
  · trivial

/-- The frame taken off the stack accounted for the waiting bytes unless it had stored none. -/
theorem resumeBtWrite_inv {s : State} (h : s.Inv) {data length : Word} {point : WritePoint} {below : List Frame}
    (top : s.frames = .btWrite data length point :: below) :
    Holds State.Inv (resumeBtWrite data length point (s.setFrames below)) := by
  obtain ⟨hbelow, htop, -, hwf⟩ := framesWf_pop h.frames top
  have writing {i : Nat} (init : s.bt.init = true) (hs : (Frame.btWrite data length point).hasStored = (i != 0)) :
      (s.setFrames below).Writing i :=
    ⟨inv_setFrames (inv_withTxeie h init) hbelow (armedWf_of_txeie rfl), init, htop rfl,
      fun hi => armedWf_pop h.armed top (by simp [hs, hi])⟩
  cases point with
  | beforeByte i accepted =>
    simp only [Frame.wf, Bool.and_eq_true, decide_eq_true_eq, beq_iff_eq, Bool.not_eq_true'] at hwf
    obtain ⟨⟨⟨init, hd⟩, hi⟩, rfl⟩ := hwf
    exact (writeRule_inv hd).resumeByte (Nat.le_of_lt hi) (writing init rfl)
  | beforeArm accepted =>
    simp only [Frame.wf, Bool.and_eq_true, decide_eq_true_eq, Bool.not_eq_true'] at hwf
    obtain ⟨⟨init, hd⟩, hi⟩ := hwf
    exact (writeRule_inv hd).arm hi _ (writing init rfl)

theorem readRule_inv {output maxLength : Word} (ho : isNull output = false) :
    ReadRule output maxLength (fun _ s => s.Inv ∧ s.bt.init = true ∧ s.commandMayStand) State.Inv where
  pass n s a h _ := ⟨inv_setArrivals h.1 a, h.2⟩
  copy n s b rx h _ hp := by
    refine ⟨inv_transport h.1 rfl h.2.1 (Memory.wf_write h.1.memory _ b) ?_ h.1.armed, h.2⟩
    exact ⟨Ring.pop_wf h.1.rings.1 hp, h.1.rings.2⟩
  beforeByte n s h hn := inv_pushCommand h.1 h.2.2 (by simp [Frame.wf, h.2.1, ho, hn]) rfl
  done n s h _ := inv_setOut h.1 _

theorem execBtRead_inv {s : State} (h : s.Inv) (top : s.commandMayStand) (output maxLength : Word) :
    Holds State.Inv (execBtRead output maxLength s) := by
  unfold execBtRead
  split
  · next init =>
    split
    · exact inv_setOut h _
    · next hne =>
      have ho : isNull output = false := by
        simp only [not_or, Bool.not_eq_true] at hne
        exact hne.2
      exact (readRule_inv ho).bytes rfl s ⟨h, init, top⟩
  · trivial

theorem resumeBtRead_inv {s : State} (h : s.Inv) (top : s.commandMayStand) {output maxLength : Word} {n : Nat}
    (hf : (Frame.btRead output maxLength n).wf s = true) : Holds State.Inv (resumeBtRead output maxLength n s) := by
  simp only [Frame.wf, Bool.and_eq_true, decide_eq_true_eq, Bool.not_eq_true'] at hf
  obtain ⟨⟨init, ho⟩, -⟩ := hf
  exact (readRule_inv ho).resume ⟨h, init, top⟩ fun _ => inv_setOut h _

/-! ### The serial unit -/

/-- Before `BT_INIT` the serial unit is quiet, so anything it shows means that the transport is initialised (R41). -/
theorem init_of_active {s : State} (h : s.DormantWf)
    (active : s.us.ue = true ∨ s.us.anyError = true ∨ s.us.rxne = true ∨ s.us.txeie = true) : s.bt.init = true := by
  by_contra hi
  obtain ⟨-, -, hue, herr, hrxne, htxeie⟩ := h (by simpa using hi)
  simp [hue, herr, hrxne, htxeie] at active

theorem usartRule_inv {s : State} (h : s.Inv) : UsartRule s State.Inv State.Inv where
  errors he := inv_transport h rfl (init_of_active (s := s) h.dormant (.inr (.inl he))) h.memory h.rings h.armed
  queued _ _ hr hp := inv_transport h rfl (init_of_active (s := s) h.dormant (.inr (.inr (.inl hr)))) h.memory
    ⟨Ring.push_wf h.rings.1 hp, h.rings.2⟩ h.armed
  dropped _ hr _ := inv_transport h rfl (init_of_active (s := s) h.dormant (.inr (.inr (.inl hr)))) h.memory
    h.rings h.armed
  nothing _ _ := h
  quiet _ h := h
  disarmed u h on he := inv_transport h rfl (init_of_active (s := u) h.dormant (.inr (.inr (.inr on)))) h.memory
    h.rings fun _ => .inl he
  sent u _ _ h on hp := inv_transport h rfl (init_of_active (s := u) h.dormant (.inr (.inr (.inr on)))) h.memory
    ⟨h.rings.1, Ring.pop_wf h.rings.2 hp⟩ (armedWf_of_txeie on)

theorem execEnvRx_inv {s : State} (h : s.Inv) (nf fe pe : Bool) (byte : Byte) :
    Holds State.Inv (execEnvRx nf fe pe byte s) := by
  have same : (s.us.received nf fe pe byte).txeie = s.us.txeie := by
    unfold Usart.received
    split <;> rfl
  unfold execEnvRx
  split
  · next hon =>
    have init := init_of_active h.dormant (.inl (Bool.and_eq_true_iff.1 hon).1)
    exact inv_transport h rfl init h.memory h.rings fun off => h.armed (same ▸ off)
  · exact h

theorem execEnvTxe_inv {s : State} (h : s.Inv) : Holds State.Inv (execEnvTxe s) := by
  unfold execEnvTxe
  split
  · next hon =>
    exact inv_transport h rfl (init_of_active h.dormant (.inl (Bool.and_eq_true_iff.1 hon).1)) h.memory h.rings h.armed
  · exact h

/-! ### Every operation -/

/-- The state in which an operation is entered, as far as the invariant needs it: a command finds no command on top, and
a handler's vector is not active (R237, R239). -/
structure State.mayEnter (i : Instr) (s : State) : Prop where
  command : i.port = .cmd → s.commandMayStand
  handler : ∀ v, handlerVector? i = some v → v ∉ s.activeVectors

theorem dispatchRule_inv {v : VecId} (hv : VecId.ofLines v = true) (snap : BitVec 16) (due : List LineNo) :
    DispatchRule v snap due (fun s => s.Inv ∧ v ∉ s.activeVectors) State.Inv where
  pass _ a h _ := ⟨inv_setArrivals h.1 a, h.2⟩
  acknowledge _ _ h _ _ := ⟨inv_congr h.1 rfl rfl rfl rfl rfl rfl rfl rfl rfl rfl, h.2⟩
  invoke _ _ h _ := ⟨inv_congr h.1 rfl rfl rfl rfl rfl rfl rfl rfl rfl rfl, h.2⟩
  suspended _ l rest point h := inv_pushHandler h.1 h.2 hv snap l rest point
  returned _ h := h.1

theorem ofLines_lineVector : ∀ l : LineNo, VecId.ofLines (lineVector l) = true := by decide

theorem ofLines_of_handlerVector? {i : Instr} {v : VecId} (hv : handlerVector? i = some v) (ht : i ≠ .tickIrq)
    (hu : i ≠ .usartIrq) : VecId.ofLines v = true := by
  cases i with
  | tickIrq => exact absurd rfl ht
  | usartIrq => exact absurd rfl hu
  | dispatch first last =>
    cases hv
    exact ofLines_lineVector first
  | vecL0 | vecL1 | vecL2 | vecL3 | vecL4 | vecL5to9 | vecL10to15 =>
    cases hv
    rfl
  | _ => cases hv

theorem exec_lineHandler_inv {i : Instr} {v : VecId} (hv : handlerVector? i = some v) (ht : i ≠ .tickIrq)
    (hu : i ≠ .usartIrq) {s : State} (h : s.Inv) (inactive : v ∉ s.activeVectors) : Holds State.Inv (exec i s) := by
  obtain ⟨first, last, -, hexec, -, -⟩ := exec_lineHandler hv ht hu
  rw [hexec]
  exact (dispatchRule_inv (ofLines_of_handlerVector? hv ht hu) _ _).run ⟨h, inactive⟩

theorem exec_inv {i : Instr} {s : State} (h : s.Inv) (ha : s.mayEnter i) : Holds State.Inv (exec i s) := by
  have lines {v : VecId} (hv : handlerVector? i = some v) (ht : i ≠ .tickIrq) (hu : i ≠ .usartIrq) :
      Holds State.Inv (exec i s) := exec_lineHandler_inv hv ht hu h (ha.handler v hv)
  cases i with
  | nowTicks | nowMillis | elapsedMs _ _ | elapsedUs _ _ | baudDiv _ _ | btStat _ => exact inv_setOut h _
  | tbInit prio clockHz periodUs => exact execTbInit_inv h prio clockHz periodUs
  | nowMicros => exact execNowMicros_inv h (ha.command rfl)
  | ilrRegister line callback arg => exact execIlrRegister_inv h (ha.command rfl) line callback arg
  | ilrConfig prio gok edge mode port pin =>
    refine holds_mono (execIlrConfig_keeps prio gok edge mode port pin s) fun t ht => ?_
    rw [ht.1]
    exact inv_congr h rfl rfl rfl rfl rfl rfl rfl rfl rfl rfl
  | btInit prio gok rxmode txmode pclkHz baud => exact execBtInit_inv h prio gok rxmode txmode pclkHz baud
  | btWrite data length => exact execBtWrite_inv h (ha.command rfl) data length
  | btRead output maxLength => exact execBtRead_inv h (ha.command rfl) output maxLength
  | tickIrq => exact execTickIrq_inv h
  | usartIrq => exact (usartRule_inv h).exec
  | envEdge dir line =>
    refine holds_mono (execEnvEdge_keeps dir line s) fun t ht => ?_
    rw [ht.1]
    exact inv_congr h rfl rfl rfl rfl rfl rfl rfl rfl rfl rfl
  | envRx nf fe pe byte => exact execEnvRx_inv h nf fe pe byte
  | envTxe => exact execEnvTxe_inv h
  | envCvr value => exact inv_congr h rfl rfl rfl rfl rfl rfl rfl rfl rfl rfl
  | dispatch _ _ | vecL0 | vecL1 | vecL2 | vecL3 | vecL4 | vecL5to9 | vecL10to15 => exact lines rfl nofun nofun

/-- The operation in flight is taken off the stack and goes on. -/
theorem resume_inv {s : State} (h : s.Inv) {f : Frame} {below : List Frame} (top : s.frames = f :: below)
    (own : f.issued? = none) : Holds State.Inv (resume f (s.setFrames below)) := by
  obtain ⟨-, hcommand, hhandler, hwf⟩ := framesWf_pop h.frames top
  cases f with
  | nowMicros left point => exact resumeNowMicros_inv (inv_pop h top rfl) (hcommand rfl) hwf
  | ilrRegister l second => exact registerSecond_inv (inv_pop h top rfl) (hcommand rfl) hwf
  | btWrite data length point => exact resumeBtWrite_inv h top
  | btRead output maxLength n => exact resumeBtRead_inv (inv_pop h top rfl) (hcommand rfl) hwf
  | dispatch v snap l rest point =>
    rw [resume_dispatch own]
    exact (dispatchRule_inv hwf snap (l :: rest)).resume (fun _ hk => List.mem_cons_of_mem _ hk)
      (fun _ => List.mem_cons_self) _ ⟨inv_pop h top rfl, hhandler v rfl⟩

/-! ### Every step -/

/-- Every handler is an operation of the IRQ port (R97). -/
theorem port_of_handlerVector? {i : Instr} {v : VecId} (h : handlerVector? i = some v) : i.port = .irq := by
  cases i with
  | tickIrq | usartIrq | dispatch _ _ | vecL0 | vecL1 | vecL2 | vecL3 | vecL4 | vecL5to9 | vecL10to15 => rfl
  | _ => cases h

/-- A command is allowed wherever no command stands on top. -/
theorem mayEnter_command {i : Instr} {s : State} (hc : i.port = .cmd) (top : s.commandMayStand) : s.mayEnter i where
  command _ := top
  handler v hv := by
    rw [port_of_handlerVector? hv] at hc
    cases hc

/-- With nothing in flight every operation is allowed. -/
theorem mayEnter_idle {s : State} (idle : s.frames = []) (i : Instr) : s.mayEnter i where
  command _ g below e := by
    rw [idle] at e
    cases e
  handler v _ := by simp [State.activeVectors, idle]

/-- What is allowed at a preemption point is no command, and no handler whose vector is active (R238, R239). -/
theorem mayEnter_of_entryRefusal {i : Instr} {s : State} (h : s.entryRefusal i = none) : s.mayEnter i where
  command hc := by simp [State.entryRefusal, hc] at h
  handler v hv hmem := by
    obtain ⟨w, outer, hact⟩ := List.exists_cons_of_ne_nil (List.ne_nil_of_mem hmem)
    rw [hact] at hmem
    simp only [State.entryRefusal, port_of_handlerVector? hv, hv, hact, if_pos hmem] at h
    cases h

/-- A handler inside a callback, less the command that the callback issues, is the handler as it was. -/
theorem inv_issued {s : State} (h : s.Inv) {v : VecId} {snap : BitVec 16} {l : LineNo} {rest : List LineNo}
    {point : DispatchPoint} {below : List Frame} (top : s.frames = .dispatch v snap l rest point :: below)
    (point' : DispatchPoint) : (s.setFrames (.dispatch v snap l rest point' :: below)).Inv := by
  obtain ⟨-, -, hhandler, hwf⟩ := framesWf_pop h.frames top
  exact inv_pushHandler (inv_pop h top rfl) (hhandler v rfl) hwf snap l rest point'

theorem step_inv {s t : State} (h : s.Inv) (hstep : step s = .next t) : t.Inv := by
  cases stepOf_step hstep with
  | fetched i idle ok run =>
    have moved : (s.advance i).Inv :=
      { memory := h.memory, rings := h.rings, timer := h.timer, table := h.table, dormant := h.dormant
        armed := h.armed, frames := h.frames, position := positionWf_advance ok }
    exact holds_of_eq (exec_inv moved (mayEnter_idle (s := s.advance i) idle i)) run
  | arrived i later waiting allowed run =>
    have ha : s.mayEnter i := mayEnter_of_entryRefusal allowed
    exact holds_of_eq (exec_inv (inv_setArrivals h later) ⟨ha.command, ha.handler⟩) run
  | resumed f below top own run => exact holds_of_eq (resume_inv h top own) run
  | issued v snap l rest c cs below a top command passed run =>
    have hinv := inv_setArrivals (inv_issued h top (.inCallback cs)) a
    refine holds_of_eq (exec_inv hinv (mayEnter_command command ?_)) run
    rintro g more e
    cases e
    rfl

end Sys2Proof.Machine

namespace Sys2Proof

open Machine

/-- Settles O3: every part of the invariant holds of the reset state, the base case of O46 (R41). -/
theorem resetMeetsInvariant : Obligations.ResetMeetsInvariant :=
  ⟨inv_resetSized (by decide) (by decide), fun _ _ hRx hTx => inv_resetSized hRx hTx⟩

/-- Settles O46: each thing a step can be keeps the invariant, by the rule of the operation that runs. -/
theorem stepKeepsInvariant : Obligations.StepKeepsInvariant := fun _ _ h hstep => step_inv h hstep

end Sys2Proof
end

section
/-! Who may write what (R20 to R32, R38), read off the frame of each operation. -/

namespace Sys2Proof.Machine

/-! ### The reset state (R41) -/

theorem resetSized_line (nRx nTx : Nat) (l : LineNo) :
    (State.resetSized nRx nTx).ilr.table[l] = { valid := false, cb := 0, arg := 0 } ∧
      (State.resetSized nRx nTx).ilr.attr[l] = { port := 0, rise := false, fall := false, unmask := false } ∧
      pendBit (State.resetSized nRx nTx).ilr.pend l = false :=
  ⟨Vector.getElem_replicate l.isLt, Vector.getElem_replicate l.isLt, by simp [State.resetSized, pendBit]⟩

theorem resetSized_vectorAttr (nRx nTx : Nat) (v : VecId) :
    (State.resetSized nRx nTx).vectorAttr v = { en := false, prio := 0 } :=
  Vector.getElem_replicate (vectorIndex v).isLt

/-- With its vector off and the Time Base not initialised, nothing is requested (R233). -/
theorem resetSized_requests (nRx nTx : Nat) (v : VecId) : (State.resetSized nRx nTx).requests v = false := by
  cases v with
  | tick => rfl
  | serial | l0 | l1 | l2 | l3 | l4 | l5to9 | l10to15 => simp only [State.requests, resetSized_vectorAttr, Bool.false_and]

theorem Ring.ofSize_cell (n i : Nat) : (Ring.ofSize n).cell i = none := by
  simp only [Ring.cell, Ring.ofSize, List.getD_eq_getElem?_getD, List.getElem?_replicate]
  split <;> rfl

/-! ### Runs -/

/-- Whether an operation is the handler of a group or a range of lines. -/
def Instr.servicesLines (i : Instr) : Prop := ∃ v, handlerVector? i = some v ∧ i ≠ .tickIrq ∧ i ≠ .usartIrq

/-- Every run of an operation keeps what the operation keeps; a handler of lines that goes on from a suspension keeps what
servicing some lines keeps. -/
theorem runs_cases {i : Instr} {s t : State} (h : s.runs i t) :
    s.keeps i t ∧ ¬ Instr.servicesLines i ∨ Instr.servicesLines i ∧ ∃ p, s.Serviced p t := by
  rcases h with h | ⟨f, hf, own, h⟩
  · by_cases hl : Instr.servicesLines i
    · obtain ⟨v, hv, ht, hu⟩ := hl
      obtain ⟨p, hp, -⟩ := holds_of_eq (exec_lineHandler_serviced hv ht hu s) h
      exact .inr ⟨⟨v, hv, ht, hu⟩, p, hp⟩
    · exact .inl ⟨(holds_of_eq (exec_keeps i s) h).1, hl⟩
  · have hk := (holds_of_eq (resume_keepsFrom own s) h).1
    cases f with
    | nowMicros left point =>
      cases hf
      exact .inl ⟨hk, fun ⟨_, hv, _⟩ => by cases hv⟩
    | ilrRegister l second =>
      obtain ⟨line, callback, arg, hl, rfl⟩ := hf
      refine .inl ⟨⟨?_, fun k hk' => hk.2 k fun e => hk' (e ▸ hl.symm)⟩, fun ⟨_, hv, _⟩ => by cases hv⟩
      rw [hk.1]
    | btWrite data length point =>
      cases hf
      refine .inl ⟨?_, fun ⟨_, hv, _⟩ => by cases hv⟩
      cases point with
      | beforeByte i accepted => exact hk
      | beforeArm accepted =>
        show t = _
        rw [hk]
    | btRead output maxLength n =>
      cases hf
      exact .inl ⟨keeps_of_keepsFrom_btRead hk, fun ⟨_, hv, _⟩ => by cases hv⟩
    | dispatch v snap l rest point =>
      rw [resume_dispatch own] at h
      exact .inr ⟨⟨v, hf⟩, _, (holds_of_eq (resumeDispatch_serviced v snap l rest point s) h).1⟩

/-- An operation with no preemption point runs by being entered. -/
theorem State.runs.entered {i : Instr} {s t : State} (h : s.runs i t) (hi : ∀ f : Frame, ¬ f.isOf i) : exec i s = .next t :=
  h.resolve_right fun ⟨f, hf, _⟩ => hi f hf

/-! ### What is kept whole -/

theorem keeps_stimulus {i : Instr} {s t : State} (h : s.keeps i t) : t.sp = s.sp ∧ t.stream = s.stream := by
  cases i with
  | tbInit _ _ _ | ilrRegister _ _ _ | ilrConfig _ _ _ _ _ _ | btInit _ _ _ _ _ _ | btRead _ _ | envEdge _ _
  | dispatch _ _ | vecL0 | vecL1 | vecL2 | vecL3 | vecL4 | vecL5to9 | vecL10to15 =>
    exact ⟨(congrArg State.sp h.1 :), (congrArg State.stream h.1 :)⟩
  | _ => exact ⟨(congrArg State.sp h :), (congrArg State.stream h :)⟩

theorem keeps_out {i : Instr} {s t : State} (h : s.keeps i t) (hi : i.port ≠ .cmd) : t.out = s.out := by
  cases i with
  | envEdge _ _ | dispatch _ _ | vecL0 | vecL1 | vecL2 | vecL3 | vecL4 | vecL5to9 | vecL10to15 =>
    exact (congrArg State.out h.1 :)
  | tickIrq | usartIrq | envRx _ _ _ _ | envTxe | envCvr _ => exact (congrArg State.out h :)
  | _ => exact absurd rfl hi

theorem keeps_tb {i : Instr} {s t : State} (h : s.keeps i t) (tick : i ≠ .tickIrq)
    (init : ∀ prio clockHz periodUs, i ≠ .tbInit prio clockHz periodUs) : t.tb = s.tb := by
  cases i with
  | tbInit prio clockHz periodUs => exact absurd rfl (init prio clockHz periodUs)
  | tickIrq => exact absurd rfl tick
  | ilrRegister _ _ _ | ilrConfig _ _ _ _ _ _ | btInit _ _ _ _ _ _ | btRead _ _ | envEdge _ _
  | dispatch _ _ | vecL0 | vecL1 | vecL2 | vecL3 | vecL4 | vecL5to9 | vecL10to15 => exact (congrArg State.tb h.1 :)
  | _ => exact (congrArg State.tb h :)

theorem keeps_table {i : Instr} {s t : State} (h : s.keeps i t)
    (register : ∀ line callback arg, i ≠ .ilrRegister line callback arg) : t.ilr.table = s.ilr.table := by
  cases i with
  | ilrRegister line callback arg => exact absurd rfl (register line callback arg)
  | tbInit _ _ _ | ilrConfig _ _ _ _ _ _ | btInit _ _ _ _ _ _ | btRead _ _ | envEdge _ _
  | dispatch _ _ | vecL0 | vecL1 | vecL2 | vecL3 | vecL4 | vecL5to9 | vecL10to15 =>
    exact (congrArg (·.ilr.table) h.1 :)
  | _ => exact (congrArg (·.ilr.table) h :)

theorem keeps_calls {i : Instr} {s t : State} (h : s.keeps i t) (lines : ¬ Instr.servicesLines i) : t.calls = s.calls := by
  cases i with
  | dispatch _ _ | vecL0 | vecL1 | vecL2 | vecL3 | vecL4 | vecL5to9 | vecL10to15 =>
    exact absurd ⟨_, rfl, nofun, nofun⟩ lines
  | tbInit _ _ _ | ilrRegister _ _ _ | ilrConfig _ _ _ _ _ _ | btInit _ _ _ _ _ _ | btRead _ _ | envEdge _ _ =>
    exact (congrArg State.calls h.1 :)
  | _ => exact (congrArg State.calls h :)

theorem keeps_txLine {i : Instr} {s t : State} (h : s.keeps i t) (serial : i ≠ .usartIrq) : t.txLine = s.txLine := by
  cases i with
  | usartIrq => exact absurd rfl serial
  | tbInit _ _ _ | ilrRegister _ _ _ | ilrConfig _ _ _ _ _ _ | btInit _ _ _ _ _ _ | btRead _ _ | envEdge _ _
  | dispatch _ _ | vecL0 | vecL1 | vecL2 | vecL3 | vecL4 | vecL5to9 | vecL10to15 => exact (congrArg State.txLine h.1 :)
  | _ => exact (congrArg State.txLine h :)

/-! ### The tick count (R23) -/

theorem execTbInit_tickCount (prio : Byte) (clockHz periodUs : Word) (s : State) :
    Holds (fun t => t.tb.tickCount = s.tb.tickCount) (execTbInit prio clockHz periodUs s) := by
  unfold execTbInit
  split
  · trivial
  · split
    · exact rfl
    · exact rfl

theorem not_isOf_tbInit (prio : Byte) (clockHz periodUs : Word) (f : Frame) : ¬ f.isOf (.tbInit prio clockHz periodUs) := by
  cases f <;> simp [Frame.isOf, handlerVector?]

theorem runs_tickCount {i : Instr} {s t : State} (tick : i ≠ .tickIrq) (h : s.runs i t) :
    t.tb.tickCount = s.tb.tickCount := by
  rcases runs_cases h with ⟨hk, -⟩ | ⟨-, p, hp⟩
  · by_cases init : ∃ prio clockHz periodUs, i = .tbInit prio clockHz periodUs
    · obtain ⟨prio, clockHz, periodUs, rfl⟩ := init
      exact holds_of_eq (execTbInit_tickCount prio clockHz periodUs s)
        (h.entered (not_isOf_tbInit prio clockHz periodUs))
    · rw [keeps_tb hk tick fun prio clockHz periodUs e => init ⟨prio, clockHz, periodUs, e⟩]
  · exact (congrArg (·.tb.tickCount) hp.only.1 :)

/-! ### The line table (R25, R26) -/

theorem runs_table {i : Instr} {s t : State} (h : s.runs i t)
    (register : ∀ line callback arg, i ≠ .ilrRegister line callback arg) : t.ilr.table = s.ilr.table := by
  rcases runs_cases h with ⟨hk, -⟩ | ⟨-, p, hp⟩
  · exact keeps_table hk register
  · exact (congrArg (·.ilr.table) hp.only.1 :)

theorem runs_ilrRegister_valid {line : Byte} {callback arg : Word} {s t : State}
    (h : s.runs (.ilrRegister line callback arg) t) {k : LineNo} (hk : s.ilr.table[k].valid = true) :
    t.ilr.table[k].valid = true := by
  rcases h with h | ⟨f, hf, own, h⟩
  · refine holds_of_eq (holds_ilrRegister (P := fun t => t.ilr.table[k].valid = true) hk ?suspended ?done) h
    case suspended => exact fun l x y _ _ _ => storeTable_valid l x hk
    case done => exact fun l x y a _ _ _ _ => storeTable_valid l y (storeTable_valid l x hk)
  · cases f with
    | ilrRegister l second =>
      exact holds_of_eq (holds_registerSecond (P := fun t => t.ilr.table[k].valid = true) hk
        fun a _ => storeTable_valid l second hk) h
    | nowMicros _ _ | btWrite _ _ _ | btRead _ _ _ => cases hf
    | dispatch _ _ _ _ _ => cases hf.1

theorem runs_valid {i : Instr} {s t : State} (h : s.runs i t) {k : LineNo} (hk : s.ilr.table[k].valid = true) :
    t.ilr.table[k].valid = true := by
  by_cases register : ∃ line callback arg, i = .ilrRegister line callback arg
  · obtain ⟨line, callback, arg, rfl⟩ := register
    exact runs_ilrRegister_valid h hk
  · rw [runs_table h fun line callback arg e => register ⟨line, callback, arg, e⟩]
    exact hk

/-! ### The pending flags (R28) -/

theorem not_isOf_envEdge (dir : Direction) (line : LineNo) (f : Frame) : ¬ f.isOf (.envEdge dir line) := by
  cases f <;> simp [Frame.isOf, handlerVector?]

/-- An edge clears no flag. -/
theorem execEnvEdge_pend (dir : Direction) (line : LineNo) (s : State) :
    Holds (fun t => pendBit s.ilr.pend line = true → pendBit t.ilr.pend line = true) (execEnvEdge dir line s) := by
  unfold execEnvEdge
  split
  · exact fun _ => pendBit_withPendBit_same _ _ _
  · exact id

/-- An operation that neither is an edge nor configures nor services the line keeps its flag. -/
theorem keeps_pend {i : Instr} {s t : State} {l : LineNo} (h : s.keeps i t) (lines : ¬ Instr.servicesLines i)
    (config : ∀ prio gok edge mode port, i ≠ .ilrConfig prio gok edge mode port l) (edge : ∀ dir, i ≠ .envEdge dir l) :
    pendBit t.ilr.pend l = pendBit s.ilr.pend l := by
  cases i with
  | dispatch _ _ | vecL0 | vecL1 | vecL2 | vecL3 | vecL4 | vecL5to9 | vecL10to15 =>
    exact absurd ⟨_, rfl, nofun, nofun⟩ lines
  | ilrConfig prio gok sel mode port pin =>
    exact (h.2.2 l fun e => config prio gok sel mode port (e ▸ rfl)).2
  | envEdge dir line => exact h.2 l fun e => edge dir (e ▸ rfl)
  | tbInit _ _ _ | ilrRegister _ _ _ | btInit _ _ _ _ _ _ | btRead _ _ =>
    exact (congrArg (pendBit ·.ilr.pend l) h.1 :)
  | _ => exact (congrArg (pendBit ·.ilr.pend l) h :)

theorem runs_pend_set {i : Instr} {s t : State} {l : LineNo} (h : s.runs i t)
    (config : ∀ prio gok edge mode port, i ≠ .ilrConfig prio gok edge mode port l)
    (clear : pendBit s.ilr.pend l = false) (set : pendBit t.ilr.pend l = true) : ∃ dir, i = .envEdge dir l := by
  by_contra edge
  rcases runs_cases h with ⟨hk, lines⟩ | ⟨-, p, hp⟩
  · rw [keeps_pend hk lines config (not_exists.1 edge), clear] at set
    cases set
  · rw [hp.cleared l clear] at set
    cases set

theorem runs_pend_cleared {i : Instr} {s t : State} {l : LineNo} (h : s.runs i t)
    (config : ∀ prio gok edge mode port, i ≠ .ilrConfig prio gok edge mode port l)
    (set : pendBit s.ilr.pend l = true) (clear : pendBit t.ilr.pend l = false) : Instr.servicesLines i := by
  rcases runs_cases h with ⟨hk, lines⟩ | ⟨lines, -⟩
  · by_cases edge : ∃ dir, i = .envEdge dir l
    · obtain ⟨dir, rfl⟩ := edge
      rw [holds_of_eq (execEnvEdge_pend dir l s) (h.entered (not_isOf_envEdge dir l)) set] at clear
      cases clear
    · rw [keeps_pend hk lines config (not_exists.1 edge), set] at clear
      cases clear
  · exact lines

/-! ### The rings (R32) -/

/-- Only `BT_WRITE` is TX's producer, only `USART_IRQ` is its consumer and RX's producer, only `BT_READ` is RX's consumer. -/
structure State.ringRoles (i : Instr) (s t : State) : Prop where
  txProducer : (∀ data length, i ≠ .btWrite data length) →
    t.tx.head = s.tx.head ∧ t.tx.buf = s.tx.buf ∧ t.tx.drop = s.tx.drop
  serial : i ≠ .usartIrq → t.tx.tail = s.tx.tail ∧ t.rx.head = s.rx.head ∧ t.rx.buf = s.rx.buf ∧ t.rx.drop = s.rx.drop
  rxConsumer : (∀ output maxLength, i ≠ .btRead output maxLength) → t.rx.tail = s.rx.tail

theorem ringRoles_of_eq {i : Instr} {s t : State} (rx : t.rx = s.rx) (tx : t.tx = s.tx) : s.ringRoles i t where
  txProducer _ := by rw [tx]; exact ⟨rfl, rfl, rfl⟩
  serial _ := by rw [tx, rx]; exact ⟨rfl, rfl, rfl, rfl⟩
  rxConsumer _ := by rw [rx]

theorem keeps_ringRoles {i : Instr} {s t : State} (h : s.keeps i t)
    (init : ∀ prio gok rxmode txmode pclkHz baud, i ≠ .btInit prio gok rxmode txmode pclkHz baud) : s.ringRoles i t := by
  cases i with
  | btInit prio gok rxmode txmode pclkHz baud => exact absurd rfl (init prio gok rxmode txmode pclkHz baud)
  | btWrite data length =>
    have hrx : t.rx = s.rx := (congrArg State.rx h :)
    have htail : t.tx.tail = s.tx.tail := (congrArg (·.tx.tail) h :)
    exact ⟨fun hn => absurd rfl (hn data length), fun _ => ⟨htail, by rw [hrx], by rw [hrx], by rw [hrx]⟩,
      fun _ => by rw [hrx]⟩
  | btRead output maxLength =>
    have htx : t.tx = s.tx := (congrArg State.tx h.1 :)
    have hrx : t.rx = { s.rx with tail := t.rx.tail } := (congrArg State.rx h.1 :)
    exact ⟨fun _ => by rw [htx]; exact ⟨rfl, rfl, rfl⟩, fun _ => by rw [htx, hrx]; exact ⟨rfl, rfl, rfl, rfl⟩,
      fun hn => absurd rfl (hn output maxLength)⟩
  | usartIrq =>
    have htx : t.tx = { s.tx with tail := t.tx.tail } := (congrArg State.tx h :)
    exact ⟨fun _ => by rw [htx]; exact ⟨rfl, rfl, rfl⟩, fun hn => absurd rfl hn, fun _ => (congrArg (·.rx.tail) h :)⟩
  | tbInit _ _ _ | ilrRegister _ _ _ | ilrConfig _ _ _ _ _ _ | envEdge _ _ | dispatch _ _
  | vecL0 | vecL1 | vecL2 | vecL3 | vecL4 | vecL5to9 | vecL10to15 =>
    exact ringRoles_of_eq (congrArg State.rx h.1 :) (congrArg State.tx h.1 :)
  | _ => exact ringRoles_of_eq (congrArg State.rx h :) (congrArg State.tx h :)

/-! ### The traces (R38) -/

/-- Both output traces have only grown at their end. -/
structure State.tracesGrow (s t : State) : Prop where
  calls : s.calls <+: t.calls
  txLine : s.txLine <+: t.txLine

theorem tracesGrow_of_eq {s t : State} (calls : t.calls = s.calls) (txLine : t.txLine = s.txLine) : s.tracesGrow t :=
  ⟨calls ▸ List.prefix_rfl, txLine ▸ List.prefix_rfl⟩

theorem State.Serviced.tracesGrow {s t : State} {p : LineNo → Bool} (h : s.Serviced p t) : s.tracesGrow t where
  calls := h.calls
  txLine := by
    rw [h.only.1]

/-- The serial handler sends at most one byte (R188). -/
theorem usartRule_txLine (s : State) : UsartRule s (fun u => u.txLine = s.txLine) (fun t => s.txLine <+: t.txLine) where
  errors _ := rfl
  queued _ _ _ _ := rfl
  dropped _ _ _ := rfl
  nothing _ _ := rfl
  quiet _ h := h ▸ List.prefix_rfl
  disarmed _ h _ _ := h ▸ List.prefix_rfl
  sent _ b _ h _ _ := h ▸ List.prefix_append _ [b]

theorem exec_tracesGrow {i : Instr} {s t : State} (h : exec i s = .next t) : s.tracesGrow t := by
  have hk := (holds_of_eq (exec_keeps i s) h).1
  by_cases lines : Instr.servicesLines i
  · obtain ⟨v, hv, ht, hu⟩ := lines
    obtain ⟨p, hp, -⟩ := holds_of_eq (exec_lineHandler_serviced hv ht hu s) h
    exact hp.tracesGrow
  · have calls := keeps_calls hk lines
    by_cases serial : i = .usartIrq
    · subst serial
      exact ⟨calls ▸ List.prefix_rfl, holds_of_eq (usartRule_txLine s).exec h⟩
    · exact tracesGrow_of_eq calls (keeps_txLine hk serial)

theorem resume_tracesGrow {f : Frame} {s t : State} (own : f.issued? = none) (h : resume f s = .next t) :
    s.tracesGrow t := by
  have hk := (holds_of_eq (resume_keepsFrom own s) h).1
  cases f with
  | nowMicros left point => exact tracesGrow_of_eq (congrArg State.calls hk :) (congrArg State.txLine hk :)
  | ilrRegister l second => exact tracesGrow_of_eq (congrArg State.calls hk.1 :) (congrArg State.txLine hk.1 :)
  | btWrite data length point =>
    cases point <;> exact tracesGrow_of_eq (congrArg State.calls hk :) (congrArg State.txLine hk :)
  | btRead output maxLength n => exact tracesGrow_of_eq (congrArg State.calls hk.1 :) (congrArg State.txLine hk.1 :)
  | dispatch v snap l rest point =>
    rw [resume_dispatch own] at h
    exact (holds_of_eq (resumeDispatch_serviced v snap l rest point s) h).1.tracesGrow

theorem step_tracesGrow {s t : State} (h : step s = .next t) : s.tracesGrow t := by
  cases stepOf_step h with
  | fetched i idle ok run => exact ⟨(exec_tracesGrow run).calls, (exec_tracesGrow run).txLine⟩
  | arrived i later waiting allowed run => exact ⟨(exec_tracesGrow run).calls, (exec_tracesGrow run).txLine⟩
  | resumed f below top own run => exact ⟨(resume_tracesGrow own run).calls, (resume_tracesGrow own run).txLine⟩
  | issued v snap l rest c cs below a top command passed run =>
    exact ⟨(exec_tracesGrow run).calls, (exec_tracesGrow run).txLine⟩

end Sys2Proof.Machine

namespace Sys2Proof

open Machine

/-- Settles O1: each field of the sized reset state, by its definition; only the unwritten cells and the lines take an
argument (R41). -/
theorem resetStateValues : Obligations.ResetStateValues := by
  refine ⟨rfl, fun nRx nTx => ?_⟩
  refine ⟨rfl, rfl, rfl, rfl, resetSized_line nRx nTx,
    fun v => ⟨resetSized_vectorAttr nRx nTx v, resetSized_requests nRx nTx v⟩, ?_, Ring.ofSize_size nRx,
    Ring.ofSize_size nTx, rfl, rfl, rfl, rfl, rfl, rfl, rfl, rfl, rfl⟩
  intro r hr
  simp only [List.mem_cons, List.not_mem_nil, or_false] at hr
  rcases hr with rfl | rfl
  · exact ⟨rfl, rfl, rfl, Ring.ofSize_cell nRx⟩
  · exact ⟨rfl, rfl, rfl, Ring.ofSize_cell nTx⟩

/-- Settles O50: `TB_INIT` carries the count over and every other operation leaves the Time Base alone (R23). -/
theorem tickCountIsTheTicksAlone : Obligations.TickCountIsTheTicksAlone := fun _ _ _ tick h => runs_tickCount tick h

/-- Settles O51: no operation but a command has the result registers in its frame (R20). -/
theorem eventsLeaveResults : Obligations.EventsLeaveResults := by
  intro i s t hi h
  rcases runs_cases h with ⟨hk, -⟩ | ⟨-, p, hp⟩
  · exact keeps_out hk hi
  · exact (congrArg State.out hp.only.1 :)

/-- Settles O52: only a registration has the table in its frame, and neither of its stores takes a line's valid bit away
(R25, R26). -/
theorem tableIsTheRegistrationsAlone : Obligations.TableIsTheRegistrationsAlone := fun _ _ _ h =>
  ⟨runs_table h, fun _ hk => runs_valid h hk⟩

/-- Settles O53: an edge only sets its own line's flag and a handler of lines only clears flags; no other operation has
the flag in its frame (R28). -/
theorem pendingFlagOwners : Obligations.PendingFlagOwners := by
  intro i s t l h config
  refine ⟨runs_pend_set h config, fun set clear => ?_⟩
  obtain ⟨v, hv, ht, hu⟩ := runs_pend_cleared h config set clear
  exact ⟨port_of_handlerVector? hv, ht, hu⟩

/-- Settles O54: the roles are the rings' part of each operation's frame (R32). -/
theorem ringRoles : Obligations.RingRoles := by
  intro i s t h init
  have roles : s.ringRoles i t := by
    rcases runs_cases h with ⟨hk, -⟩ | ⟨-, p, hp⟩
    · exact keeps_ringRoles hk init
    · exact ringRoles_of_eq (congrArg State.rx hp.only.1 :) (congrArg State.tx hp.only.1 :)
  exact ⟨roles.txProducer, roles.serial, roles.rxConsumer⟩

/-- Settles O56: neither the position nor the stream is in any operation's frame (R21, R74). -/
theorem stimulusIsAnInput : Obligations.StimulusIsAnInput := by
  intro i s t h
  rcases runs_cases h with ⟨hk, -⟩ | ⟨-, p, hp⟩
  · exact keeps_stimulus hk
  · exact ⟨(congrArg State.sp hp.only.1 :), (congrArg State.stream hp.only.1 :)⟩

/-- Settles O57: of all that a step can be, only a dispatch adds to `calls` and only the serial handler to `tx_line`, each at
the end (R38). -/
theorem tracesOnlyGrow : Obligations.TracesOnlyGrow := fun _ _ h => ⟨(step_tracesGrow h).calls, (step_tracesGrow h).txLine⟩

end Sys2Proof
end

section
/-! Bytes accepted for transmission (R38, R71, R192): what has been sent, then what is queued, only grows at its end. -/

namespace Sys2Proof.Machine

/-- The bytes accepted for transmission, oldest first: those sent, then those still queued (R38, R192). -/
def State.accepted (s : State) : List Byte := s.txLine ++ s.tx.contents

theorem accepted_of_eq {s t : State} (tx : t.tx = s.tx) (txLine : t.txLine = s.txLine) : t.accepted = s.accepted := by
  rw [State.accepted, tx, txLine, State.accepted]

/-! ### What the two ends of TX do to them -/

/-- A byte that TX takes is accepted after all the others (R181). -/
theorem accepted_push {s : State} (hr : Ring.InRange s.tx) {b : Byte} {tx : Ring} (hp : s.tx.push b = some tx) :
    (s.setTx tx).accepted = s.accepted ++ [b] := by
  simp [State.accepted, Ring.push_contents hr hp]

/-- A byte that leaves TX for the line is the one queued next to those sent (R182, R188). -/
theorem accepted_send {s : State} (hr : Ring.InRange s.tx) {b : Byte} {tx : Ring} (hp : s.tx.pop = .byte b tx) :
    (s.txLine ++ [b]) ++ tx.contents = s.accepted := by
  simp [State.accepted, Ring.pop_contents hr hp]

/-! ### The three operations that touch TX -/

/-- `BT_WRITE` only adds to the bytes accepted; what TX refuses is counted and touches none of them (R186). -/
theorem writeFrameRule_accepted (data length : Word) (s : State) :
    WriteFrameRule data length (fun u => u.tx.wf = true ∧ s.accepted <+: u.accepted)
      (fun t => s.accepted <+: t.accepted) where
  pass _ _ h _ := h
  store u b tx h hp := by
    refine ⟨Ring.push_wf h.1 hp, h.2.trans ?_⟩
    rw [accepted_push (Ring.wf.inRange h.1) hp]
    exact List.prefix_append _ [b]
  drop _ _ h := h
  suspended _ _ h := h.2
  idle _ _ h := h.2
  armed _ _ h := h.2

theorem execBtWrite_accepted (data length : Word) {s : State} (hwf : s.tx.wf = true) :
    Holds (fun t => s.accepted <+: t.accepted) (execBtWrite data length s) := by
  unfold execBtWrite
  split
  · split
    · exact List.prefix_rfl
    · exact (writeFrameRule_accepted data length s).bytes _ _ _ s ⟨hwf, List.prefix_rfl⟩
  · trivial

/-- The serial handler moves one byte from the queue to the line, or leaves both alone (R188). -/
theorem usartRule_accepted {s : State} (hwf : s.tx.wf = true) :
    UsartRule s (fun u => u.tx = s.tx ∧ u.txLine = s.txLine) (fun t => t.accepted = s.accepted) where
  errors _ := ⟨rfl, rfl⟩
  queued _ _ _ _ := ⟨rfl, rfl⟩
  dropped _ _ _ := ⟨rfl, rfl⟩
  nothing _ _ := ⟨rfl, rfl⟩
  quiet _ h := accepted_of_eq h.1 h.2
  disarmed _ h _ _ := accepted_of_eq h.1 h.2
  sent u b tx h _ hp := by
    have hr : Ring.InRange u.tx := by
      rw [h.1]
      exact Ring.wf.inRange hwf
    exact (accepted_send hr hp).trans (accepted_of_eq h.1 h.2)

/-- `BT_INIT` empties TX, which holds nothing while the transport is not initialised (R41, R184). -/
theorem execBtInit_accepted (prio : Byte) (gok : Bool) (rxmode txmode : PinMode) (pclkHz baud : Word) {s : State}
    (hwf : s.tx.wf = true) (dormant : s.DormantWf) :
    Holds (fun t => t.accepted = s.accepted) (execBtInit prio gok rxmode txmode pclkHz baud s) := by
  unfold execBtInit
  split
  · trivial
  · next init =>
    obtain ⟨-, empty, -⟩ := dormant (by simpa using init)
    have nothing : s.tx.contents = [] := Ring.contents_eq_nil ((Ring.isEmpty_iff (Ring.wf.inRange hwf)).1 empty)
    split
    · split
      · trivial
      · simp [State.accepted, Ring.emptied_contents, nothing]
    · exact rfl

theorem not_isOf_btInit (prio : Byte) (gok : Bool) (rxmode txmode : PinMode) (pclkHz baud : Word) (f : Frame) :
    ¬ f.isOf (.btInit prio gok rxmode txmode pclkHz baud) := by
  cases f <;> simp [Frame.isOf, handlerVector?]

theorem not_isOf_usartIrq (f : Frame) : ¬ f.isOf .usartIrq := by
  cases f <;> simp [Frame.isOf]

/-! ### Every run, and every step -/

/-- TX is in the frame of its producer, its consumer and its initialisation alone (R32, R184). -/
theorem keeps_tx {i : Instr} {s t : State} (h : s.keeps i t)
    (init : ∀ prio gok rxmode txmode pclkHz baud, i ≠ .btInit prio gok rxmode txmode pclkHz baud)
    (write : ∀ data length, i ≠ .btWrite data length) (serial : i ≠ .usartIrq) : t.tx = s.tx := by
  have roles := keeps_ringRoles h init
  obtain ⟨head, buf, drop⟩ := roles.txProducer write
  obtain ⟨tail, -⟩ := roles.serial serial
  show Ring.mk t.tx.buf t.tx.head t.tx.tail t.tx.drop = s.tx
  rw [buf, head, tail, drop]

/-- The other operations have neither TX nor `tx_line` in their frame (R32, R38). -/
theorem runs_accepted_same {i : Instr} {s t : State} (h : s.runs i t)
    (init : ∀ prio gok rxmode txmode pclkHz baud, i ≠ .btInit prio gok rxmode txmode pclkHz baud)
    (write : ∀ data length, i ≠ .btWrite data length) (serial : i ≠ .usartIrq) : t.accepted = s.accepted := by
  rcases runs_cases h with ⟨hk, -⟩ | ⟨-, p, hp⟩
  · exact accepted_of_eq (keeps_tx hk init write serial) (keeps_txLine hk serial)
  · exact accepted_of_eq (congrArg State.tx hp.only.1 :) (congrArg State.txLine hp.only.1 :)

theorem runs_btWrite_accepted {data length : Word} {s t : State} (h : s.runs (.btWrite data length) t)
    (hwf : s.tx.wf = true) : s.accepted <+: t.accepted := by
  rcases h with h | ⟨f, hf, -, h⟩
  · exact holds_of_eq (execBtWrite_accepted data length hwf) h
  · cases f with
    | btWrite data length point =>
      exact holds_of_eq ((writeFrameRule_accepted data length s).resume point ⟨hwf, List.prefix_rfl⟩) h
    | _ => simp [Frame.isOf, handlerVector?] at hf

theorem runs_accepted {i : Instr} {s t : State} (h : s.runs i t) (hwf : s.tx.wf = true) (dormant : s.DormantWf) :
    s.accepted <+: t.accepted := by
  cases i with
  | btWrite data length => exact runs_btWrite_accepted h hwf
  | btInit prio gok rxmode txmode pclkHz baud =>
    have hexec := h.entered (not_isOf_btInit prio gok rxmode txmode pclkHz baud)
    have same := holds_of_eq (execBtInit_accepted prio gok rxmode txmode pclkHz baud hwf dormant) hexec
    exact same ▸ List.prefix_rfl
  | usartIrq =>
    have same := holds_of_eq (usartRule_accepted hwf).exec (h.entered not_isOf_usartIrq)
    exact same ▸ List.prefix_rfl
  | _ => exact runs_accepted_same h nofun nofun nofun ▸ List.prefix_rfl

theorem step_accepted {s t : State} (h : s.Inv) (hstep : step s = .next t) : s.accepted <+: t.accepted := by
  obtain ⟨i, u, hrun, same, -⟩ := step_runs h.frames hstep
  have tx : u.tx = s.tx := by rw [same]
  have dormant : u.DormantWf := by
    rw [same]
    exact h.dormant
  have grows := runs_accepted hrun (tx ▸ h.rings.2) dormant
  rwa [accepted_of_eq tx (congrArg State.txLine same :)] at grows

end Sys2Proof.Machine

namespace Sys2Proof

open Machine

/-- Settles O48: every step is one operation running; `BT_WRITE` adds to the bytes accepted, the serial handler moves one from
the queue to the line, `BT_INIT` empties an empty queue, and nothing else touches them (R71, R192). -/
theorem transmissionKeepsOrder : Obligations.TransmissionKeepsOrder := fun _ _ h hstep => step_accepted h hstep

end Sys2Proof
end

section
/-! Sequences of ring accesses (R71), transfers that do nothing (R66, R186, R187), and DMEM (R65). -/

namespace Sys2Proof.Machine

/-! ### Sequences of ring accesses (R71) -/

namespace Ring

theorem run_push_stored {r r' : Ring} {b : Byte} (h : r.push b = some r') (more : List RingAccess) :
    r.run (.push b :: more) = ((r'.run more).1, b :: (r'.run more).2.1, (r'.run more).2.2) := by
  simp only [run, h]

theorem run_push_full {r : Ring} {b : Byte} (h : r.push b = none) (more : List RingAccess) :
    r.run (.push b :: more) = r.run more := by
  simp only [run, h]

theorem run_pop_byte {r r' : Ring} {b : Byte} (h : r.pop = .byte b r') (more : List RingAccess) :
    r.run (.pop :: more) = ((r'.run more).1, (r'.run more).2.1, b :: (r'.run more).2.2) := by
  simp only [run, h]

theorem run_pop_none {r : Ring} (h : ∀ b r', r.pop ≠ .byte b r') (more : List RingAccess) :
    r.run (.pop :: more) = r.run more := by
  cases hp : r.pop with
  | byte b r' => exact absurd hp (h b r')
  | empty | unwritten => simp only [run, hp]

/-- A push appends to the live bytes and a pop takes the oldest, so that over any sequence of them what was popped and
what is live are what was live and what was stored. -/
theorem run_fifo (accesses : List RingAccess) {r : Ring} (hr : r.wf = true) :
    (r.run accesses).1.wf = true ∧ (r.run accesses).1.size = r.size ∧
      (r.run accesses).2.2 ++ (r.run accesses).1.contents = r.contents ++ (r.run accesses).2.1 := by
  induction accesses generalizing r with
  | nil => exact ⟨hr, rfl, (List.append_nil _).symm⟩
  | cons access more ih =>
    cases access with
    | push b =>
      cases hp : r.push b with
      | none =>
        rw [run_push_full hp]
        exact ih hr
      | some r' =>
        obtain ⟨hwf, hsize, hbytes⟩ := ih (push_wf hr hp)
        rw [run_push_stored hp]
        refine ⟨hwf, hsize.trans (push_size hp), hbytes.trans ?_⟩
        simp [push_contents (wf.inRange hr) hp]
    | pop =>
      by_cases hp : ∃ b r', r.pop = .byte b r'
      · obtain ⟨b, r', hp⟩ := hp
        obtain ⟨hwf, hsize, hbytes⟩ := ih (pop_wf hr hp)
        rw [run_pop_byte hp]
        refine ⟨hwf, hsize.trans (pop_size hp), ?_⟩
        simp [hbytes, pop_contents (wf.inRange hr) hp]
      · rw [run_pop_none fun b r' e => hp ⟨b, r', e⟩]
        exact ih hr

end Ring

/-! ### Transfers that do nothing (R66, R186, R187) -/

section
variable {p n : Word} {s : State}

theorem execBtWrite_beforeInit (h : s.bt.init = false) : execBtWrite p n s = .refused .useBeforeInit := by
  simp [execBtWrite, h]

theorem execBtRead_beforeInit (h : s.bt.init = false) : execBtRead p n s = .refused .useBeforeInit := by
  simp [execBtRead, h]

theorem isNull_iff : isNull p = true ↔ p = 0 := beq_iff_eq

theorem execBtWrite_nothing (h : s.bt.init = true) (empty : n = 0 ∨ p = 0) : execBtWrite p n s = s.succeed 0 := by
  rw [execBtWrite, if_pos h, if_pos (empty.imp_right isNull_iff.2)]

theorem execBtRead_nothing (h : s.bt.init = true) (empty : n = 0 ∨ p = 0) : execBtRead p n s = s.succeed 0 := by
  rw [execBtRead, if_pos h, if_pos (empty.imp_right isNull_iff.2)]

end

/-! ### Transfer addresses (R61, R65) -/

theorem transferAddress_toNat (base : Word) (i : Nat) : (transferAddress base i).toNat = (base.toNat + i) % 2 ^ 32 := by
  rw [transferAddress, BitVec.toNat_add, trunc32_toNat, Nat.add_mod_mod]

end Sys2Proof.Machine

namespace Sys2Proof

open Machine

/-- Settles O34, by induction on the accesses; with nothing live at the start the bytes popped begin the bytes stored (R71). -/
theorem ringIsFirstInFirstOut : Obligations.RingIsFirstInFirstOut := by
  intro r accesses hr
  obtain ⟨hwf, hsize, hbytes⟩ := Ring.run_fifo accesses hr
  refine ⟨hwf, hsize, hbytes, fun empty => ⟨_, hbytes.trans ?_⟩⟩
  rw [Ring.contents_eq_nil ((Ring.isEmpty_iff (Ring.wf.inRange hr)).1 empty), List.nil_append]

/-- Settles O24: the tests of R186 and R187 before their first byte. -/
theorem emptyTransfers : Obligations.EmptyTransfers := fun _ _ _ =>
  ⟨fun off => ⟨execBtWrite_beforeInit off, execBtRead_beforeInit off⟩,
    fun on empty => ⟨execBtWrite_nothing on empty, execBtRead_nothing on empty⟩⟩

/-- Settles O35: the laws of DMEM, and the wrapping sum of a transfer address (R65). -/
theorem memoryReadsBack : Obligations.MemoryReadsBack := fun s a _ b h =>
  ⟨memRead_memWrite_same h a b, memRead_memWrite_other s b, Memory.wf_write h a b, rfl, transferAddress_toNat a⟩

end Sys2Proof
end

section
/-! Decoding and encoding are inverse to each other (R91 to R96, R99), and which first words decode at all (R94). -/

namespace Sys2Proof

/-! ### Field codes -/

@[simp] theorem PinMode.ofCode_code (m : PinMode) : PinMode.ofCode m.code = m := by cases m <;> rfl

@[simp] theorem EdgeMode.ofCode_code (m : EdgeMode) : EdgeMode.ofCode m.code = m := by cases m <;> rfl

@[simp] theorem Direction.ofCode_code (d : Direction) : Direction.ofCode d.code = d := by cases d <;> rfl

@[simp] theorem StatSel.ofCode?_code (sel : StatSel) : StatSel.ofCode? sel.code = some sel := by cases sel <;> rfl

@[simp] theorem flagCode_beq_one (b : Bool) : (flagCode b == 1) = b := by cases b <;> rfl

theorem PinMode.code_ofCode {n : Nat} (h : n < 4) : (PinMode.ofCode n).code = n := by interval_cases n <;> rfl

theorem EdgeMode.code_ofCode {n : Nat} (h : n < 4) : (EdgeMode.ofCode n).code = n := by interval_cases n <;> rfl

theorem Direction.code_ofCode {n : Nat} (h : n < 2) : (Direction.ofCode n).code = n := by interval_cases n <;> rfl

theorem StatSel.code_of_ofCode? {n : Nat} {sel : StatSel} (h : StatSel.ofCode? n = some sel) : sel.code = n := by
  unfold StatSel.ofCode? at h
  split at h <;> cases h <;> rfl

theorem StatSel.ofCode?_isSome_iff (n : Nat) : (∃ sel, StatSel.ofCode? n = some sel) ↔ n < 10 := by
  constructor
  · rintro ⟨sel, h⟩
    exact code_of_ofCode? h ▸ sel.code_lt
  · intro h
    interval_cases n <;> exact ⟨_, rfl⟩

/-! ### Reading a field -/

theorem field_lt (w : Word) {hi lo n : Nat} (hn : hi + 1 - lo = n) : field w hi lo < 2 ^ n :=
  hn ▸ Nat.mod_lt _ (Nat.two_pow_pos _)

/-- A field read into a type of its own width keeps its value. -/
theorem toNat_ofNat_field (w : Word) {n hi lo : Nat} (hn : hi + 1 - lo = n) :
    (BitVec.ofNat n (field w hi lo)).toNat = field w hi lo := by
  rw [BitVec.toNat_ofNat, Nat.mod_eq_of_lt (field_lt w hn)]

theorem flagCode_flagField (w : Word) (i : Nat) : flagCode (flagField w i) = field w i i := by
  have h : field w i i < 2 := field_lt w (n := 1) (by omega)
  rcases Nat.le_one_iff_eq_zero_or_eq_one.1 (Nat.le_of_lt_succ h) with h | h <;> simp [flagField, flagCode, h]

theorem lineField_val (w : Word) {hi lo : Nat} (h : hi = lo + 3) : (lineField w lo).val = field w hi lo := by
  subst h
  exact Nat.mod_eq_of_lt (field_lt w (n := 4) (by omega))

theorem PinMode.code_ofCode_field (w : Word) {hi lo : Nat} (h : hi + 1 - lo = 2) :
    (PinMode.ofCode (field w hi lo)).code = field w hi lo := code_ofCode (field_lt w h)

theorem EdgeMode.code_ofCode_field (w : Word) {hi lo : Nat} (h : hi + 1 - lo = 2) :
    (EdgeMode.ofCode (field w hi lo)).code = field w hi lo := code_ofCode (field_lt w h)

theorem Direction.code_ofCode_field (w : Word) {hi lo : Nat} (h : hi + 1 - lo = 1) :
    (Direction.ofCode (field w hi lo)).code = field w hi lo := code_ofCode (field_lt w h)

/-- A word is the one that an opcode and fields make if they add up to its value. -/
theorem word0_eq_of_sum {w : Word} {op : Nat} {parts : List (Nat × Nat)}
    (h : op * 2 ^ 24 + (parts.map (fun p => p.1 * 2 ^ p.2)).sum = w.toNat) : word0 op parts = w := by
  rw [word0, h, trunc32, BitVec.ofNat_toNat, BitVec.setWidth_eq]

/-! ### The two spellings of a range (R99) -/

theorem encode_dispatchSpelling (first last : LineNo) :
    encode (dispatchSpelling first last) = [dispatchWord first.val last.val] := by
  unfold dispatchSpelling
  split <;> simp [encode, *]

theorem dispatchSpelling_wellFormed (first last : LineNo) : (dispatchSpelling first last).wellFormed = true := by
  revert first last
  decide

theorem dispatchSpelling_of_wellFormed {first last : LineNo} (h : (Instr.dispatch first last).wellFormed = true) :
    dispatchSpelling first last = .dispatch first last := by
  revert first last
  decide

/-! ### What decodes -/

/-- The bits that a row marks as zero are zero in the word (R92, R96). -/
def OpRow.ReservedClear (row : OpRow) (w : Word) : Prop := ∀ f ∈ row.zero, field w f.1 f.2 = 0

/-- Words decode where the opcode has a row, the row's reserved bits are clear, its operand words are there, and the operands
assemble (R93, R94, R96). -/
theorem decode_cons_eq_ok {w : Word} {more rest : List Word} {i : Instr} :
    decode (w :: more) = .ok (i, rest) ↔ ∃ row w1 w2, opRow? (field w 31 24) = some row ∧ row.ReservedClear w ∧
      takeOperands row.words more = some (w1, w2, rest) ∧ assemble row.code w w1 w2 = .ok i := by
  constructor
  · intro h
    obtain ⟨_, _, row, w1, w2, he, hrow, htake, hi⟩ := decode_eq_ok h
    cases he
    refine ⟨row, w1, w2, hrow, ?_, htake, hi⟩
    simp only [decode, hrow] at h
    split at h
    · next hz => simpa [OpRow.ReservedClear] using hz
    · cases h
  · rintro ⟨row, w1, w2, hrow, hz, htake, hi⟩
    have hz : row.zero.all (fun f => field w f.1 f.2 == 0) = true := by simpa [OpRow.ReservedClear] using hz
    simp only [decode, hrow, hz, htake, hi, if_true]

theorem decode_of_fields {w w1 w2 : Word} {op : Nat} {row : OpRow} {more rest : List Word} {i : Instr}
    (hop : field w 31 24 = op) (hrow : opRow? op = some row) (hz : row.ReservedClear w)
    (htake : takeOperands row.words more = some (w1, w2, rest)) (hi : assemble row.code w w1 w2 = .ok i) :
    decode (w :: more) = .ok (i, rest) :=
  decode_cons_eq_ok.2 ⟨row, w1, w2, hop ▸ hrow, hz, htake, hi⟩

/-- A row with one run of reserved bits. -/
theorem reservedClear_singleton {code words hi lo : Nat} {w : Word} (h : field w hi lo = 0) :
    OpRow.ReservedClear ⟨code, words, [(hi, lo)]⟩ w := List.forall_mem_singleton.2 h

/-! ### From an operation to its words

For each operation with fields in its first word: the fields that the decoder reads there are the ones that were written,
and the reserved bits are clear. -/

section
variable (prio byte : Byte) (gok nf fe pe : Bool) (mode txmode : PinMode) (line : LineNo)
variable (w1 w2 : Word) (rest : List Word)

theorem decode_encode_tbInit :
    decode (encode (.tbInit prio w1 w2) ++ rest) = .ok (.tbInit prio w1 w2, rest) := by
  have := prio.isLt
  simp only [encode, List.cons_append, List.nil_append]
  generalize hw : word0 _ _ = w
  obtain ⟨hop, hz, hprio⟩ : field w 31 24 = 0x01 ∧ field w 15 0 = 0 ∧ field w 23 16 = prio.toNat := by
    simp only [← hw, field, word0_toNat, fieldSum_cons, fieldSum_nil]
    omega
  refine decode_of_fields hop rfl (reservedClear_singleton hz) rfl ?_
  simp [assemble, prioField, hprio]

theorem decode_encode_ilrRegister :
    decode (encode (.ilrRegister byte w1 w2) ++ rest) = .ok (.ilrRegister byte w1 w2, rest) := by
  have := byte.isLt
  simp only [encode, List.cons_append, List.nil_append]
  generalize hw : word0 _ _ = w
  obtain ⟨hop, hz, hbyte⟩ : field w 31 24 = 0x10 ∧ field w 23 8 = 0 ∧ field w 7 0 = byte.toNat := by
    simp only [← hw, field, word0_toNat, fieldSum_cons, fieldSum_nil]
    omega
  refine decode_of_fields hop rfl (reservedClear_singleton hz) rfl ?_
  simp [assemble, hbyte]

theorem decode_encode_ilrConfig (edge : EdgeMode) (port : BitVec 4) :
    decode (encode (.ilrConfig prio gok edge mode port line) ++ rest) =
      .ok (.ilrConfig prio gok edge mode port line, rest) := by
  have := prio.isLt
  have := flagCode_lt gok
  have := edge.code_lt
  have := mode.code_lt
  have := port.isLt
  have := line.isLt
  simp only [encode, List.cons_append, List.nil_append]
  generalize hw : word0 _ _ = w
  obtain ⟨hop, hz, hprio, hgok, hedge, hmode, hport, hline⟩ : field w 31 24 = 0x11 ∧ field w 15 13 = 0 ∧
      field w 23 16 = prio.toNat ∧ field w 12 12 = flagCode gok ∧ field w 11 10 = edge.code ∧ field w 9 8 = mode.code ∧
      field w 7 4 = port.toNat ∧ field w 3 0 = line.val := by
    simp only [← hw, field, word0_toNat, fieldSum_cons, fieldSum_nil]
    omega
  refine decode_of_fields hop rfl (reservedClear_singleton hz) rfl ?_
  simp [assemble, prioField, flagField, lineField, hprio, hgok, hedge, hmode, hport, hline]

theorem decode_encode_btInit :
    decode (encode (.btInit prio gok mode txmode w1 w2) ++ rest) = .ok (.btInit prio gok mode txmode w1 w2, rest) := by
  have := prio.isLt
  have := flagCode_lt gok
  have := mode.code_lt
  have := txmode.code_lt
  simp only [encode, List.cons_append, List.nil_append]
  generalize hw : word0 _ _ = w
  obtain ⟨hop, hz, hprio, hgok, hmode, htx⟩ : field w 31 24 = 0x20 ∧ field w 15 5 = 0 ∧ field w 23 16 = prio.toNat ∧
      field w 4 4 = flagCode gok ∧ field w 3 2 = mode.code ∧ field w 1 0 = txmode.code := by
    simp only [← hw, field, word0_toNat, fieldSum_cons, fieldSum_nil]
    omega
  refine decode_of_fields hop rfl (reservedClear_singleton hz) rfl ?_
  simp [assemble, prioField, flagField, hprio, hgok, hmode, htx]

theorem decode_encode_btStat (sel : StatSel) :
    decode (encode (.btStat sel) ++ rest) = .ok (.btStat sel, rest) := by
  have := sel.code_lt
  simp only [encode, List.cons_append, List.nil_append]
  generalize hw : word0 _ _ = w
  obtain ⟨hop, hz, hsel⟩ : field w 31 24 = 0x24 ∧ field w 23 4 = 0 ∧ field w 3 0 = sel.code := by
    simp only [← hw, field, word0_toNat, fieldSum_cons, fieldSum_nil]
    omega
  refine decode_of_fields hop rfl (reservedClear_singleton hz) rfl ?_
  simp [assemble, hsel]

theorem decode_encode_envEdge (dir : Direction) :
    decode (encode (.envEdge dir line) ++ rest) = .ok (.envEdge dir line, rest) := by
  have := dir.code_lt
  have := line.isLt
  simp only [encode, List.cons_append, List.nil_append]
  generalize hw : word0 _ _ = w
  obtain ⟨hop, hz, hdir, hline⟩ : field w 31 24 = 0x90 ∧ field w 23 5 = 0 ∧ field w 4 4 = dir.code ∧
      field w 3 0 = line.val := by
    simp only [← hw, field, word0_toNat, fieldSum_cons, fieldSum_nil]
    omega
  refine decode_of_fields hop rfl (reservedClear_singleton hz) rfl ?_
  simp [assemble, lineField, hdir, hline]

theorem decode_encode_envRx :
    decode (encode (.envRx nf fe pe byte) ++ rest) = .ok (.envRx nf fe pe byte, rest) := by
  have := flagCode_lt nf
  have := flagCode_lt fe
  have := flagCode_lt pe
  have := byte.isLt
  simp only [encode, List.cons_append, List.nil_append]
  generalize hw : word0 _ _ = w
  obtain ⟨hop, hz, hnf, hfe, hpe, hbyte⟩ : field w 31 24 = 0x91 ∧ field w 23 11 = 0 ∧ field w 10 10 = flagCode nf ∧
      field w 9 9 = flagCode fe ∧ field w 8 8 = flagCode pe ∧ field w 7 0 = byte.toNat := by
    simp only [← hw, field, word0_toNat, fieldSum_cons, fieldSum_nil]
    omega
  refine decode_of_fields hop rfl (reservedClear_singleton hz) rfl ?_
  simp [assemble, flagField, hnf, hfe, hpe, hbyte]

theorem decode_encode_envCvr (value : BitVec 24) :
    decode (encode (.envCvr value) ++ rest) = .ok (.envCvr value, rest) := by
  have := value.isLt
  simp only [encode, List.cons_append, List.nil_append]
  generalize hw : word0 _ _ = w
  obtain ⟨hop, hvalue⟩ : field w 31 24 = 0x93 ∧ field w 23 0 = value.toNat := by
    simp only [← hw, field, word0_toNat, fieldSum_cons, fieldSum_nil]
    omega
  refine decode_of_fields hop rfl (List.forall_mem_nil _) rfl ?_
  simp [assemble, hvalue]

theorem decode_dispatchWord (first last : LineNo) :
    decode (dispatchWord first.val last.val :: rest) = .ok (dispatchSpelling first last, rest) := by
  have := first.isLt
  have := last.isLt
  rw [dispatchWord]
  generalize hw : word0 _ _ = w
  obtain ⟨hop, hz, hfirst, hlast⟩ : field w 31 24 = 0x81 ∧ field w 23 8 = 0 ∧ field w 7 4 = first.val ∧
      field w 3 0 = last.val := by
    simp only [← hw, field, word0_toNat, fieldSum_cons, fieldSum_nil]
    omega
  refine decode_of_fields hop rfl (reservedClear_singleton hz) rfl ?_
  simp [assemble, lineField, hfirst, hlast]

end

theorem decode_encode {i : Instr} (rest : List Word) (h : i.wellFormed = true) :
    decode (encode i ++ rest) = .ok (i, rest) := by
  cases i with
  | tbInit => exact decode_encode_tbInit ..
  | ilrRegister => exact decode_encode_ilrRegister ..
  | ilrConfig => exact decode_encode_ilrConfig ..
  | btInit => exact decode_encode_btInit ..
  | btStat => exact decode_encode_btStat ..
  | envEdge => exact decode_encode_envEdge ..
  | envRx => exact decode_encode_envRx ..
  | envCvr => exact decode_encode_envCvr ..
  | dispatch first last =>
    rw [← dispatchSpelling_of_wellFormed h, encode_dispatchSpelling]
    exact decode_dispatchWord rest first last
  | vecL0 => exact decode_dispatchWord rest 0 0
  | vecL1 => exact decode_dispatchWord rest 1 1
  | vecL2 => exact decode_dispatchWord rest 2 2
  | vecL3 => exact decode_dispatchWord rest 3 3
  | vecL4 => exact decode_dispatchWord rest 4 4
  | vecL5to9 => exact decode_dispatchWord rest 5 9
  | vecL10to15 => exact decode_dispatchWord rest 10 15
  -- an operation with no field in its first word: that word is a constant
  | _ => rfl

theorem encode_length (i : Instr) : (encode i).length = i.words := by cases i <;> rfl

/-! ### From words to the operation -/

/-- What a row assembles to is well formed and is encoded as the words it was read from: the fields and the reserved bits,
which are 0, make up the whole first word. -/
theorem encode_assemble {code : Nat} {row : OpRow} {w w1 w2 : Word} {i : Instr} (hop : field w 31 24 = code)
    (hr : opRow? code = some row) (hz : row.ReservedClear w) (h : assemble code w w1 w2 = .ok i) :
    i.wellFormed = true ∧ encode i = w :: [w1, w2].take (row.words - 1) := by
  have hw := w.isLt
  unfold assemble at h
  split at h
  -- `BT_STAT`, whose selector may be reserved
  case h_13 =>
    cases hr
    split at h
    · next sel hsel =>
      cases h
      have := StatSel.code_of_ofCode? hsel
      have := hz _ List.mem_cons_self
      refine ⟨rfl, congrArg (· :: _) (word0_eq_of_sum ?_)⟩
      simp only [fieldSum_cons, fieldSum_nil, field] at *
      omega
    · cases h
  -- `DISPATCH`, whose range has two spellings
  case h_15 =>
    cases hr
    cases h
    have := hz _ List.mem_cons_self
    refine ⟨dispatchSpelling_wellFormed _ _, ?_⟩
    rw [encode_dispatchSpelling]
    refine congrArg (· :: _) (word0_eq_of_sum ?_)
    simp only [fieldSum_cons, fieldSum_nil, lineField_val]
    simp only [field] at *
    omega
  -- an undefined opcode
  case h_21 => cases h
  -- every other row: what its readers give back, in place, adds up to the word
  all_goals
    cases hr
    cases h
    simp only [OpRow.ReservedClear, List.forall_mem_singleton, List.not_mem_nil, false_imp_iff, implies_true] at hz
    refine ⟨rfl, congrArg (· :: _) (word0_eq_of_sum ?_)⟩
    simp only [fieldSum_cons, fieldSum_nil, prioField, toNat_ofNat_field, lineField_val, flagCode_flagField,
      PinMode.code_ofCode_field, EdgeMode.code_ofCode_field, Direction.code_ofCode_field]
    simp only [field] at *
    omega

/-- The operand words of a row are the ones before the rest (R93). -/
theorem takeOperands_take {row : OpRow} {code : Nat} {more rest : List Word} {w1 w2 : Word} (hr : opRow? code = some row)
    (h : takeOperands row.words more = some (w1, w2, rest)) : more = [w1, w2].take (row.words - 1) ++ rest := by
  rcases opRow?_words hr with hn | hn <;> rw [hn] at h ⊢
  · cases h
    rfl
  · unfold takeOperands at h
    rw [if_pos rfl] at h
    split at h <;> cases h
    rfl

theorem encode_of_decode {ws rest : List Word} {i : Instr} (h : decode ws = .ok (i, rest)) :
    i.wellFormed = true ∧ ws = encode i ++ rest := by
  cases ws with
  | nil => cases h
  | cons w more =>
    obtain ⟨row, w1, w2, hrow, hz, htake, hi⟩ := decode_cons_eq_ok.1 h
    have hcode := opRow?_code hrow
    obtain ⟨hwf, he⟩ := encode_assemble hcode.symm (hcode ▸ hrow) hz hi
    refine ⟨hwf, ?_⟩
    rw [he, List.cons_append, ← takeOperands_take hrow htake]

/-- Settles O36: for each constructor the fields read back as they were written (R91 to R95, R99). -/
theorem encodedOperationsDecode : Obligations.EncodedOperationsDecode :=
  fun i rest h => ⟨decode_encode rest h, encode_length i⟩

/-- Settles O37: for each row the fields that are read and the reserved bits make up the first word (R92, R93, R96). -/
theorem decodedWordsEncodeBack : Obligations.DecodedWordsEncodeBack := fun _ _ _ h => encode_of_decode h

/-- Settles O39: the words of R100 are the encodings of the operations beside them. -/
theorem workedEncodings : Obligations.WorkedEncodings :=
  ⟨decode_encode (i := .tbInit 0 16000000 1000) [] rfl,
    decode_encode (i := .ilrRegister 13 0x08001235 0x20000010) [] rfl,
    decode_encode (i := .ilrConfig 5 true .falling .input 2 13) [] rfl,
    decode_encode (i := .btInit 6 true .alternate .alternate 16000000 115200) [] rfl,
    decode_encode (i := .btStat .txDrop) [] rfl, decode_encode (i := .envRx false true false 0x55) [] rfl,
    decode_encode (i := .envCvr 7999) [] rfl, decode_encode (i := .envEdge .fall 13) [] rfl,
    decode_encode (i := .vecL5to9) [] rfl, decode_encode (i := .dispatch 0 15) [] rfl⟩

end Sys2Proof
end

section
/-! The opcode table as match and mask (R94): which first words decode. -/

namespace Sys2Proof

open Machine

/-! ### Masks -/

/-- The word whose bits `hi` down to `lo` are 1 and whose other bits are 0. -/
def fieldMask (hi lo : Nat) : Word := trunc32 ((2 ^ (hi + 1 - lo) - 1) <<< lo)

/-- Masking a word leaves the masked field's value in its place. -/
theorem toNat_and_fieldMask (w : Word) {hi lo : Nat} (hhi : hi < 32) :
    (w &&& fieldMask hi lo).toNat = field w hi lo * 2 ^ lo := by
  apply Nat.eq_of_testBit_eq
  intro i
  simp only [fieldMask, field, BitVec.toNat_and, trunc32_toNat, Nat.testBit_and, Nat.testBit_mod_two_pow,
    Nat.testBit_shiftLeft, Nat.testBit_two_pow_sub_one, Nat.testBit_mul_two_pow, Nat.testBit_div_two_pow]
  by_cases hlo : lo ≤ i
  · simp only [hlo, decide_true, Bool.true_and, Nat.sub_add_cancel hlo]
    by_cases hw : i - lo < hi + 1 - lo
    · simp [hw, show i < 32 by omega]
    · simp [hw]
  · simp [hlo]

theorem and_fieldMask_eq_iff {w v : Word} {hi lo : Nat} (hhi : hi < 32) :
    w &&& fieldMask hi lo = v ↔ field w hi lo * 2 ^ lo = v.toNat := by
  rw [← BitVec.toNat_inj, toNat_and_fieldMask w hhi]

theorem and_fieldMask_eq_zero_iff {w : Word} {hi lo : Nat} (hhi : hi < 32) :
    w &&& fieldMask hi lo = 0 ↔ field w hi lo = 0 := by
  rw [and_fieldMask_eq_iff hhi]
  simp

theorem and_opcodeMask_eq_iff {w : Word} {op : Nat} (hop : op < 256) :
    w &&& fieldMask 31 24 = word0 op [] ↔ field w 31 24 = op := by
  rw [and_fieldMask_eq_iff (by decide), word0_toNat, fieldSum_nil]
  omega

theorem and_or_and_left (w m n : Word) : w &&& (m ||| n) &&& m = w &&& m := by
  ext i
  simp only [BitVec.getElem_and, BitVec.getElem_or]
  cases m[i] <;> simp

/-- Two masks together, where the value looked for has bits in the first alone. -/
theorem and_or_eq_iff {w m n v : Word} (hm : v &&& m = v) (hn : v &&& n = 0) :
    w &&& (m ||| n) = v ↔ w &&& m = v ∧ w &&& n = 0 := by
  constructor
  · rintro rfl
    rw [BitVec.or_comm m n, and_or_and_left] at hn
    exact ⟨(and_or_and_left w m n).symm.trans hm, hn⟩
  · rintro ⟨hv, h⟩
    rw [BitVec.and_or_distrib_left, hv, h]
    exact BitVec.or_zero

/-! ### The rows -/

/-- The opcode's bits and some reserved bits. -/
def rowMask (zero : List (Nat × Nat)) : Word := zero.foldr (fun f m => m ||| fieldMask f.1 f.2) (fieldMask 31 24)

/-- The twenty match and mask pairs are the rows' opcodes and reserved bits. -/
theorem opcodeMasks_eq : opcodeMasks = opRows.map (fun r => (word0 r.code [], rowMask r.zero)) := by decide

/-- A word matches under a row's mask if it does under the mask of each of the row's fields. -/
theorem and_rowMask_eq_iff {v : Word} {zero : List (Nat × Nat)} (hop : v &&& fieldMask 31 24 = v)
    (hz : ∀ f ∈ zero, v &&& fieldMask f.1 f.2 = 0) (w : Word) :
    w &&& rowMask zero = v ↔ w &&& fieldMask 31 24 = v ∧ ∀ f ∈ zero, w &&& fieldMask f.1 f.2 = 0 := by
  induction zero generalizing w with
  | nil => simp [rowMask]
  | cons f zero ih =>
    rw [List.forall_mem_cons] at hz ⊢
    have hv : v &&& rowMask zero = v := (ih hz.2 v).2 ⟨hop, hz.2⟩
    have hcons : rowMask (f :: zero) = rowMask zero ||| fieldMask f.1 f.2 := rfl
    rw [hcons, and_or_eq_iff hv hz.1, ih hz.2, and_assoc, and_comm (a := w &&& fieldMask f.1 f.2 = 0)]

theorem matches_row_iff {row : OpRow} (h : row ∈ opRows) (w : Word) :
    w &&& rowMask row.zero = word0 row.code [] ↔ field w 31 24 = row.code ∧ row.ReservedClear w := by
  have table : ∀ r ∈ opRows, r.code < 256 ∧
      ∀ f ∈ r.zero, f.1 < 32 ∧ word0 r.code [] &&& fieldMask f.1 f.2 = 0 := by decide
  obtain ⟨hcode, hzero⟩ := table row h
  have hop : word0 row.code [] &&& fieldMask 31 24 = word0 row.code [] :=
    (and_opcodeMask_eq_iff hcode).2 (opcode_word0 hcode (by decide))
  rw [and_rowMask_eq_iff hop (fun f hf => (hzero f hf).2), and_opcodeMask_eq_iff hcode]
  exact and_congr_right fun _ => forall₂_congr fun f hf => and_fieldMask_eq_zero_iff (hzero f hf).1

theorem opRow?_eq_some_iff {code : Nat} {row : OpRow} : opRow? code = some row ↔ row ∈ opRows ∧ code = row.code := by
  have self : ∀ r ∈ opRows, opRow? r.code = some r := by decide
  constructor
  · exact fun h => ⟨List.mem_of_find?_eq_some h, (opRow?_code h).symm⟩
  · rintro ⟨h, rfl⟩
    exact self row h

/-! ### Which first words decode -/

/-- The operands of a defined opcode assemble unless they are a reserved selector (R96, R193). -/
theorem assemble_ok_iff {code : Nat} {row : OpRow} {w w1 w2 : Word} (hr : opRow? code = some row) :
    (∃ i, assemble code w w1 w2 = .ok i) ↔ ¬ (code = 0x24 ∧ 10 ≤ field w 3 0) := by
  have hu := assemble_ne_undefined (w0 := w) (w1 := w1) (w2 := w2) (op := code) hr
  unfold assemble at *
  split at *
  case h_13 =>
    rw [← not_lt, ← StatSel.ofCode?_isSome_iff]
    cases StatSel.ofCode? (field w 3 0) <;> simp
  case h_21 => exact absurd rfl hu
  all_goals simp

theorem takeOperands_of_two (n : Nat) (w1 w2 : Word) (rest : List Word) :
    ∃ v1 v2 more, takeOperands n (w1 :: w2 :: rest) = some (v1, v2, more) := by
  unfold takeOperands
  split <;> exact ⟨_, _, _, rfl⟩

theorem decodes_iff (w w1 w2 : Word) (rest : List Word) :
    (∃ i more, decode (w :: w1 :: w2 :: rest) = .ok (i, more)) ↔
      (∃ row ∈ opRows, field w 31 24 = row.code ∧ row.ReservedClear w) ∧
        ¬ (field w 31 24 = 0x24 ∧ 10 ≤ field w 3 0) := by
  simp only [decode_cons_eq_ok]
  constructor
  · rintro ⟨i, _, row, v1, v2, hrow, hz, _, hi⟩
    obtain ⟨hmem, hcode⟩ := opRow?_eq_some_iff.1 hrow
    rw [hcode] at hrow ⊢
    exact ⟨⟨row, hmem, rfl, hz⟩, (assemble_ok_iff hrow).1 ⟨i, hi⟩⟩
  · rintro ⟨⟨row, hmem, hcode, hz⟩, hsel⟩
    have hrow := opRow?_eq_some_iff.2 ⟨hmem, hcode⟩
    obtain ⟨v1, v2, more, htake⟩ := takeOperands_of_two row.words w1 w2 rest
    obtain ⟨i, hi⟩ := (assemble_ok_iff (w1 := v1) (w2 := v2) hrow).2 hsel
    exact ⟨i, more, row, v1, v2, hrow, hz, htake, hcode ▸ hi⟩

/-- The reserved selectors of `BT_STAT` by masks (R96). -/
theorem reservedSelector_iff (w : Word) :
    (w &&& 0xFF000000 = 0x24000000 ∧ 10 ≤ w &&& 0xF) ↔ field w 31 24 = 0x24 ∧ 10 ≤ field w 3 0 := by
  have hop : w &&& 0xFF000000 = 0x24000000 ↔ field w 31 24 = 0x24 := and_opcodeMask_eq_iff (op := 0x24) (by decide)
  have hsel : (w &&& 0xF).toNat = field w 3 0 :=
    (toNat_and_fieldMask w (hi := 3) (lo := 0) (by decide)).trans (Nat.mul_one _)
  rw [hop, BitVec.le_def, hsel]
  rfl

/-- Settles O38: each pair of the table is a row's opcode and reserved bits, and the operands of a row assemble unless the
selector is reserved (R92, R94, R96). -/
theorem decoderFollowsOpcodeTable : Obligations.DecoderFollowsOpcodeTable := by
  intro w w1 w2 rest
  rw [decodes_iff, reservedSelector_iff, opcodeMasks_eq]
  simp only [List.mem_map, exists_exists_and_eq_and]
  exact and_congr_left fun _ => exists_congr fun row => and_congr_right fun h => (matches_row_iff h w).symm

end Sys2Proof
end

section
/-! A handler of lines in a scripted run, and the seven vector entry points (R99, R152, R155). -/

namespace Sys2Proof.Machine

/-! ### Lines serviced with nothing arriving -/

/-- `t` is `s` with the lines `ls` serviced from the snapshot: the flags that the snapshot holds are cleared, the callbacks
of those lines that are registered invoked in order, and nothing else is changed (R152). -/
structure State.ServicedAll (s : State) (snap : BitVec 16) (ls : List LineNo) (t : State) : Prop where
  pend : ∀ k, pendBit t.ilr.pend k = (pendBit s.ilr.pend k && !(decide (k ∈ ls) && pendBit snap k))
  calls : t.calls = s.calls ++ (ls.filter (fun k => pendBit snap k && s.ilr.table[k].valid)).map
    (fun k => { line := k, cb := s.ilr.table[k].cb, arg := s.ilr.table[k].arg })
  frame : t = { s with ilr := { s.ilr with pend := t.ilr.pend }, calls := t.calls }

variable {s t u : State} {snap : BitVec 16} {l first last : LineNo} {ls ms : List LineNo} {v : VecId}

theorem State.servicedAll_nil (s : State) (snap : BitVec 16) : s.ServicedAll snap [] s :=
  ⟨by simp, by simp, rfl⟩

theorem State.ServicedAll.scripted (h : s.ServicedAll snap ls t) (hs : s.Scripted) : t.Scripted := by
  rw [h.frame]
  exact hs

theorem State.ServicedAll.table (h : s.ServicedAll snap ls t) : t.ilr.table = s.ilr.table := by
  rw [h.frame]

theorem State.ServicedAll.append (h : s.ServicedAll snap ls u) (h' : u.ServicedAll snap ms t) :
    s.ServicedAll snap (ls ++ ms) t where
  pend k := by
    rw [h'.pend, h.pend]
    by_cases hl : k ∈ ls <;> by_cases hm : k ∈ ms <;> simp [hl, hm]
  calls := by
    rw [h'.calls, h.calls, h.table]
    simp
  frame := by rw [h'.frame, h.frame]

/-- A line that the snapshot does not hold is passed over. -/
theorem State.servicedAll_passedOver (s : State) (hb : pendBit snap l = false) : s.ServicedAll snap [l] s where
  pend k := by by_cases hk : k = l <;> simp [hk, hb]
  calls := by simp [hb]
  frame := rfl

/-- A line that the snapshot holds is acknowledged, and its callback invoked if it is registered. -/
theorem State.servicedAll_acknowledged (s : State) (hb : pendBit snap l = true) : s.ServicedAll snap [l]
    (if s.ilr.table[l].valid then emitCall (s.setPend l false) l else s.setPend l false) where
  pend k := by
    have hp : pendBit (withPendBit s.ilr.pend l false) k =
        (pendBit s.ilr.pend k && !(decide (k ∈ [l]) && pendBit snap k)) := by
      by_cases hk : k = l
      · simp [hk, hb]
      · simp [hk, pendBit_withPendBit_other]
    split <;> exact hp
  calls := by split <;> simp_all [emitCall, State.setPend]
  frame := by split <;> rfl

/-! ### The handler -/

theorem setCallbackPlan_tail_of_nil (h : s.callbackPlan = []) : s.setCallbackPlan s.callbackPlan.tail = s := by
  rw [h, List.tail_nil, ← h]
  rfl

theorem invokeLine_scripted (hs : s.Scripted) (v : VecId) (snap : BitVec 16) (l : LineNo) (rest : List LineNo)
    (next : State → Result) :
    invokeLine v snap l rest next s = next (if s.ilr.table[l].valid then emitCall s l else s) := by
  obtain ⟨harrivals, hplan⟩ := hs
  unfold invokeLine
  split
  · have hcall : (emitCall s l).setCallbackPlan s.callbackPlan.tail = emitCall s l :=
      setCallbackPlan_tail_of_nil (s := emitCall s l) hplan
    rw [hcall, hplan]
    exact atPoint_quiet (s := emitCall s l) harrivals _ _
  · rfl

theorem serviceLine_scripted (hs : s.Scripted) (v : VecId) (snap : BitVec 16) (l : LineNo) (rest : List LineNo) :
    ∃ u, s.ServicedAll snap [l] u ∧ ∀ next, serviceLine v snap l rest next s = next u := by
  cases hb : pendBit snap l with
  | false => exact ⟨s, s.servicedAll_passedOver hb, fun next => by simp [serviceLine, hb]⟩
  | true =>
    have hs' : (s.setPend l false).Scripted := hs
    refine ⟨_, s.servicedAll_acknowledged hb, fun next => ?_⟩
    rw [serviceLine, if_pos hb, atPoint_quiet hs'.1, invokeLine_scripted hs']
    rfl

theorem dispatchLines_scripted (hs : s.Scripted) (v : VecId) (snap : BitVec 16) (ls : List LineNo) :
    ∃ t, dispatchLines v snap ls s = .next t ∧ s.ServicedAll snap ls t := by
  induction ls generalizing s with
  | nil => exact ⟨s, rfl, s.servicedAll_nil snap⟩
  | cons l rest ih =>
    obtain ⟨u, hu, hline⟩ := serviceLine_scripted hs v snap l rest
    obtain ⟨t, ht, hrest⟩ := ih (hu.scripted hs)
    exact ⟨t, by rw [dispatchLines, atPoint_quiet hs.1, hline, ht], hu.append hrest⟩

theorem filter_lineRange (first last : LineNo) (q : LineNo → Bool) :
    (lineRange first last).filter q =
      (List.finRange 16).filter (fun l => (decide (first ≤ l) && decide (l ≤ last)) && q l) := by
  simp only [lineRange, List.filter_filter, Bool.and_comm]

/-- A handler of the lines `first .. last` in a scripted run clears exactly their flags and invokes the callbacks that are
due (R152). -/
theorem runDispatch_scripted (hs : s.Scripted) (v : VecId) (first last : LineNo) :
    ∃ t, runDispatch v first last s = .next t ∧
      (∀ l, pendBit t.ilr.pend l = (pendBit s.ilr.pend l && !(decide (first ≤ l) && decide (l ≤ last)))) ∧
      t.calls = s.calls ++ s.dueCalls (fun l => decide (first ≤ l) && decide (l ≤ last)) ∧
      t = { s with ilr := { s.ilr with pend := t.ilr.pend }, calls := t.calls } := by
  obtain ⟨t, hrun, h⟩ := dispatchLines_scripted hs v s.ilr.pend (lineRange first last)
  refine ⟨t, hrun, fun l => ?_, ?_, h.frame⟩
  · rw [h.pend]
    cases pendBit s.ilr.pend l <;> simp
  · rw [h.calls, filter_lineRange]
    rfl

/-! ### The vector entry points -/

/-- Each vector entry point handles a range of lines, and the range is the group of its vector (R99, R155). -/
theorem vectorEntries_range : ∀ p ∈ vectorEntries, ∃ first last, (∀ s, exec p.1 s = runDispatch p.2 first last s) ∧
    ∀ l, (decide (first ≤ l) && decide (l ≤ last)) = (lineVector l == p.2) := by
  simp only [vectorEntries, List.forall_mem_cons]
  exact ⟨⟨0, 0, fun _ => rfl, by decide⟩, ⟨1, 1, fun _ => rfl, by decide⟩, ⟨2, 2, fun _ => rfl, by decide⟩,
    ⟨3, 3, fun _ => rfl, by decide⟩, ⟨4, 4, fun _ => rfl, by decide⟩, ⟨5, 9, fun _ => rfl, by decide⟩,
    ⟨10, 15, fun _ => rfl, by decide⟩, List.forall_mem_nil _⟩

theorem vectorEntries_vector : ∀ p ∈ vectorEntries, p.2 ≠ .tick ∧ p.2 ≠ .serial := by decide

theorem lineVector_of_mem_vectorLines (h : l ∈ vectorLines v) : lineVector l = v := by
  revert l
  cases v <;> decide

/-- A vector of lines requests nothing while none of its lines is pending (R155, R233). -/
theorem requests_eq_false (ht : v ≠ .tick) (hu : v ≠ .serial) (h : ∀ l ∈ vectorLines v, pendBit s.ilr.pend l = false) :
    s.requests v = false := by
  have hany : (vectorLines v).any (fun l => pendBit s.ilr.pend l && s.ilr.attr[l].unmask) = false :=
    List.any_eq_false.2 fun l hl => by simp [h l hl]
  cases v with
  | tick => exact absurd rfl ht
  | serial => exact absurd rfl hu
  | _ => simp only [State.requests, hany, Bool.and_false]

end Sys2Proof.Machine

namespace Sys2Proof

open Machine

/-- Settles O17: each entry point is the handler of its group's range, in a scripted run by induction on the lines (R99,
R152, R155); with no line of the group pending its vector requests nothing (R233). -/
theorem vectorEntriesServiceTheirGroup : Obligations.VectorEntriesServiceTheirGroup := by
  refine ⟨fun p hp s hs => ?_, fun s => ⟨rfl, rfl, rfl, rfl, rfl, rfl, rfl⟩⟩
  obtain ⟨first, last, hexec, hgroup⟩ := vectorEntries_range p hp
  obtain ⟨ht, hu⟩ := vectorEntries_vector p hp
  obtain ⟨t, hrun, hpend, hcalls, hframe⟩ := runDispatch_scripted hs p.2 first last
  simp only [hgroup] at hpend hcalls
  refine ⟨t, by rw [hexec, hrun], hpend, hcalls, hframe, requests_eq_false ht hu fun l hl => ?_⟩
  simp [hpend, lineVector_of_mem_vectorLines hl]

end Sys2Proof
end

section
/-! Why a step with nothing in flight is refused (R93, R96, R275). -/

namespace Sys2Proof

/-- A proper part of the words of a three-word operation runs past the end of the stream (R93). -/
theorem wellDelimited_take_encode {i : Instr} {k : Nat} (h3 : i.words = 3) (h1 : 1 ≤ k) (h2 : k ≤ 2) :
    wellDelimited ((encode i).take k) = false := by
  obtain ⟨w0, operands, row, hw, hrow, hl⟩ := encodedRow_encode i
  have hlen : operands.length + 1 = 3 := by rw [← h3, ← encode_length, hw, List.length_cons]
  obtain ⟨w1, w2, rfl⟩ := List.length_eq_two.1 (Nat.succ.inj hlen)
  rw [hw]
  interval_cases k <;> simp [wellDelimited, hrow, hl]

end Sys2Proof

namespace Sys2Proof.Machine

variable {s : State}

theorem step_of_fetch_error {r : Refusal} (idle : s.frames = []) (h : fetch s = .error r) : step s = .refused r := by
  simp only [step, idle, h]

theorem fetch_ended (h : s.stream.length ≤ s.sp) : fetch s = .error .streamEnded := by
  simp [fetch, State.wordsAhead, List.drop_eq_nil_of_le h]

theorem fetch_malformed (h : wellDelimited (s.stream.drop s.sp) = false) : fetch s = .error .streamMalformed := by
  have hne : (s.stream.drop s.sp).isEmpty = false := by
    cases he : s.stream.drop s.sp with
    | nil => rw [he] at h; cases h
    | cons _ _ => rfl
  simp [fetch, State.wordsAhead, hne, h]

theorem fetch_undecodable {e : DecodeError} (hsp : s.sp < s.stream.length)
    (hw : wellDelimited (s.stream.drop s.sp) = true) (hd : decode (s.stream.drop s.sp) = .error e) :
    fetch s = .error (.undecodable e) := by
  simp [fetch, State.wordsAhead, hsp, hw, hd]

end Sys2Proof.Machine

namespace Sys2Proof

open Machine

/-- Settles O41: the reasons a fetch can have, and the walk over whole operations to a truncated one (R93, R96, R275). -/
theorem stepRefusesOtherWords : Obligations.StepRefusesOtherWords := by
  intro s idle
  refine ⟨fun h => step_of_fetch_error idle (fetch_ended h), fun h => step_of_fetch_error idle (fetch_malformed h),
    fun is i k _ h3 h1 h2 => ?_, fun e hsp hw hd => step_of_fetch_error idle (fetch_undecodable hsp hw hd)⟩
  have truncated : wellDelimited (is.flatMap encode ++ (encode i).take k) = false := by
    rw [wellDelimited_flatMap_encode, wellDelimited_take_encode h3 h1 h2]
  exact ⟨truncated, fun hs => step_of_fetch_error idle (fetch_malformed (hs ▸ truncated))⟩

end Sys2Proof
end

section
/-! What each operation of the Time Base answers (R120 to R126), and the millisecond clock across two moments (R129). -/

namespace Sys2Proof.Machine

variable {s : State} {prio : Byte} {clockHz periodUs : Word}

/-! ### `TB_INIT` (R120) -/

/-- The Time Base programmed for a clock and a period, its tick count carried over. -/
def TimeBase.programmed (tb : TimeBase) (clockHz periodUs : Word) : TimeBase :=
  { init := true, tickCount := tb.tickCount, load := BitVec.ofNat 24 (cyclesPerTick clockHz periodUs - 1)
    periodUs := periodUs, clockHz := clockHz }

theorem execTbInit_again (h : s.tb.init = true) : execTbInit prio clockHz periodUs s = .refused .reinit := if_pos h

theorem execTbInit_unfit (h : s.tb.init = false) (unfit : timerFits clockHz periodUs = false) :
    execTbInit prio clockHz periodUs s = .next (s.withResult false 0) := by
  rw [execTbInit, if_neg (ne_true_of_eq_false h), if_neg (ne_true_of_eq_false unfit)]
  rfl

theorem execTbInit_fits (h : s.tb.init = false) (fits : timerFits clockHz periodUs = true) :
    execTbInit prio clockHz periodUs s = .next (((s.setTb (s.tb.programmed clockHz periodUs)).setVector .tick
      { en := true, prio := prio }).withResult true 1) := by
  rw [execTbInit, if_neg (ne_true_of_eq_false h), if_pos fits]
  rfl

/-- The argument test fails on the conditions that R230's table lists. -/
theorem timerFits_eq_false_iff (prio : Byte) :
    timerFits clockHz periodUs = false ↔ failureCondition (.tbInit prio clockHz periodUs) := by
  rw [← Bool.not_eq_true, timerFits_iff, cyclesPerTick_eq]
  simp only [not_and_or, not_not, not_le]
  rfl

/-! ### The tick, and the two clocks read in one step (R121 to R123) -/

theorem execTickIrq_running (h : s.tb.init = true) :
    execTickIrq s = .next (s.setTb { s.tb with tickCount := s.tb.tickCount + 1 }) := if_pos h

theorem execTickIrq_beforeInit (h : s.tb.init = false) : execTickIrq s = .refused .tickBeforeInit :=
  if_neg (ne_true_of_eq_false h)

/-- What `NOW_MILLIS` answers. -/
def State.millis (s : State) : Word := if s.tb.init then millisOf s.tb.tickCount s.tb.periodUs else 0

theorem exec_nowMillis (s : State) : exec .nowMillis s = .next (s.withResult true s.millis) := rfl

theorem millis_running (h : s.tb.init = true) : s.millis = millisOf s.tb.tickCount s.tb.periodUs := if_pos h

theorem millis_toNat (s : State) : s.millis.toNat =
    if s.tb.init then s.tb.tickCount.toNat * s.tb.periodUs.toNat / 1000 % 2 ^ 32 else 0 := by
  unfold State.millis
  split
  · exact millisOf_toNat _ _
  · rfl

/-- Milliseconds grow with the ticks while they fit the word (R129). -/
theorem millisOf_le {t u period : Word} (h : t.toNat ≤ u.toNat) (fits : u.toNat * period.toNat / 1000 < 2 ^ 32) :
    (millisOf t period).toNat ≤ (millisOf u period).toNat := by
  rw [millisOf_toNat, millisOf_toNat, Nat.mod_eq_of_lt fits]
  exact (Nat.mod_le _ _).trans (Nat.div_le_div_right (Nat.mul_le_mul_right _ h))

/-! ### Elapsed time (R125, R126) -/

theorem exec_elapsed (now start : Word) (s : State) :
    exec (.elapsedMs now start) s = .next (s.withResult true (elapsed now start)) ∧
      exec (.elapsedUs now start) s = .next (s.withResult true (elapsed now start)) := ⟨rfl, rfl⟩

theorem elapsed_add (start d : Word) : elapsed (start + d) start = d := add_sub_cancel_left start d

end Sys2Proof.Machine

namespace Sys2Proof

open Machine

/-- Settles O5: the three branches of R120, the argument test read as the rule's condition and the reload value exact
where it fits. -/
theorem tbInitResult : Obligations.TbInitResult := by
  intro prio clockHz periodUs s
  refine ⟨execTbInit_again, fun h unfit => execTbInit_unfit h ((timerFits_eq_false_iff prio).2 unfit),
    fun h clock period cycles fit => ?_⟩
  rw [← cyclesPerTick_eq] at cycles fit ⊢
  refine ⟨_, execTbInit_fits h ((timerFits_iff clockHz periodUs).2 ⟨clock, period, cycles, fit⟩), rfl, rfl, rfl,
    reload_toNat fit, rfl, rfl, vectorAttr_setVector_same _ _ _, fun v hv => vectorAttr_setVector_other _ _ hv, rfl⟩

/-- Settles O6: the running tick adds 1 in the word's arithmetic (R121). -/
theorem tickIrqCounts : Obligations.TickIrqCounts := fun s =>
  ⟨fun h => ⟨_, execTickIrq_running h, BitVec.toNat_add s.tb.tickCount 1, rfl⟩, execTickIrq_beforeInit⟩

/-- Settles O7: both clocks answer in every state, and the product and the division are exact (R122, R123). -/
theorem nowTicksAndMillis : Obligations.NowTicksAndMillis := fun s => ⟨rfl, s.millis, exec_nowMillis s, millis_toNat s⟩

/-- Settles O11: product and floor division grow with the ticks, and the later value is not truncated (R129). -/
theorem millisNeverDecrease : Obligations.MillisNeverDecrease := by
  intro s t hs ht period ticks fits
  refine ⟨_, _, exec_nowMillis s, exec_nowMillis t, ?_⟩
  show s.millis.toNat ≤ t.millis.toNat
  rw [millis_running hs, millis_running ht, period]
  exact millisOf_le ticks fits

/-- Settles O12: both operations answer the difference in the word's arithmetic, where adding and subtracting cancel
(R125, R126). -/
theorem elapsedIsWrapSafe : Obligations.ElapsedIsWrapSafe := by
  intro now start s
  obtain ⟨ms, us⟩ := exec_elapsed now start s
  refine ⟨⟨_, ms, us, ?_⟩, ?_⟩
  · rw [elapsed_toNat, Nat.add_sub_assoc start.isLt.le]
  · rintro d rfl
    rw [elapsed_add] at ms us
    exact ⟨ms, us⟩

end Sys2Proof
end

section
/-! `NOW_MICROS` at each of its points (R124, R131): what it does there, and where it ends with nothing arriving. -/

namespace Sys2Proof.Machine

variable {s : State} {left : Nat} {t1 : Word} {c : BitVec 24} {again : State → Result}

/-! ### The two reads after the first -/

theorem microsSample_above (h : s.tb.load < s.cvr) : microsSample left t1 again s = .refused .cvrAboveLoad := if_pos h

theorem microsSample_admitted (h : s.cvr ≤ s.tb.load) : microsSample left t1 again s =
    atPoint (.nowMicros left (.haveCvr t1 s.cvr)) s (microsSecondRead left t1 s.cvr again) := if_neg (BitVec.not_lt.2 h)

theorem microsSecondRead_coherent (h : s.tb.tickCount = t1) :
    microsSecondRead left t1 c again s = .next (s.withResult true (microsOf s.tb t1 c)) := if_pos h

theorem microsSecondRead_torn (h : s.tb.tickCount ≠ t1) :
    microsSecondRead left t1 c again s = atPoint (.nowMicros left .mismatch) s again := if_neg h

/-! ### Entering -/

theorem execNowMicros_beforeInit (h : s.tb.init = false) : execNowMicros s = .next (s.withResult true 0) :=
  if_neg (ne_true_of_eq_false h)

theorem execNowMicros_running (h : s.tb.init = true) : execNowMicros s = microsAttempts 3 s := if_pos h

/-- An initialised `NOW_MICROS` is what goes on from its first read with two further attempts left. -/
theorem execNowMicros_eq_resume (h : s.tb.init = true) :
    execNowMicros s = resumeNowMicros 2 (.haveT1 s.tb.tickCount) s := execNowMicros_running h

/-! ### Going on from each point -/

theorem resumeNowMicros_waiting {i : Instr} {later : List Arrival} (h : s.arrivals = .deliver i :: later) (left : Nat)
    (point : MicrosPoint) : resumeNowMicros left point s = .next (s.suspend (.nowMicros left point)) := by
  cases point with
  | haveT1 | haveCvr | mismatch => exact atPoint_waiting h _ _

theorem resumeNowMicros_haveT1 (h : s.undisturbed) : resumeNowMicros left (.haveT1 t1) s =
    microsSample left t1 (microsAttempts left) s.pointPassed := atPoint_undisturbed h _ _

theorem resumeNowMicros_haveCvr (h : s.undisturbed) : resumeNowMicros left (.haveCvr t1 c) s =
    microsSecondRead left t1 c (microsAttempts left) s.pointPassed := atPoint_undisturbed h _ _

theorem resumeNowMicros_mismatch (h : s.undisturbed) : resumeNowMicros left .mismatch s =
    microsAttempts left s.pointPassed := atPoint_undisturbed h _ _

/-! ### Nothing to arrive -/

/-- The value of a coherent attempt made in one go. -/
def State.micros (s : State) : Word := microsOf s.tb s.tb.tickCount s.cvr

/-- With nothing to arrive the first attempt ends the command, however many are left. -/
theorem microsAttempts_quiet (quiet : s.arrivals = []) (left : Nat) : microsAttempts (left + 1) s =
    if s.tb.load < s.cvr then .refused .cvrAboveLoad else .next (s.withResult true s.micros) := by
  rw [microsAttempts, atPoint_quiet quiet, microsSample, atPoint_quiet quiet, microsSecondRead_coherent rfl]
  rfl

theorem execNowMicros_quiet (quiet : s.arrivals = []) (h : s.tb.init = true) (admitted : s.cvr ≤ s.tb.load) :
    execNowMicros s = .next (s.withResult true s.micros) := by
  rw [execNowMicros_running h, microsAttempts_quiet quiet, if_neg (BitVec.not_lt.2 admitted)]

/-- A torn pair with an attempt left gives what a fresh `NOW_MICROS` gives. -/
theorem resumeNowMicros_torn_quiet (quiet : s.arrivals = []) (init : s.tb.init = true) (torn : s.tb.tickCount ≠ t1)
    (more : left ≠ 0) : resumeNowMicros left (.haveCvr t1 c) s = execNowMicros s := by
  obtain ⟨fewer, rfl⟩ := Nat.exists_eq_succ_of_ne_zero more
  calc resumeNowMicros (fewer + 1) (.haveCvr t1 c) s
      = microsSecondRead (fewer + 1) t1 c (microsAttempts (fewer + 1)) s := atPoint_quiet quiet _ _
    _ = microsAttempts (fewer + 1) s := by rw [microsSecondRead_torn torn, atPoint_quiet quiet]
    _ = microsAttempts 3 s := by rw [microsAttempts_quiet quiet, microsAttempts_quiet quiet]
    _ = execNowMicros s := (execNowMicros_running init).symm

/-! ### The reads left (R131) -/

@[simp] theorem microsReadsLeft_haveT1 (left : Nat) (t1 : Word) :
    microsReadsLeft left (.haveT1 t1) = 3 * left + 2 := rfl

@[simp] theorem microsReadsLeft_haveCvr (left : Nat) (t1 : Word) (c : BitVec 24) :
    microsReadsLeft left (.haveCvr t1 c) = 3 * left + 1 := rfl

@[simp] theorem microsReadsLeft_mismatch (left : Nat) : microsReadsLeft left .mismatch = 3 * left := rfl

/-- If `t` is `s` with `NOW_MICROS` suspended on top, fewer than `n` reads are left to it. -/
def State.leavesReads (s : State) (n : Nat) (t : State) : Prop :=
  ∀ left point, t.frames = .nowMicros left point :: s.frames → microsReadsLeft left point < n

variable {u : State} {n : Nat}

theorem leavesReads_suspended {point : MicrosPoint} (fewer : microsReadsLeft left point < n) :
    s.leavesReads n (u.setFrames (.nowMicros left point :: u.frames)) := by
  intro left' point' top
  obtain ⟨⟨rfl, rfl⟩, -⟩ : (left = left' ∧ point = point') ∧ u.frames = s.frames := by simpa using top
  exact fewer

theorem leavesReads_ended (h : u.frames = s.frames) (x : Results) : s.leavesReads n (u.setOut x) := fun _ _ top =>
  (List.ne_cons_self (h.symm.trans top)).elim

/-- The attempts left read at most three times each before their fallback. -/
theorem microsRule_leavesReads (left : Nat) (s : State) :
    MicrosRule left (fun u => u.frames = s.frames) (s.leavesReads (3 * left)) where
  pass _ _ h _ := h
  haveT1 _ _ _ hl := leavesReads_suspended (by simp only [microsReadsLeft_haveT1]; omega)
  haveCvr _ _ _ _ hl _ := leavesReads_suspended (by simp only [microsReadsLeft_haveCvr]; omega)
  mismatch _ _ _ hl := leavesReads_suspended (by simp only [microsReadsLeft_mismatch]; omega)
  done _ _ h := leavesReads_ended h _

theorem microsAttempts_leavesReads (h : u.frames = s.frames) (fewer : 3 * left ≤ n) :
    Holds (s.leavesReads n) (microsAttempts left u) :=
  holds_mono ((microsRule_leavesReads left s).attempts (Nat.le_refl _) u h)
    fun _ ht _ _ top => (ht _ _ top).trans_le fewer

theorem microsSecondRead_leavesReads (h : u.frames = s.frames) (fewer : 3 * left < n) :
    Holds (s.leavesReads n) (microsSecondRead left t1 c (microsAttempts left) u) := by
  unfold microsSecondRead
  split
  · exact leavesReads_ended h _
  · exact holds_atPoint (leavesReads_suspended fewer) fun _ _ => microsAttempts_leavesReads h fewer.le

theorem microsSample_leavesReads (h : u.frames = s.frames) (fewer : 3 * left + 1 < n) :
    Holds (s.leavesReads n) (microsSample left t1 (microsAttempts left) u) := by
  unfold microsSample
  split
  · trivial
  · exact holds_atPoint (leavesReads_suspended fewer) fun _ _ => microsSecondRead_leavesReads h (by omega)

/-- Where the point is passed the reads left go down. -/
theorem resumeNowMicros_leavesReads (h : s.undisturbed) (left : Nat) (point : MicrosPoint) :
    Holds (s.leavesReads (microsReadsLeft left point)) (resumeNowMicros left point s) := by
  cases point with
  | haveT1 t1 =>
    rw [resumeNowMicros_haveT1 h]
    exact microsSample_leavesReads rfl (Nat.lt_succ_self _)
  | haveCvr t1 c =>
    rw [resumeNowMicros_haveCvr h]
    exact microsSecondRead_leavesReads rfl (Nat.lt_succ_self _)
  | mismatch =>
    rw [resumeNowMicros_mismatch h]
    exact microsAttempts_leavesReads rfl (Nat.le_refl _)

/-! ### Within a tick (R124 (a)) -/

/-- The cycles since the last tick are fewer than a tick's, and a tick's cycles last at most the period. -/
theorem microsWithinTick_lt (timer : s.TimerWf) (init : s.tb.init = true) (c : BitVec 24) :
    microsWithinTick s.tb.load c s.tb.clockHz < s.tb.periodUs.toNat := by
  obtain ⟨clock, -, load⟩ := (timerWf_of_init init).1 timer
  have clock_pos : 0 < s.tb.clockHz.toNat := Nat.pos_of_ne_zero (BitVec.toNat_ne.1 clock)
  have tick : (s.tb.load.toNat + 1) * 1000000 ≤ s.tb.clockHz.toNat * s.tb.periodUs.toNat := by
    rw [load, cyclesPerTick_eq]
    exact Nat.div_mul_le_self _ _
  rw [microsWithinTick, usPerSecond_eq, Nat.div_lt_iff_lt_mul clock_pos, Nat.mul_comm s.tb.periodUs.toNat]
  omega

end Sys2Proof.Machine

namespace Sys2Proof

open Machine

/-- Settles O8: not initialised it answers 0; else the first attempt ends it, at the sample or with a coherent pair
(R101, R124 (e)). -/
theorem nowMicrosScripted : Obligations.NowMicrosScripted := by
  intro s quiet
  refine ⟨execNowMicros_beforeInit, fun init above => ?_,
    fun init admitted => ⟨_, execNowMicros_quiet quiet init admitted, microsOf_toNat _ _ _⟩⟩
  exact (execNowMicros_running init).trans ((microsAttempts_quiet quiet 2).trans (if_pos above))

/-- Settles O9: each point's equation, with the reads left read off the rule of the attempts (R124, R131). -/
theorem nowMicrosRetries : Obligations.NowMicrosRetries := by
  intro s
  refine ⟨fun init => ⟨execNowMicros_eq_resume init, fun i later waiting =>
      (execNowMicros_eq_resume init).trans (resumeNowMicros_waiting waiting 2 _)⟩,
    fun left t1 c => ⟨fun point i later waiting => resumeNowMicros_waiting waiting left point, fun free => ?_,
      resumeNowMicros_torn_quiet⟩⟩
  refine ⟨fun above => ?above, fun admitted => ?sampled, fun same => ?coherent, fun torn => ?torn, ?last, ?again,
    fun point fewer point' t ht => holds_of_eq (resumeNowMicros_leavesReads free left point) ht fewer point'⟩
  case above => exact (resumeNowMicros_haveT1 free).trans (microsSample_above above)
  case sampled => exact (resumeNowMicros_haveT1 free).trans (microsSample_admitted admitted)
  case coherent =>
    exact ⟨_, (resumeNowMicros_haveCvr free).trans (microsSecondRead_coherent same), microsOf_toNat s.tb t1 c⟩
  case torn => exact (resumeNowMicros_haveCvr free).trans (microsSecondRead_torn torn)
  case last =>
    rintro rfl
    exact ⟨_, resumeNowMicros_mismatch free, tickMicros_toNat s.tb⟩
  case again =>
    rintro fewer rfl
    exact resumeNowMicros_mismatch free

/-- Settles O10: the answer of a coherent pair, whose microseconds within the tick stay below the period (R124 (a)). -/
theorem microsStayWithinTheTick : Obligations.MicrosStayWithinTheTick := fun s timer init quiet admitted =>
  ⟨_, _, microsWithinTick_lt timer init s.cvr, execNowMicros_quiet quiet init admitted, trunc32_toNat _⟩

end Sys2Proof
end

section
/-! The environment's events (R127, R154, R190, R191), and the requests they raise (R155, R233). -/

namespace Sys2Proof.Machine

variable {s : State} {dir : Direction} {line : LineNo} {nf fe pe : Bool} {byte : Byte}

/-! ### Requests -/

theorem requests_lines {v : VecId} (h : VecId.ofLines v = true) : s.requests v =
    ((s.vectorAttr v).en && (vectorLines v).any (fun l => pendBit s.ilr.pend l && s.ilr.attr[l].unmask)) := by
  cases v with
  | tick | serial => cases h
  | l0 | l1 | l2 | l3 | l4 | l5to9 | l10to15 => rfl

theorem mem_vectorLines_lineVector : ∀ l : LineNo, l ∈ vectorLines (lineVector l) := by decide

/-- A pending, unmasked line makes its enabled vector request. -/
theorem requests_of_pending (en : (s.vectorAttr (lineVector line)).en = true) (pend : pendBit s.ilr.pend line = true)
    (unmask : s.ilr.attr[line].unmask = true) : s.requests (lineVector line) = true := by
  rw [requests_lines (ofLines_lineVector line), en, Bool.true_and]
  exact List.any_eq_true.2 ⟨line, mem_vectorLines_lineVector line, Bool.and_eq_true_iff.2 ⟨pend, unmask⟩⟩

theorem requests_of_receiving (en : (s.vectorAttr .serial).en = true) (on : s.us.ue = true) (ie : s.us.rxneie = true)
    (waiting : (s.us.rxne || s.us.ore) = true) : s.requests .serial = true := by
  simp [State.requests, en, on, ie, waiting]

theorem requests_of_transmitting (en : (s.vectorAttr .serial).en = true) (on : s.us.ue = true) (ie : s.us.txeie = true)
    (free : s.us.txe = true) : s.requests .serial = true := by
  simp [State.requests, en, on, ie, free]

/-! ### Edges (R154) -/

theorem edgeSelected_iff (a : LineAttr) (dir : Direction) :
    edgeSelected a dir = true ↔ (dir = .rise ∧ a.rise = true) ∨ (dir = .fall ∧ a.fall = true) := by
  cases dir <;> simp [edgeSelected]

theorem execEnvEdge_selected (h : edgeSelected s.ilr.attr[line] dir = true) :
    execEnvEdge dir line s = .next (s.setPend line true) := if_pos h

theorem execEnvEdge_unselected (h : ¬ edgeSelected s.ilr.attr[line] dir = true) : execEnvEdge dir line s = .next s :=
  if_neg h

/-! ### The receiver and the transmitter (R190, R191) -/

theorem execEnvRx_eq (nf fe pe : Bool) (byte : Byte) (s : State) : execEnvRx nf fe pe byte s =
    .next (if s.us.ue = false ∨ s.us.re = false then s else s.setUs (s.us.received nf fe pe byte)) := by
  unfold execEnvRx
  cases s.us.ue <;> cases s.us.re <;> rfl

theorem execEnvRx_on (ue : s.us.ue = true) (re : s.us.re = true) :
    execEnvRx nf fe pe byte s = .next (s.setUs (s.us.received nf fe pe byte)) := by
  rw [execEnvRx_eq, if_neg (by simp [ue, re])]

theorem execEnvTxe_eq (s : State) : execEnvTxe s =
    .next (if s.us.ue = false ∨ s.us.te = false then s else s.setUs { s.us with txe := true }) := by
  unfold execEnvTxe
  cases s.us.ue <;> cases s.us.te <;> rfl

theorem execEnvTxe_on (ue : s.us.ue = true) (te : s.us.te = true) :
    execEnvTxe s = .next (s.setUs { s.us with txe := true }) := by
  rw [execEnvTxe_eq, if_neg (by simp [ue, te])]

theorem setUs_received (s : State) (nf fe pe : Bool) (byte : Byte) : s.setUs (s.us.received nf fe pe byte) =
    if s.us.rxne then s.setUs { s.us with ore := true }
    else s.setUs { s.us with rdr := byte, rxne := true, pe := s.us.pe || pe, fe := s.us.fe || fe
                             nf := s.us.nf || nf } :=
  apply_ite s.setUs _ _ _

/-- After a character there is data waiting or an overrun, and no control bit has changed. -/
theorem received_flags (u : Usart) (nf fe pe : Bool) (byte : Byte) :
    ((u.received nf fe pe byte).rxne || (u.received nf fe pe byte).ore) = true ∧
      (u.received nf fe pe byte).ue = u.ue ∧ (u.received nf fe pe byte).rxneie = u.rxneie := by
  unfold Usart.received
  split
  · exact ⟨Bool.or_true _, rfl, rfl⟩
  · exact ⟨rfl, rfl, rfl⟩

end Sys2Proof.Machine

namespace Sys2Proof

open Machine

/-- Settles O32: each event writes by its condition, and what it sets is what the request of its vector reads (R233). -/
theorem environmentEvents : Obligations.EnvironmentEvents := by
  intro s
  refine ⟨fun _ => rfl, fun dir line => ?edge, fun nf fe pe byte => ?rx, execEnvTxe_eq s,
    fun en ue => ⟨fun re ie nf fe pe byte t h => ?rxRequest, fun te ie t h => ?txRequest⟩⟩
  case edge =>
    by_cases h : edgeSelected s.ilr.attr[line] dir = true
    · have selected := (edgeSelected_iff _ _).1 h
      have pend := pendBit_withPendBit_same s.ilr.pend line true
      exact ⟨_, execEnvEdge_selected h, fun _ => pend, fun hn => absurd selected hn,
        fun k hk => pendBit_withPendBit_other _ true hk, rfl,
        fun _ unmask en => requests_of_pending (s := s.setPend line true) en pend unmask⟩
    · have unselected := mt (edgeSelected_iff _ _).2 h
      exact ⟨s, execEnvEdge_unselected h, fun hs => absurd hs unselected, fun _ => rfl, fun _ _ => rfl, rfl,
        fun hs => absurd hs unselected⟩
  case rx => exact (execEnvRx_eq nf fe pe byte s).trans (by rw [setUs_received]; rfl)
  case rxRequest =>
    obtain rfl := Host.Outcome.next.inj ((execEnvRx_on ue re).symm.trans h)
    obtain ⟨waiting, hue, hie⟩ := received_flags s.us nf fe pe byte
    exact requests_of_receiving en (hue.trans ue) (hie.trans ie) waiting
  case txRequest =>
    obtain rfl := Host.Outcome.next.inj ((execEnvTxe_on ue te).symm.trans h)
    exact requests_of_transmitting en ue ie rfl

end Sys2Proof
end

section
/-! `ILR_REGISTER` and `ILR_CONFIG` (R150, R151), and a handler of lines point by point (R152, R153, R156). -/

namespace Sys2Proof.Machine

variable {s : State} {line : Byte} {callback arg : Word} {x y : TableStore} {i : Instr} {later : List Arrival}

/-! ### `ILR_REGISTER` (R150) -/

/-- The two stores of a registration, in one order or the other (V3). -/
def AreStoresOf (callback arg : Word) (x y : TableStore) : Prop :=
  (x = .callback callback ∧ y = .argument arg) ∨ (x = .argument arg ∧ y = .callback callback)

theorem execIlrRegister_outOfRange (h : 16 ≤ line.toNat) : execIlrRegister line callback arg s = s.fail := by
  rw [execIlrRegister, lineOperand?_eq_none h]

variable {l : LineNo}

theorem execIlrRegister_null (h : line.toNat = l.val) : execIlrRegister line 0 arg s = .refused .nullCallback := by
  rw [execIlrRegister, lineOperand?_of_eq h]
  exact if_pos rfl

/-- A registration does one of its stores and comes to its preemption point with the other (R277). -/
theorem execIlrRegister_stores (h : line.toNat = l.val) (hc : callback ≠ 0) (s : State) :
    ∃ x y, AreStoresOf callback arg x y ∧
      execIlrRegister line callback arg s = registerSecond l y (storeTable (s.drawn 1) l x) := by
  simp only [execIlrRegister, lineOperand?_of_eq h, if_neg hc]
  split
  · exact ⟨.argument arg, .callback callback, .inr ⟨rfl, rfl⟩, rfl⟩
  · exact ⟨.callback callback, .argument arg, .inl ⟨rfl, rfl⟩, rfl⟩

theorem registerSecond_undisturbed (h : s.undisturbed) (l : LineNo) (y : TableStore) :
    registerSecond l y s = .next ((storeTable s.pointPassed l y).setOut { res := 1, ok := true }) :=
  atPoint_undisturbed h _ _

theorem registerSecond_waiting (h : s.arrivals = .deliver i :: later) (l : LineNo) (y : TableStore) :
    registerSecond l y s = .next (s.setFrames (.ilrRegister l y :: s.frames)) := atPoint_waiting h _ _

/-- After both stores, in either order and with a preemption point between them, the entry is the registered pair. -/
theorem storeTable_both (h : AreStoresOf callback arg x y) (s : State) (l : LineNo) :
    (storeTable (storeTable s l x).pointPassed l y).ilr.table[l] = { valid := true, cb := callback, arg := arg } := by
  have passed (u : State) : u.pointPassed.ilr = u.ilr := rfl
  rcases h with ⟨rfl, rfl⟩ | ⟨rfl, rfl⟩ <;> simp [passed]

/-- A registration with nothing delivered at its point completes with the entry registered (R150). -/
theorem execIlrRegister_undisturbed (h : line.toNat = l.val) (hc : callback ≠ 0) (hs : s.undisturbed) :
    ∃ t, execIlrRegister line callback arg s = .next t ∧ t.out = { res := 1, ok := true } ∧
      t.ilr.table[l] = { valid := true, cb := callback, arg := arg } ∧
      (∀ k : LineNo, k ≠ l → t.ilr.table[k] = s.ilr.table[k]) ∧
      t = { s.pointPassed with out := t.out, ilr := { s.ilr with table := t.ilr.table }, draws := t.draws } := by
  obtain ⟨x, y, stores, hexec⟩ := execIlrRegister_stores (arg := arg) h hc s
  have hx : (storeTable (s.drawn 1) l x).undisturbed := by
    unfold State.undisturbed
    rw [storeTable_arrivals]
    exact hs
  refine ⟨_, hexec.trans (registerSecond_undisturbed hx l y), rfl, storeTable_both stores _ l, fun k hk => ?_, ?_⟩
  · exact (storeTable_table_other _ y hk).trans (storeTable_table_other _ x hk)
  · rw [storeTable_eq _ l y, storeTable_eq _ l x]
    rfl

/-- A registration with something waiting at its point is suspended after exactly one store (R238, R277). -/
theorem execIlrRegister_waiting (h : line.toNat = l.val) (hc : callback ≠ 0) (hs : s.arrivals = .deliver i :: later) :
    ∃ t, execIlrRegister line callback arg s = .next t ∧
      (∀ k : LineNo, k ≠ l → t.ilr.table[k] = s.ilr.table[k]) ∧
      t = { s with ilr := { s.ilr with table := t.ilr.table }, frames := t.frames, draws := t.draws } ∧
      ((t.ilr.table[l] = { valid := true, cb := callback, arg := s.ilr.table[l].arg } ∧
          t.frames = .ilrRegister l (.argument arg) :: s.frames) ∨
        (t.ilr.table[l] = { s.ilr.table[l] with arg := arg } ∧
          t.frames = .ilrRegister l (.callback callback) :: s.frames)) := by
  obtain ⟨x, y, stores, hexec⟩ := execIlrRegister_stores (arg := arg) h hc s
  have hx : (storeTable (s.drawn 1) l x).arrivals = .deliver i :: later := (storeTable_arrivals _ l x).trans hs
  refine ⟨_, hexec.trans (registerSecond_waiting hx l y), fun k hk => storeTable_table_other _ x hk, ?_, ?_⟩
  · rw [storeTable_eq _ l x]
    rfl
  · rcases stores with ⟨rfl, rfl⟩ | ⟨rfl, rfl⟩
    · exact .inl ⟨by simp [State.drawn], rfl⟩
    · exact .inr ⟨by simp [State.drawn], rfl⟩

/-! ### `ILR_CONFIG` (R151) -/

variable {prio : Byte} {gok : Bool} {edge : EdgeMode} {mode : PinMode} {port : BitVec 4} {pin : LineNo}

theorem lineConfigGood_iff : lineConfigGood gok edge mode = true ↔ mode = .input ∧ gok = true ∧ edge ≠ .notAnEdge := by
  simp [lineConfigGood, and_assoc]

theorem selectsRise_eq (edge : EdgeMode) : selectsRise edge = decide (edge = .rising ∨ edge = .both) := by
  cases edge <;> rfl

theorem selectsFall_eq (edge : EdgeMode) : selectsFall edge = decide (edge = .falling ∨ edge = .both) := by
  cases edge <;> rfl

theorem setLineAttr_attr_same (s : State) (l : LineNo) (a : LineAttr) : (s.setLineAttr l a).ilr.attr[l] = a :=
  (setLineAttr_attr s l l a).trans (if_pos rfl)

theorem execIlrConfig_good (h : lineConfigGood gok edge mode = true) (prio : Byte) (port : BitVec 4) (pin : LineNo)
    (s : State) : execIlrConfig prio gok edge mode port pin s =
    .next ((((s.setLineAttr pin { port := port, rise := decide (edge = .rising ∨ edge = .both)
                                  fall := decide (edge = .falling ∨ edge = .both), unmask := true }).setPend pin
      false).setVector (lineVector pin) { en := true, prio := prio }).setOut { res := 1, ok := true }) := by
  rw [← selectsRise_eq, ← selectsFall_eq]
  exact if_pos h

theorem execIlrConfig_bad (h : ¬ lineConfigGood gok edge mode = true) (prio : Byte) (port : BitVec 4) (pin : LineNo)
    (s : State) : execIlrConfig prio gok edge mode port pin s =
    .next ((lineUnspecified s pin).setOut { res := 0, ok := false }) := if_neg h

/-- What the frame of a configuration says of the line router and the vectors. -/
theorem keeps_ilrConfig_kept {t : State} (h : s.keeps (.ilrConfig prio gok edge mode port pin) t) :
    t.ilr.table = s.ilr.table ∧
      (∀ l : LineNo, l ≠ pin → t.ilr.attr[l] = s.ilr.attr[l] ∧ pendBit t.ilr.pend l = pendBit s.ilr.pend l) ∧
      ∀ v, v ≠ lineVector pin → t.vectorAttr v = s.vectorAttr v := by
  obtain ⟨frame, vectors, lines⟩ := h
  exact ⟨congrArg (·.ilr.table) frame, lines, fun v hv => vectors v (by simpa using hv)⟩

/-! ### A handler of lines going on from each of its points (R152, R153, R238) -/

variable {v : VecId} {snap : BitVec 16} {first last : LineNo} {rest : List LineNo}

/-- The lines of a range that is not empty are its first one and the later ones. -/
theorem lineRange_eq_cons (h : first ≤ last) : lineRange first last =
    first :: (List.finRange 16).filter (fun l => decide (first < l) && decide (l ≤ last)) := by
  have sorted := (List.sortedLT_finRange 16).pairwise
  refine List.Pairwise.eq_of_mem_iff (r := (· < ·)) (sorted.filter _) (List.pairwise_cons.2 ⟨?_, sorted.filter _⟩)
    fun l => ?_
  · simp +contextual
  · by_cases hl : first = l
    · simp [← hl, h]
    · simp [Ne.le_iff_lt hl, Ne.symm hl]

theorem lineRange_eq_nil (h : last < first) : lineRange first last = [] :=
  List.eq_nil_iff_forall_not_mem.2 fun l hl => by
    obtain ⟨h1, h2⟩ := (mem_lineRange first last l).1 hl
    exact absurd (h1.trans h2) (not_le.2 h)

theorem atNextLine_eq (v : VecId) (snap : BitVec 16) (rest : List LineNo) (s : State) :
    atNextLine v snap rest s = dispatchLines v snap rest s := by
  cases rest <;> rfl

theorem runDispatch_empty (h : last < first) : runDispatch v first last s = .next s := by
  rw [runDispatch, lineRange_eq_nil h]
  rfl

/-- A handler is entered as what goes on from before its first line, with the flags of that moment (R152). -/
theorem runDispatch_eq_resume (h : first ≤ last) : runDispatch v first last s =
    resume (.dispatch v s.ilr.pend first ((List.finRange 16).filter (fun l => decide (first < l) && decide (l ≤ last)))
      .beforeLine) s := by
  rw [runDispatch, lineRange_eq_cons h]
  rfl

/-- With something waiting a handler is suspended again as it is, unless its callback has a command left (R238). -/
theorem resume_dispatch_waiting {point : DispatchPoint} (h : s.arrivals = .deliver i :: later)
    (noCommand : ∀ c cs, point ≠ .inCallback (c :: cs)) : resume (.dispatch v snap l rest point) s =
      .next { s with frames := .dispatch v snap l rest point :: s.frames } := by
  cases point with
  | beforeLine | acknowledged => exact atPoint_waiting h _ _
  | inCallback commands =>
    cases commands with
    | nil => exact atPoint_waiting h _ _
    | cons c cs => exact absurd rfl (noCommand c cs)

/-- Before a line that the snapshot does not hold: it is passed over. -/
theorem resume_beforeLine_clear (h : s.undisturbed) (clear : pendBit snap l = false) :
    resume (.dispatch v snap l rest .beforeLine) s = atNextLine v snap rest s.pointPassed := by
  rw [atNextLine_eq]
  exact (atPoint_undisturbed h _ _).trans (if_neg (by simp [clear]))

/-- Before a line that the snapshot holds: it is acknowledged, and the handler stands after the acknowledgment. -/
theorem resume_beforeLine_held (h : s.undisturbed) (held : pendBit snap l = true) :
    resume (.dispatch v snap l rest .beforeLine) s =
      resume (.dispatch v snap l rest .acknowledged) (s.pointPassed.setPend l false) :=
  (atPoint_undisturbed h _ _).trans (if_pos held)

/-- At a callback's last point: the handler comes to the next line. -/
theorem resume_returned (h : s.undisturbed) (l : LineNo) :
    resume (.dispatch v snap l rest (.inCallback [])) s = atNextLine v snap rest s.pointPassed := by
  rw [atNextLine_eq]
  exact atPoint_undisturbed h _ _

theorem resume_acknowledged_unregistered (h : s.undisturbed) (unregistered : s.ilr.table[l].valid = false) :
    resume (.dispatch v snap l rest .acknowledged) s = atNextLine v snap rest s.pointPassed := by
  rw [atNextLine_eq]
  exact (atPoint_undisturbed h _ _).trans (if_neg (ne_true_of_eq_false unregistered))

/-- The state inside an invocation of the callback of `l`: one record with the pair that the table holds, and one list of
the callback plan used up (R38, R153). -/
def State.invoked (s : State) (l : LineNo) : State :=
  { s with calls := s.calls ++ [{ line := l, cb := s.ilr.table[l].cb, arg := s.ilr.table[l].arg }]
           callbackPlan := s.callbackPlan.tail }

/-- After the acknowledgment of a registered line: its callback is invoked and issues the list that the plan has for it. -/
theorem resume_acknowledged_registered (h : s.undisturbed) (registered : s.ilr.table[l].valid = true) :
    resume (.dispatch v snap l rest .acknowledged) s =
      runCallback v snap l rest (s.callbackPlan.headD []) (dispatchLines v snap rest) (s.pointPassed.invoked l) :=
  (atPoint_undisturbed h _ _).trans (if_pos registered)

/-! ### The records of one line (R156) -/

/-- A range of lines adds one record of a line that is in it, pending and registered, and none of any other. -/
theorem recordsOf_dueCalls (s : State) (p : LineNo → Bool) (l : LineNo) : recordsOf l (s.dueCalls p) =
    if p l && (pendBit s.ilr.pend l && s.ilr.table[l].valid)
    then [{ line := l, cb := s.ilr.table[l].cb, arg := s.ilr.table[l].arg }] else [] := by
  have once : (List.finRange 16).filter (· == l) = [l] := by
    rw [List.filter_beq, List.count_finRange]
    rfl
  rw [recordsOf, State.dueCalls, List.filter_map, List.filter_filter]
  simp only [Function.comp_def, Bool.and_comm (_ == l), ← List.filter_filter, once, List.filter_singleton]
  cases p l && (pendBit s.ilr.pend l && s.ilr.table[l].valid) <;> rfl

/-- Dispatching a range with `l` in it leaves the flag of `l` clear and adds its record if it was pending and registered. -/
theorem dispatch_scripted_line (hs : s.Scripted) (hf : first ≤ l) (hl : l ≤ last) :
    ∃ t, exec (.dispatch first last) s = .next t ∧ pendBit t.ilr.pend l = false ∧
      recordsOf l t.calls = recordsOf l s.calls ++ if pendBit s.ilr.pend l && s.ilr.table[l].valid
        then [{ line := l, cb := s.ilr.table[l].cb, arg := s.ilr.table[l].arg }] else [] := by
  obtain ⟨t, hrun, hpend, hcalls, -⟩ := runDispatch_scripted hs (lineVector first) first last
  refine ⟨t, hrun, by simp [hpend, hf, hl], ?_⟩
  have due := recordsOf_dueCalls s (fun k => decide (first ≤ k) && decide (k ≤ last)) l
  rw [hcalls, recordsOf, List.filter_append, ← recordsOf, ← recordsOf, due]
  simp [hf, hl]

end Sys2Proof.Machine

namespace Sys2Proof

open Machine

/-- Settles O13: the tests of R150, and one store before the preemption point and the other after it (R277). -/
theorem ilrRegisterResult : Obligations.IlrRegisterResult := by
  intro line callback arg s
  refine ⟨fun out => execIlrRegister_outOfRange out, fun l hl => ⟨?null, ?done, ?suspended⟩⟩
  case null =>
    rintro rfl
    exact execIlrRegister_null hl
  case done => exact fun hc hs => execIlrRegister_undisturbed hl hc hs
  case suspended => exact fun hc i later hs => execIlrRegister_waiting hl hc hs

/-- Settles O15: both branches of R151 write one line and its vector, and what is written is known in the good one. -/
theorem ilrConfigResult : Obligations.IlrConfigResult := by
  intro prio gok edge mode port pin s
  have keeps := execIlrConfig_keeps prio gok edge mode port pin s
  by_cases good : lineConfigGood gok edge mode = true
  · have hexec := execIlrConfig_good good prio port pin s
    obtain ⟨table, lines, vectors⟩ := keeps_ilrConfig_kept (holds_of_eq keeps hexec)
    obtain ⟨input, ok, isEdge⟩ := lineConfigGood_iff.1 good
    exact ⟨_, hexec, table, lines, vectors, .inl ⟨input, ok, isEdge, rfl, setLineAttr_attr_same s pin _,
      pendBit_withPendBit_same _ _ _, vectorAttr_setVector_same _ _ _, rfl⟩⟩
  · have hexec := execIlrConfig_bad good prio port pin s
    obtain ⟨table, lines, vectors⟩ := keeps_ilrConfig_kept (holds_of_eq keeps hexec)
    exact ⟨_, hexec, table, lines, vectors, .inr ⟨mt lineConfigGood_iff.2 good, rfl, rfl⟩⟩

/-- Settles O16: the handler of the range, by induction on its lines (R152). -/
theorem dispatchScripted : Obligations.DispatchScripted := fun first last _ hs =>
  runDispatch_scripted hs (lineVector first) first last

/-- Settles O18: the registration completes with the pair in the table and the flags and traces kept, and the dispatch
adds the line's due record (R156). -/
theorem registeredCallbackRunsOnce : Obligations.RegisteredCallbackRunsOnce := by
  intro line l first last callback arg s t hs hf hl
  refine ⟨fun hline hc => ?_, fun hexec idle => ?_⟩
  · obtain ⟨s1, hreg, -, entry, -, frame⟩ := execIlrRegister_undisturbed (arg := arg) hline hc (undisturbed_of_nil hs.1)
    have scripted : s1.Scripted := by
      rw [frame]
      exact ⟨congrArg List.tail hs.1, hs.2⟩
    have pend : s1.ilr.pend = s.ilr.pend := congrArg (·.ilr.pend) frame
    have calls : s1.calls = s.calls := congrArg (·.calls) frame
    obtain ⟨t1, hexec, clear, records⟩ := dispatch_scripted_line scripted hf hl
    refine ⟨s1, hreg, t1, hexec, clear, ?_⟩
    simpa [entry, pend, calls] using records
  · obtain ⟨t', hexec', clear, records⟩ := dispatch_scripted_line hs hf hl
    obtain rfl := Host.Outcome.next.inj (hexec.symm.trans hexec')
    have notDue : (pendBit s.ilr.pend l && s.ilr.table[l].valid) = false := by
      rcases idle with h | h <;> simp only [h, Bool.false_and, Bool.and_false]
    rw [notDue] at records
    exact ⟨records.trans (List.append_nil _), clear⟩

/-- Settles O19: from a callback the handler goes on through the lines to come, which clears what the snapshot holds of
them (R152, R284). -/
theorem retriggersAreKept : Obligations.RetriggersAreKept := by
  intro v snap l rest s hs
  obtain ⟨t, hrun, h⟩ := dispatchLines_scripted hs v snap rest
  exact ⟨t, (atPoint_quiet hs.1 _ _).trans hrun, h.pend⟩

/-- Settles O20: the entry and each point by its own equation (R152, R153, R238). -/
theorem acknowledgedBeforeInvoked : Obligations.AcknowledgedBeforeInvoked := by
  refine ⟨fun first last s => ⟨runDispatch_empty, fun range => ?entry⟩,
    fun v snap l rest point i later s waiting noCommand => resume_dispatch_waiting waiting noCommand,
    fun v snap l rest s und => ⟨resume_beforeLine_clear und, fun held => ?held, resume_returned und l⟩,
    fun v snap l rest i later s waiting held => ?heldWaiting,
    fun v snap l rest s und => ⟨fun registered => ⟨fun c cs more plan => ?issues, fun plan => ?silent⟩,
      resume_acknowledged_unregistered und⟩⟩
  case entry =>
    have entered := runDispatch_eq_resume (v := lineVector first) (s := s) range
    exact ⟨entered, fun i later waiting => entered.trans (resume_dispatch_waiting waiting nofun)⟩
  case held =>
    exact ⟨_, resume_beforeLine_held und held, pendBit_withPendBit_same _ _ _,
      fun k hk => pendBit_withPendBit_other _ _ hk, rfl⟩
  case heldWaiting =>
    have und : s.undisturbed := fun _ _ e => by simp [waiting] at e
    have passed : s.pointPassed.arrivals = .deliver i :: later := congrArg List.tail waiting
    have suspended := resume_dispatch_waiting (s := s.pointPassed.setPend l false) (v := v) (snap := snap) (l := l)
      (rest := rest) (point := .acknowledged) passed nofun
    exact ⟨_, (resume_beforeLine_held und held).trans suspended, rfl, pendBit_withPendBit_same _ _ _,
      fun k hk => pendBit_withPendBit_other _ _ hk, rfl, passed, rfl⟩
  case issues =>
    have commands : s.callbackPlan.headD [] = c :: cs := by rw [plan, List.headD_cons]
    rw [resume_acknowledged_registered und registered, commands]
    rfl
  case silent =>
    have silent : s.callbackPlan.headD [] = [] := by
      rcases plan with plan | ⟨more, plan⟩ <;> rw [plan] <;> rfl
    have goesOn : resume (.dispatch v snap l rest .acknowledged) s =
        resume (.dispatch v snap l rest (.inCallback [])) (s.pointPassed.invoked l) := by
      rw [resume_acknowledged_registered und registered, silent]
      rfl
    exact ⟨goesOn, fun i later waiting => goesOn.trans (resume_dispatch_waiting waiting nofun)⟩

end Sys2Proof
end

section
/-! `BAUD_DIV`, `BT_INIT` and `BT_STAT` (R183 to R185, R193), and the occupancy of a ring (R180). -/

namespace Sys2Proof.Machine

/-! ### The divisor (R183) -/

/-- The remainder is below 16 times the baud rate, so that rounding carries the fraction to 16 at most. -/
theorem baudFraction_le {baud : Nat} (h : baud ≠ 0) (pclkHz : Nat) : baudFraction pclkHz baud ≤ 16 := by
  have hr : pclkHz % (16 * baud) < 16 * baud := Nat.mod_lt _ (by omega)
  refine Nat.le_of_lt_succ ((Nat.div_lt_iff_lt_mul (by omega)).2 ?_)
  show pclkHz % (16 * baud) + baud / 2 < _
  omega

/-- A mantissa of sixteenths and the rounded rest of it are one rounded division. -/
theorem baudMantissa_fraction {baud : Nat} (h : baud ≠ 0) (pclkHz : Nat) :
    baudMantissa pclkHz baud * 16 + baudFraction pclkHz baud = (pclkHz + baud / 2) / baud := by
  have hsplit : pclkHz + baud / 2 =
      pclkHz % (16 * baud) + baud / 2 + pclkHz / (16 * baud) * 16 * baud := by
    have := Nat.mod_add_div' pclkHz (16 * baud)
    rw [Nat.mul_assoc]
    omega
  rw [hsplit, Nat.add_mul_div_right _ _ (Nat.pos_of_ne_zero h), Nat.add_comm]
  rfl

/-- The carry makes no difference to the value: a fraction that overflows is exactly 16. -/
theorem baudDivisor_eq {baud : Nat} (h : baud ≠ 0) (pclkHz : Nat) :
    baudDivisor pclkHz baud = (pclkHz + baud / 2) / baud := by
  have hle := baudFraction_le h pclkHz
  rw [← baudMantissa_fraction h, baudDivisor, if_neg h]
  split
  · next carry =>
    have : 16 ≤ baudFraction pclkHz baud := carry
    omega
  · rfl

theorem baudDivisor_lt (pclkHz baud : Word) : baudDivisor pclkHz.toNat baud.toNat < 2 ^ 32 := by
  by_cases h : baud.toNat = 0
  · rw [h, baudDivisor_zero]
    decide
  · have := pclkHz.isLt
    rw [baudDivisor_eq h, Nat.div_lt_iff_lt_mul (Nat.pos_of_ne_zero h)]
    omega

/-- The divisor as a result value. -/
def baudResult (pclkHz baud : Word) : Word := trunc32 (baudDivisor pclkHz.toNat baud.toNat)

theorem exec_baudDiv (pclkHz baud : Word) (s : State) :
    exec (.baudDiv pclkHz baud) s = .next (s.withResult true (baudResult pclkHz baud)) := rfl

theorem baudResult_toNat (pclkHz baud : Word) :
    (baudResult pclkHz baud).toNat = baudDivisor pclkHz.toNat baud.toNat :=
  Nat.mod_eq_of_lt (baudDivisor_lt pclkHz baud)

theorem toNat_ne_zero {w : Word} (h : w ≠ 0) : w.toNat ≠ 0 := fun e => h (BitVec.eq_of_toNat_eq e)

/-! ### `BT_INIT` (R184) -/

section
variable {s : State} {prio : Byte} {gok : Bool} {rxmode txmode : PinMode} {pclkHz baud : Word}

theorem pinsGood_iff : pinsGood gok rxmode txmode = true ↔ txmode = .alternate ∧ rxmode = .alternate ∧ gok = true := by
  simp only [pinsGood, Bool.and_eq_true, beq_iff_eq, and_assoc]

theorem execBtInit_again (h : s.bt.init = true) :
    execBtInit prio gok rxmode txmode pclkHz baud s = .refused .reinit := if_pos h

theorem execBtInit_badPins (h : s.bt.init = false) (bad : ¬ pinsGood gok rxmode txmode = true) :
    execBtInit prio gok rxmode txmode pclkHz baud s = .next (s.withResult false 0) := by
  rw [execBtInit, if_neg (ne_true_of_eq_false h), if_neg bad]
  rfl

theorem execBtInit_unfit (h : s.bt.init = false) (good : pinsGood gok rxmode txmode = true)
    (unfit : baud = 0 ∨ 0xFFFF < baudDivisor pclkHz.toNat baud.toNat) :
    execBtInit prio gok rxmode txmode pclkHz baud s = .refused .baudUnfit := by
  rw [execBtInit, if_neg (ne_true_of_eq_false h), if_pos good]
  exact if_pos unfit

theorem execBtInit_fits (h : s.bt.init = false) (good : pinsGood gok rxmode txmode = true)
    (fits : ¬ (baud = 0 ∨ 0xFFFF < baudDivisor pclkHz.toNat baud.toNat)) :
    execBtInit prio gok rxmode txmode pclkHz baud s =
      .next ((transportStarted s prio (baudDivisor pclkHz.toNat baud.toNat)).withResult true 1) := by
  rw [execBtInit, if_neg (ne_true_of_eq_false h), if_pos good]
  exact if_neg fits

end

theorem started_brr_toNat (u : Usart) {d : Nat} (h : d ≤ 0xFFFF) : (u.started d).brr.toNat = d :=
  Nat.mod_eq_of_lt (Nat.lt_succ_of_le h)

/-! ### `BT_STAT` (R193) -/

theorem exec_btStat (sel : StatSel) (s : State) : exec (.btStat sel) s = .next (s.withResult true (statValue s sel)) := rfl

theorem boolWord_isEmpty (r : Ring) : boolWord r.isEmpty = if r.head = r.tail then 1 else 0 := by
  simp only [boolWord, Ring.isEmpty, beq_iff_eq]

theorem boolWord_isFull (r : Ring) : boolWord r.isFull = if (r.head + 1) % r.size = r.tail then 1 else 0 := by
  simp only [boolWord, Ring.isFull, Ring.nextIndex, beq_iff_eq]

/-! ### Occupancy (R180) -/

namespace Ring

variable {r : Ring}

theorem count_le (h : InRange r) : r.count ≤ r.size - 1 := Nat.le_sub_one_of_lt (count_lt h)

theorem count_add_space (h : InRange r) : r.count + r.space = r.size - 1 := Nat.add_sub_of_le (count_le h)

/-- A ring of at least two cells is never empty and full at once (R180). -/
theorem not_isEmpty_and_isFull (h : InRange r) : ¬ (r.isEmpty = true ∧ r.isFull = true) := by
  rintro ⟨empty, full⟩
  have := (isEmpty_iff h).1 empty
  have := (isFull_iff h).1 full
  have := h.two_le
  omega

end Ring

end Sys2Proof.Machine

namespace Sys2Proof

open Machine

/-- Settles O22: mantissa, fraction and carry are one rounded division, which fits the word (R183). -/
theorem baudDivIsOneRoundedDivision : Obligations.BaudDivIsOneRoundedDivision := fun pclkHz baud s h =>
  ⟨_, exec_baudDiv pclkHz baud s, (baudResult_toNat pclkHz baud).trans (baudDivisor_eq (toNat_ne_zero h) _)⟩

/-- Settles O21: the result is the divisor of R183, which fits the word (R185). -/
theorem baudDivResult : Obligations.BaudDivResult := by
  refine fun pclkHz baud s => ⟨_, exec_baudDiv pclkHz baud s, ?_, fun h => ?_⟩
  · rintro rfl
    rfl
  · rw [baudResult_toNat, baudDivisor, if_neg (toNat_ne_zero h)]
    rfl

/-- Settles O23: the tests of R184 in its order; what a success writes is known field by field. -/
theorem btInitResult : Obligations.BtInitResult := by
  intro prio gok rxmode txmode pclkHz baud s
  refine ⟨execBtInit_again, fun h bad => execBtInit_badPins h fun good => ?_, fun h tx rx ok => ?_⟩
  · obtain ⟨tx, rx, ok⟩ := pinsGood_iff.1 good
    simp [tx, rx, ok] at bad
  · have good := pinsGood_iff.2 ⟨tx, rx, ok⟩
    refine ⟨execBtInit_unfit h good, fun hb hd =>
      ⟨_, execBtInit_fits h good fun unfit => unfit.elim hb (Nat.not_lt.2 hd), rfl, ?_⟩⟩
    have brr := started_brr_toNat s.us hd
    generalize baudDivisor pclkHz.toNat baud.toNat = d at brr ⊢
    have attr := transportStarted_vectorAttr s prio d
    refine ⟨rfl, rfl, rfl, brr, rfl, (attr .serial).trans (if_pos rfl), fun v hv => (attr v).trans (if_neg hv), ?_⟩
    rw [transportStarted_eq]
    rfl

/-- Settles O28: the value of each selector, with the predicates of R180 written as indices (R193). -/
theorem btStatReads : Obligations.BtStatReads := by
  intro s
  simp only [exec_btStat, statValue, boolWord_isEmpty, boolWord_isFull, and_self]

/-- Settles O33: the predicates as the number of live bytes (R180). -/
theorem ringPredicates : Obligations.RingPredicates := by
  intro r h
  have hr := Ring.wf.inRange h
  refine ⟨Ring.count_le hr, Ring.length_contents h, Ring.count_add_space hr, ?_, ?_, Ring.not_isEmpty_and_isFull hr⟩
  · rw [← Ring.isEmpty_iff hr, Ring.isEmpty, beq_iff_eq]
  · rw [← Ring.isFull_iff hr, Ring.isFull, Ring.nextIndex, beq_iff_eq]

end Sys2Proof
end

section
/-! The serial handler (R188, R189), draining TX through it (R192), and who writes the transmit-interrupt (R192 (a)). -/

namespace Sys2Proof.Machine

/-! ### Reception (R188 steps 1 and 2, R189) -/

theorem anyError_iff (u : Usart) : u.anyError = true ↔ u.ore = true ∨ u.fe = true ∨ u.nf = true ∨ u.pe = true := by
  simp only [Usart.anyError, Bool.or_eq_true, or_assoc]

theorem anyError_eq_false_iff (u : Usart) :
    u.anyError = false ↔ u.ore = false ∧ u.fe = false ∧ u.nf = false ∧ u.pe = false := by
  simp only [Usart.anyError, Bool.or_eq_false_iff, and_assoc]

theorem bump_eq (c : Word) (asserted : Bool) : bump c asserted = c + if asserted then 1 else 0 := by
  cases asserted <;> simp [bump]

theorem errorsDropped_eq (r : Ring) (u : Usart) : r.errorsDropped u =
    { r with drop := r.drop + (if u.ore then 1 else 0) + (if u.fe then 1 else 0) + (if u.nf then 1 else 0) +
                       (if u.pe then 1 else 0) } := by
  simp only [Ring.errorsDropped, bump_eq]

theorem inboundStep_error {s : State} (h : s.us.anyError = true) : inboundStep s.us s = errorStep s.us s := if_pos h

theorem inboundStep_nothing {s : State} (clean : s.us.anyError = false) (h : s.us.rxne = false) :
    inboundStep s.us s = s := by
  simp [inboundStep, clean, h]

theorem inboundStep_waiting {s : State} (clean : s.us.anyError = false) (h : s.us.rxne = true) :
    inboundStep s.us s = receiveStep s := by
  simp [inboundStep, clean, h]

/-- A waiting byte is queued, RX's tail and drop count untouched. -/
theorem receiveStep_queues {s : State} (hr : Ring.InRange s.rx) (space : s.rx.isFull = false) :
    (receiveStep s).rx.contents = s.rx.contents ++ [s.us.rdr] ∧ (receiveStep s).rx.drop = s.rx.drop ∧
      (receiveStep s).rx.tail = s.rx.tail ∧ (receiveStep s).rx.size = s.rx.size := by
  cases hp : s.rx.push s.us.rdr with
  | none =>
    rw [Ring.push_eq_none.1 hp] at space
    cases space
  | some rx =>
    have : receiveStep s = (s.setUs s.us.dataRead).setRx rx := by simp only [receiveStep, hp]
    rw [this]
    exact ⟨Ring.push_contents hr hp, Ring.push_drop hp, Ring.push_tail hp, Ring.push_size hp⟩

theorem receiveStep_full {s : State} (full : s.rx.isFull = true) :
    receiveStep s = (s.setUs s.us.dataRead).setRx (s.rx.addDrop 1) := by
  simp only [receiveStep, Ring.push_eq_none.2 full]

/-- After reception no error flag is set and no byte is waiting, whatever was before. -/
theorem inboundStep_flags (s : State) :
    (inboundStep s.us s).us.anyError = false ∧ (inboundStep s.us s).us.rxne = false := by
  rcases inboundStep_cases s.us s with ⟨_, h⟩ | ⟨clean, _, _, _, h⟩ | ⟨clean, _, _, h⟩ | ⟨clean, hr, h⟩ <;> rw [h]
  · exact ⟨rfl, rfl⟩
  · exact ⟨clean, rfl⟩
  · exact ⟨clean, rfl⟩
  · exact ⟨clean, hr⟩

/-- Without an error the counters are unchanged. -/
theorem inboundStep_bt {s : State} (clean : s.us.anyError = false) : (inboundStep s.us s).bt = s.bt := by
  rcases inboundStep_cases s.us s with ⟨he, _⟩ | ⟨_, _, _, _, h⟩ | ⟨_, _, _, h⟩ | ⟨_, _, h⟩
  · rw [clean] at he
    cases he
  all_goals exact (congrArg State.bt h :)

theorem inboundStep_tdr (u : Usart) (s : State) : (inboundStep u s).us.tdr = s.us.tdr := by
  rcases inboundStep_cases u s with ⟨_, h⟩ | ⟨_, _, _, _, h⟩ | ⟨_, _, _, h⟩ | ⟨_, _, h⟩ <;>
    exact (congrArg (·.us.tdr) h :)

/-! ### Transmission (R188 step 3) -/

/-- All that step 3 does where it answers: nothing, unless the register is empty and its interrupt on; then it turns the
interrupt off, or sends the oldest byte. -/
inductive State.Transmitted (s : State) : State → Prop
  | idle (off : s.us.txe = false ∨ s.us.txeie = false) : s.Transmitted s
  | disarmed (free : s.us.txe = true) (on : s.us.txeie = true) (empty : s.tx.contents = []) :
      s.Transmitted (s.setUs { s.us with txeie := false })
  | sent (b : Byte) (tx : Ring) (free : s.us.txe = true) (on : s.us.txeie = true) (pop : s.tx.pop = .byte b tx)
      (oldest : s.tx.contents = b :: tx.contents) :
      s.Transmitted (((s.setTx tx).setUs (s.us.dataWritten b)).setTxLine (s.txLine ++ [b]))

/-- With TX well formed step 3 never faults. -/
theorem transmitStep_transmits {u : Usart} {s : State} (hwf : s.tx.wf = true) (same : u.txe = s.us.txe) :
    ∃ t, transmitStep u s = .next t ∧ s.Transmitted t := by
  have hr := Ring.wf.inRange hwf
  rcases transmitStep_cases u s with ⟨off, h⟩ | ⟨free, on, empty, h⟩ | ⟨free, on, b, tx, hp, h⟩ | ⟨hp, _⟩
  · rw [same] at off
    exact ⟨_, h, .idle (Bool.and_eq_false_iff.1 off)⟩
  · exact ⟨_, h, .disarmed (same ▸ free) on (Ring.contents_eq_nil ((Ring.isEmpty_iff hr).1 empty))⟩
  · exact ⟨_, h, .sent b tx (same ▸ free) on hp (Ring.pop_contents hr hp)⟩
  · exact absurd hp (Ring.pop_ne_unwritten hwf)

section
variable {s t : State}

/-- Step 3 leaves the receiving half alone. -/
theorem State.Transmitted.receiver (h : s.Transmitted t) :
    t.rx = s.rx ∧ t.bt = s.bt ∧ t.us.anyError = s.us.anyError ∧ t.us.rxne = s.us.rxne := by
  cases h <;> exact ⟨rfl, rfl, rfl, rfl⟩

/-- After step 3 the register is not empty or its interrupt is off. -/
theorem State.Transmitted.settled (h : s.Transmitted t) : (t.us.txeie && t.us.txe) = false := by
  cases h with
  | idle off => exact Bool.and_eq_false_iff.2 off.symm
  | disarmed => rfl
  | sent => exact Bool.and_false _

theorem State.Transmitted.eq_of_idle (h : s.Transmitted t) (off : s.us.txe = false ∨ s.us.txeie = false) : t = s := by
  cases h with
  | idle => rfl
  | disarmed free on | sent _ _ free on => simp [free, on] at off

theorem State.Transmitted.eq_of_empty (h : s.Transmitted t) (free : s.us.txe = true) (on : s.us.txeie = true)
    (empty : s.tx.contents = []) : t = s.setUs { s.us with txeie := false } := by
  cases h with
  | idle off => simp [free, on] at off
  | disarmed => rfl
  | sent _ _ _ _ _ oldest => simp [empty] at oldest

theorem State.Transmitted.eq_of_queued (h : s.Transmitted t) (free : s.us.txe = true) (on : s.us.txeie = true)
    {b : Byte} {rest : List Byte} (queued : s.tx.contents = b :: rest) : ∃ tx, s.tx.pop = .byte b tx ∧
      tx.contents = rest ∧ t = ((s.setTx tx).setUs (s.us.dataWritten b)).setTxLine (s.txLine ++ [b]) := by
  cases h with
  | idle off => simp [free, on] at off
  | disarmed _ _ empty => simp [queued] at empty
  | sent b' tx _ _ pop oldest =>
    obtain ⟨rfl, rfl⟩ := List.cons.inj (queued.symm.trans oldest)
    exact ⟨tx, pop, rfl, rfl⟩

end

/-! ### The whole handler (R188) -/

section
variable {s t : State}

/-- With well-formed rings the handler answers: reception, then transmission. -/
theorem execUsartIrq_next (h : s.RingsWf) : ∃ t, exec .usartIrq s = .next t ∧ (inboundStep s.us s).Transmitted t := by
  obtain ⟨_, txe, tx, _⟩ := inboundStep_keeps s.us s
  exact transmitStep_transmits (tx ▸ h.2) txe.symm

/-- After an entry nothing is left for the serial vector to request (R233). -/
theorem requests_serial_of_settled (clean : t.us.anyError = false) (taken : t.us.rxne = false)
    (settled : (t.us.txeie && t.us.txe) = false) : t.requests .serial = false := by
  simp [State.requests, (anyError_eq_false_iff _).1 clean, taken, settled]

theorem usartRule_ringsWf (h : s.RingsWf) : UsartRule s State.RingsWf State.RingsWf where
  errors _ := h
  queued _ _ _ hp := ⟨Ring.push_wf h.1 hp, h.2⟩
  dropped _ _ _ := h
  nothing _ _ := h
  quiet _ h := h
  disarmed _ h _ _ := h
  sent _ _ _ h _ hp := ⟨h.1, Ring.pop_wf h.2 hp⟩

end

/-! ### Draining (R192) -/

/-- The transmitter is on, its register empty and its interrupt on: the next entry of the handler looks at TX. -/
structure State.ReadyToSend (s : State) : Prop where
  rings : s.RingsWf
  ue : s.us.ue = true
  te : s.us.te = true
  txe : s.us.txe = true
  txeie : s.us.txeie = true

section
variable {s t u : State}

/-- What one entry of the handler does to the transmitting half of a state that is ready to send. -/
theorem execUsartIrq_of_ready (h : s.ReadyToSend) : ∃ u, exec .usartIrq s = .next u ∧ u.RingsWf ∧ u.us.ue = true ∧
    u.us.te = true ∧
    (s.tx.contents = [] → u.tx.contents = [] ∧ u.txLine = s.txLine ∧ u.us.txeie = false) ∧
    (∀ b rest, s.tx.contents = b :: rest →
      u.tx.contents = rest ∧ u.txLine = s.txLine ++ [b] ∧ u.us.txeie = true) := by
  obtain ⟨txeie, txe, tx, txLine⟩ := inboundStep_keeps s.us s
  obtain ⟨u, hu, sent⟩ := execUsartIrq_next h.rings
  have frame := holds_of_eq (usartRule_keeps s).exec hu
  have free := txe.trans h.txe
  have on := txeie.trans h.txeie
  refine ⟨u, hu, holds_of_eq (usartRule_ringsWf h.rings).exec hu, ?_, ?_, fun empty => ?_, fun b rest queued => ?_⟩
  · exact (congrArg (·.us.ue) frame :).trans h.ue
  · exact (congrArg (·.us.te) frame :).trans h.te
  · rw [sent.eq_of_empty free on (tx ▸ empty)]
    exact ⟨tx ▸ empty, txLine, rfl⟩
  · obtain ⟨_, _, hrest, rfl⟩ := sent.eq_of_queued free on (tx ▸ queued)
    exact ⟨hrest, by rw [← txLine]; rfl, on⟩

theorem drain_succ {n : Nat} (handler : exec .usartIrq s = .next u) (ue : u.us.ue = true) (te : u.us.te = true) :
    drain (n + 1) s = drain n (u.setUs { u.us with txe := true }) := by
  have event : exec .envTxe u = .next (u.setUs { u.us with txe := true }) := execEnvTxe_on ue te
  simp only [drain, handler, event]

/-- Each round sends the oldest byte and leaves the machine ready for the next; the last one finds TX empty. -/
theorem drain_sends_all (bytes : List Byte) (h : s.ReadyToSend) (queued : s.tx.contents = bytes) :
    ∃ t, drain (bytes.length + 1) s = some t ∧ t.txLine = s.txLine ++ bytes ∧ t.tx.contents = [] ∧
      t.us.txeie = false := by
  induction bytes generalizing s with
  | nil =>
    obtain ⟨u, hu, _, ue, te, last, _⟩ := execUsartIrq_of_ready h
    obtain ⟨empty, txLine, off⟩ := last queued
    exact ⟨_, drain_succ hu ue te, txLine.trans (List.append_nil _).symm, empty, off⟩
  | cons b rest ih =>
    obtain ⟨u, hu, rings, ue, te, _, sends⟩ := execUsartIrq_of_ready h
    obtain ⟨left, txLine, on⟩ := sends b rest queued
    have ready : (u.setUs { u.us with txe := true }).ReadyToSend := ⟨rings, ue, te, rfl, on⟩
    obtain ⟨t, ht, sent, done⟩ := ih ready left
    refine ⟨t, (drain_succ hu ue te).trans ht, ?_, done⟩
    rw [sent, State.setUs_txLine, txLine, List.append_assoc, List.singleton_append]

end

/-! ### Who writes the transmit-interrupt (R192 (a)) -/

section
variable {i : Instr} {s t : State}

/-- The other operations do not have the transmit-interrupt in their frame. -/
theorem keeps_txeie (h : s.keeps i t)
    (init : ∀ prio gok rxmode txmode pclkHz baud, i ≠ .btInit prio gok rxmode txmode pclkHz baud)
    (write : ∀ data length, i ≠ .btWrite data length) (serial : i ≠ .usartIrq) : t.us.txeie = s.us.txeie := by
  cases i with
  | btInit prio gok rxmode txmode pclkHz baud => exact absurd rfl (init prio gok rxmode txmode pclkHz baud)
  | btWrite data length => exact absurd rfl (write data length)
  | usartIrq => exact absurd rfl serial
  | tbInit _ _ _ | ilrRegister _ _ _ | ilrConfig _ _ _ _ _ _ | btRead _ _ | envEdge _ _
  | dispatch _ _ | vecL0 | vecL1 | vecL2 | vecL3 | vecL4 | vecL5to9 | vecL10to15 =>
    exact (congrArg (·.us.txeie) h.1 :)
  | _ => exact (congrArg (·.us.txeie) h :)

theorem runs_txeie_same (h : s.runs i t)
    (init : ∀ prio gok rxmode txmode pclkHz baud, i ≠ .btInit prio gok rxmode txmode pclkHz baud)
    (write : ∀ data length, i ≠ .btWrite data length) (serial : i ≠ .usartIrq) : t.us.txeie = s.us.txeie := by
  rcases runs_cases h with ⟨hk, -⟩ | ⟨-, p, hp⟩
  · exact keeps_txeie hk init write serial
  · exact (congrArg (·.us.txeie) hp.only.1 :)

/-- `BT_INIT` finds the transmit-interrupt off and leaves it off (R41, R184). -/
theorem execBtInit_txeie (prio : Byte) (gok : Bool) (rxmode txmode : PinMode) (pclkHz baud : Word)
    (dormant : s.DormantWf) :
    Holds (fun t => t.us.txeie = s.us.txeie) (execBtInit prio gok rxmode txmode pclkHz baud s) := by
  unfold execBtInit
  split
  · trivial
  · next init =>
    obtain ⟨-, -, -, -, -, off⟩ := dormant (by simpa using init)
    split
    · split
      · trivial
      · exact off.symm
    · exact rfl

/-- `BT_WRITE` never turns the transmit-interrupt off. -/
theorem writeFrameRule_txeie (data length : Word) :
    WriteFrameRule data length (fun u => u.us.txeie = true) (fun t => t.us.txeie = true) where
  pass _ _ h _ := h
  store _ _ _ h _ := h
  drop _ _ h := h
  suspended _ _ h := h
  idle _ _ h := h
  armed _ _ _ := rfl

theorem execBtWrite_txeie (data length : Word) (on : s.us.txeie = true) :
    Holds (fun t => t.us.txeie = true) (execBtWrite data length s) := by
  unfold execBtWrite
  split
  · split
    · exact on
    · exact (writeFrameRule_txeie data length).bytes _ _ _ s on
  · trivial

theorem runs_btWrite_txeie {data length : Word} (h : s.runs (.btWrite data length) t) (on : s.us.txeie = true) :
    t.us.txeie = true := by
  rcases h with h | ⟨f, hf, -, h⟩
  · exact holds_of_eq (execBtWrite_txeie data length on) h
  · cases f with
    | btWrite data length point => exact holds_of_eq ((writeFrameRule_txeie data length).resume point on) h
    | _ => simp [Frame.isOf, handlerVector?] at hf

/-- The serial handler turns the transmit-interrupt off where TX is empty, and writes it nowhere else (R188). -/
theorem usartRule_txeie (s : State) : UsartRule s (fun u => u.us.txeie = s.us.txeie ∧ u.tx = s.tx)
    (fun t => t.us.txeie = s.us.txeie ∨ t.us.txeie = false ∧ s.tx.isEmpty = true) where
  errors _ := ⟨rfl, rfl⟩
  queued _ _ _ _ := ⟨rfl, rfl⟩
  dropped _ _ _ := ⟨rfl, rfl⟩
  nothing _ _ := ⟨rfl, rfl⟩
  quiet _ h := .inl h.1
  disarmed _ h _ empty := .inr ⟨rfl, h.2 ▸ empty⟩
  sent _ _ _ h _ _ := .inl h.1

end

end Sys2Proof.Machine

namespace Sys2Proof

open Machine

/-- Settles O29: the cases of reception (R188 steps 1 and 2), which transmission leaves alone, and the handler's frame. -/
theorem usartReceives : Obligations.UsartReceives := by
  intro s h
  obtain ⟨t, ht, sent⟩ := execUsartIrq_next h
  obtain ⟨rx, bt, errors, rxne⟩ := sent.receiver
  obtain ⟨clean, taken⟩ := inboundStep_flags s
  have flags := (anyError_eq_false_iff _).1 (errors.trans clean)
  have frame := holds_of_eq (usartRule_keeps s).exec ht
  refine ⟨t, ht, fun asserted => ?_, fun ore fe nf pe => ?_, (congrArg (·.bt.init) frame :), (congrArg State.us frame :), ?_⟩
  · rw [rx, bt, inboundStep_error ((anyError_iff _).2 asserted)]
    obtain ⟨hore, hfe, hnf, hpe⟩ := flags
    exact ⟨bump_eq _ _, bump_eq _ _, bump_eq _ _, bump_eq _ _, errorsDropped_eq _ _, hore, hfe, hnf, hpe,
      rxne.trans taken⟩
  · have noError := (anyError_eq_false_iff s.us).2 ⟨ore, fe, nf, pe⟩
    obtain ⟨hore, hfe, hnf, hpe⟩ := flags
    rw [bt, inboundStep_bt noError, rx]
    refine ⟨rfl, hore, hfe, hnf, hpe, rxne.trans taken, fun empty => ?_, fun waiting space => ?_, fun waiting full => ?_⟩
    · rw [inboundStep_nothing noError empty]
    · rw [inboundStep_waiting noError waiting]
      exact receiveStep_queues (Ring.wf.inRange h.1) space
    · rw [inboundStep_waiting noError waiting, receiveStep_full full]
      rfl
  · rw [frame]

/-- Settles O30: the cases of transmission (R188 step 3), whose side reception leaves alone; with the flags cleared and the
transmitter settled nothing is requested (R233). -/
theorem usartTransmits : Obligations.UsartTransmits := by
  intro s h
  obtain ⟨t, ht, sent⟩ := execUsartIrq_next h
  obtain ⟨_, _, errors, rxne⟩ := sent.receiver
  obtain ⟨clean, taken⟩ := inboundStep_flags s
  obtain ⟨txeie, txe, tx, txLine⟩ := inboundStep_keeps s.us s
  have tdr := inboundStep_tdr s.us s
  refine ⟨t, ht, requests_serial_of_settled (errors.trans clean) (rxne.trans taken) sent.settled,
    fun free on empty => ?_, fun b rest free on queued => ?_, fun off => ?_⟩
  · rw [sent.eq_of_empty (txe.trans free) (txeie.trans on) (tx ▸ empty)]
    exact ⟨rfl, txe.trans free, tdr, tx, txLine⟩
  · obtain ⟨r, pop, hrest, rfl⟩ := sent.eq_of_queued (txe.trans free) (txeie.trans on) (tx ▸ queued)
    rw [tx] at pop
    exact ⟨rfl, rfl, txeie.trans on, hrest, (Ring.pop_eq_byte pop).2.2 ▸ rfl, by rw [← txLine]; rfl⟩
  · rw [sent.eq_of_idle (txe ▸ txeie ▸ off)]
    exact ⟨txeie, txe, tdr, tx, txLine⟩

/-- Settles O49, by induction on the queued bytes: each entry sends the oldest, and the one after the last turns the
transmit-interrupt off (R188, R192). -/
theorem drainingSendsEveryByte : Obligations.DrainingSendsEveryByte := by
  intro s rings ue te txe txeie
  rw [← Ring.length_contents rings.2]
  exact drain_sends_all _ ⟨rings, ue, te, txe, txeie⟩ rfl

/-- Settles O55: `BT_WRITE` only turns it on, the serial handler only off and with TX empty, `BT_INIT` leaves it off, and no
other operation has it in its frame (R192). -/
theorem transmitInterruptOwners : Obligations.TransmitInterruptOwners := by
  intro i s t dormant h
  have unchanged (same : t.us.txeie = s.us.txeie) :
      (s.us.txeie = false → t.us.txeie = true → ∃ data length, i = .btWrite data length) ∧
        (s.us.txeie = true → t.us.txeie = false → i = .usartIrq ∧ s.tx.isEmpty = true) := by
    rw [same]
    exact ⟨fun off on => by simp [off] at on, fun on off => by simp [on] at off⟩
  cases i with
  | btWrite data length =>
    exact ⟨fun _ _ => ⟨data, length, rfl⟩, fun on off => by simp [runs_btWrite_txeie h on] at off⟩
  | btInit prio gok rxmode txmode pclkHz baud =>
    exact unchanged (holds_of_eq (execBtInit_txeie prio gok rxmode txmode pclkHz baud dormant)
      (h.entered (not_isOf_btInit prio gok rxmode txmode pclkHz baud)))
  | usartIrq =>
    rcases holds_of_eq (usartRule_txeie s).exec (h.entered not_isOf_usartIrq) with same | ⟨off, empty⟩
    · exact unchanged same
    · exact ⟨fun _ on => by simp [off] at on, fun _ _ => ⟨rfl, empty⟩⟩
  | _ => exact unchanged (runs_txeie_same h nofun nofun nofun)

end Sys2Proof
end

section
/-! `BT_WRITE` and `BT_READ` byte by byte, whatever arrives at their points (R186, R187, R238). -/

namespace Sys2Proof.Machine

/-! ### The bytes of a transfer (R61, R65) -/

section
variable {s : State} {base : Word} {i j n : Nat}

/-- A transfer is shorter than the address space, so that no two of its bytes share an address. -/
theorem transferAddress_injective (hi : i < 2 ^ 32) (hj : j < 2 ^ 32)
    (h : transferAddress base i = transferAddress base j) : i = j := by
  have := base.isLt
  have := congrArg BitVec.toNat h
  rw [transferAddress_toNat, transferAddress_toNat] at this
  omega

theorem length_bytesAt (s : State) (base : Word) (n : Nat) : (s.bytesAt base n).length = n := by
  rw [State.bytesAt, List.length_map, List.length_range]

theorem length_drop_bytesAt (s : State) (base : Word) (n i : Nat) : ((s.bytesAt base n).drop i).length = n - i := by
  rw [List.length_drop, length_bytesAt]

theorem drop_bytesAt_self (s : State) (base : Word) (n : Nat) : (s.bytesAt base n).drop n = [] :=
  List.drop_eq_nil_of_le (length_bytesAt s base n).le

theorem drop_bytesAt_succ (h : i ≤ n) : (s.bytesAt base (n + 1)).drop i =
    (s.bytesAt base n).drop i ++ [s.memRead (transferAddress base n)] := by
  have : s.bytesAt base (n + 1) = s.bytesAt base n ++ [s.memRead (transferAddress base n)] := by
    rw [State.bytesAt, List.range_succ, List.map_append]
    rfl
  rw [this, List.drop_append_of_le_length ((length_bytesAt s base n).symm ▸ h)]

/-- Writing byte `n` leaves the bytes before it alone. -/
theorem bytesAt_memWrite (s : State) (b : Byte) (hn : n < 2 ^ 32) :
    (s.memWrite (transferAddress base n) b).bytesAt base n = s.bytesAt base n := by
  refine List.map_congr_left fun k hk => memRead_memWrite_other s b fun e => ?_
  have hk := List.mem_range.1 hk
  exact hk.ne (transferAddress_injective (by omega) hn e)

end

/-! ### Points (R238) -/

theorem waiting_or_undisturbed (s : State) : (∃ i later, s.arrivals = .deliver i :: later) ∨ s.undisturbed := by
  by_cases h : ∃ i later, s.arrivals = .deliver i :: later
  · exact .inl h
  · exact .inr fun i later e => h ⟨i, later, e⟩

theorem eq_nil_of_suffix {a b : List Arrival} (h : a <:+ b) (hb : b = []) : a = [] := List.suffix_nil.1 (hb ▸ h)

theorem pointPassed_suffix (s : State) : s.pointPassed.arrivals <:+ s.arrivals := List.tail_suffix _

/-! ### `BT_WRITE` (R186) -/

/-- The end of a `BT_WRITE` that has stored `n` bytes: the transmit-interrupt is armed if there is any. -/
def State.writeEnded (s : State) (n : Nat) : State :=
  { s with us := { s.us with txeie := s.us.txeie || decide (n ≠ 0) }, out := { res := BitVec.ofNat 32 n, ok := true } }

section
variable {data length : Word} {left i accepted : Nat} {s : State} {tx : Ring} {e : Instr} {later : List Arrival}

theorem writeFinish_eq (n : Nat) (s : State) : writeFinish n s = .next (s.writeEnded n) := by
  unfold writeFinish State.writeEnded
  split
  · next h => simp [h, State.setOut, trunc32]
  · next h => simp [h, State.setOut, State.setUs, trunc32]

theorem writeArm_waiting (h : s.arrivals = .deliver e :: later) (data length : Word) (n : Nat) :
    writeArm data length n s = .next (s.setFrames (.btWrite data length (.beforeArm n) :: s.frames)) :=
  atPoint_waiting h _ _

theorem writeArm_undisturbed (h : s.undisturbed) (data length : Word) (n : Nat) :
    writeArm data length n s = .next (s.pointPassed.writeEnded n) :=
  (atPoint_undisturbed h _ _).trans (writeFinish_eq n s.pointPassed)

theorem writeBytes_waiting (h : s.arrivals = .deliver e :: later) :
    writeBytes data length (left + 1) i accepted s =
      .next (s.setFrames (.btWrite data length (.beforeByte i accepted) :: s.frames)) :=
  atPoint_waiting h _ _

theorem writeBytes_stores (h : s.undisturbed) (hp : s.tx.push (s.memRead (transferAddress data i)) = some tx) :
    writeBytes data length (left + 1) i accepted s =
      writeBytes data length left (i + 1) (accepted + 1) (s.pointPassed.setTx tx) := by
  have hp : s.pointPassed.tx.push (s.pointPassed.memRead (transferAddress data i)) = some tx := hp
  refine (atPoint_undisturbed h _ _).trans ?_
  show (match s.pointPassed.tx.push (s.pointPassed.memRead (transferAddress data i)) with | some _ => _ | none => _) = _
  rw [hp]
  rfl

theorem writeBytes_full (h : s.undisturbed) (full : s.tx.isFull = true) :
    writeBytes data length (left + 1) i accepted s =
      writeArm data length accepted (s.pointPassed.setTx (s.tx.addDrop (trunc32 (length.toNat - i)))) := by
  have hp : s.pointPassed.tx.push (s.pointPassed.memRead (transferAddress data i)) = none := Ring.push_eq_none.2 full
  refine (atPoint_undisturbed h _ _).trans ?_
  show (match s.pointPassed.tx.push (s.pointPassed.memRead (transferAddress data i)) with | some _ => _ | none => _) = _
  rw [hp]
  rfl

/-- A transfer of something is what goes on from before its first byte. -/
theorem exec_btWrite_eq_resume (init : s.bt.init = true) (hl : length ≠ 0) (hd : data ≠ 0) :
    exec (.btWrite data length) s = resume (.btWrite data length (.beforeByte 0 0)) s := by
  have something : ¬ (length = 0 ∨ isNull data = true) := fun h => h.elim hl fun e => hd (isNull_iff.1 e)
  show execBtWrite data length s = _
  rw [execBtWrite, if_pos init, if_neg something]
  rfl

end

/-- `BT_WRITE` under way: begun at byte `i` in `s` it has come to byte `n` in `u`, the bytes between stored and `dropped`
counted. -/
structure State.Stored (data : Word) (i : Nat) (s : State) (n : Nat) (dropped : Word) (u : State) : Prop where
  le : i ≤ n
  wf : u.tx.wf = true
  contents : u.tx.contents = s.tx.contents ++ (s.bytesAt data n).drop i
  tail : u.tx.tail = s.tx.tail
  size : u.tx.size = s.tx.size
  drop : u.tx.drop = s.tx.drop + dropped
  arrivals : u.arrivals <:+ s.arrivals
  frame : u = { s with tx := u.tx, arrivals := u.arrivals }

section
variable {data length dropped : Word} {i n left : Nat} {s u t : State} {tx : Ring}

theorem State.stored_refl (hwf : s.tx.wf = true) (data : Word) (i : Nat) : s.Stored data i i 0 s where
  le := Nat.le_refl i
  wf := hwf
  contents := by rw [drop_bytesAt_self, List.append_nil]
  tail := rfl
  size := rfl
  drop := (BitVec.add_zero _).symm
  arrivals := List.suffix_rfl
  frame := rfl

theorem State.Stored.pass (h : s.Stored data i n dropped u) : s.Stored data i n dropped u.pointPassed where
  le := h.le
  wf := h.wf
  contents := h.contents
  tail := h.tail
  size := h.size
  drop := h.drop
  arrivals := (pointPassed_suffix u).trans h.arrivals
  frame := by rw [h.frame]; rfl

/-- Beside TX, `BT_WRITE` under way changes nothing that a step can see. -/
theorem State.Stored.kept (h : s.Stored data i n dropped u) :
    u.frames = s.frames ∧ u.us = s.us ∧ u.out = s.out ∧ u.dmem = s.dmem := by
  rw [h.frame]
  exact ⟨rfl, rfl, rfl, rfl⟩

theorem State.Stored.memRead (h : s.Stored data i n dropped u) (a : Word) : u.memRead a = s.memRead a := by
  rw [State.memRead, h.frame]
  rfl

/-- One more byte is stored behind the others (R181). -/
theorem State.Stored.store (h : s.Stored data i n 0 u)
    (hp : u.tx.push (u.memRead (transferAddress data n)) = some tx) : s.Stored data i (n + 1) 0 (u.setTx tx) where
  le := Nat.le_succ_of_le h.le
  wf := Ring.push_wf h.wf hp
  contents := by
    rw [State.setTx_tx, Ring.push_contents (Ring.wf.inRange h.wf) hp, h.contents, h.memRead, drop_bytesAt_succ h.le,
      List.append_assoc]
  tail := (Ring.push_tail hp).trans h.tail
  size := (Ring.push_size hp).trans h.size
  drop := (Ring.push_drop hp).trans h.drop
  arrivals := h.arrivals
  frame := by rw [h.frame]; rfl

/-- Counting dropped bytes touches the drop count alone. -/
theorem State.Stored.count (h : s.Stored data i n 0 u) (dropped : Word) :
    s.Stored data i n dropped (u.setTx (u.tx.addDrop dropped)) where
  le := h.le
  wf := h.wf
  contents := h.contents
  tail := h.tail
  size := h.size
  drop := congrArg (· + dropped) (h.drop.trans (BitVec.add_zero _))
  arrivals := h.arrivals
  frame := by rw [h.frame]; rfl

/-- Where a `BT_WRITE` that was begun at byte `i` in `s` can end its step: suspended before a byte, suspended before arming,
or at its end. It is suspended only where something waits, and before byte `i` itself only if that waits at once. -/
inductive State.WriteStops (data length : Word) (i : Nat) (s : State) : State → Prop
  | beforeByte (n : Nat) (u : State) (stored : s.Stored data i n 0 u) (more : n < length.toNat)
      (waiting : u.arrivals ≠ []) (further : s.undisturbed → i < n) :
      s.WriteStops data length i (u.setFrames (.btWrite data length (.beforeByte n n) :: u.frames))
  | beforeArm (n : Nat) (u : State) (stored : s.Stored data i n (trunc32 (length.toNat - n)) u)
      (le : n ≤ length.toNat) (finished : n = length.toNat ∨ u.tx.isFull = true) (waiting : u.arrivals ≠ []) :
      s.WriteStops data length i (u.setFrames (.btWrite data length (.beforeArm n) :: u.frames))
  | ended (n : Nat) (u : State) (stored : s.Stored data i n (trunc32 (length.toNat - n)) u)
      (le : n ≤ length.toNat) (finished : n = length.toNat ∨ u.tx.isFull = true) :
      s.WriteStops data length i (u.writeEnded n)

theorem writeArm_stops (h : s.Stored data i n (trunc32 (length.toNat - n)) u) (le : n ≤ length.toNat)
    (finished : n = length.toNat ∨ u.tx.isFull = true) :
    ∃ t, writeArm data length n u = .next t ∧ s.WriteStops data length i t := by
  rcases waiting_or_undisturbed u with ⟨e, later, waiting⟩ | und
  · exact ⟨_, writeArm_waiting waiting data length n, .beforeArm n u h le finished (by simp [waiting])⟩
  · exact ⟨_, writeArm_undisturbed und data length n, .ended n _ h.pass le finished⟩

/-- By induction on the bytes left: each is stored, or TX is full and the rest of them are counted. (`WriteRule` says neither
that the operation answers nor that something waits where it is suspended.) -/
theorem writeBytes_stops (hn : left + n = length.toNat) (h : s.Stored data i n 0 u)
    (further : i < n ∨ u.arrivals = s.arrivals) :
    ∃ t, writeBytes data length left n n u = .next t ∧ s.WriteStops data length i t := by
  induction left generalizing n u with
  | zero =>
    have all : n = length.toNat := by omega
    exact writeArm_stops (by rwa [all, Nat.sub_self, ← all]) all.le (.inl all)
  | succ left ih =>
    rcases waiting_or_undisturbed u with ⟨e, later, waiting⟩ | und
    · refine ⟨_, writeBytes_waiting waiting, .beforeByte n u h (by omega) (by simp [waiting]) fun und => ?_⟩
      exact further.resolve_right fun same => und e later (same ▸ waiting)
    · cases hp : u.tx.push (u.memRead (transferAddress data n)) with
      | some tx =>
        rw [writeBytes_stores und hp]
        exact ih (by omega) (h.pass.store hp) (.inl (Nat.lt_succ_of_le h.le))
      | none =>
        have full := Ring.push_eq_none.1 hp
        rw [writeBytes_full und full]
        exact writeArm_stops (h.pass.count _) (by omega) (.inr full)

theorem resumeBtWrite_stops (hwf : s.tx.wf = true) (hi : i ≤ length.toNat) :
    ∃ t, resume (.btWrite data length (.beforeByte i i)) s = .next t ∧ s.WriteStops data length i t :=
  writeBytes_stops (Nat.sub_add_cancel hi) (s.stored_refl hwf data i) (.inr rfl)

/-- Begun at its first byte, a `BT_WRITE` has stored as many bytes as the transfer has or as TX had space for. -/
theorem State.Stored.eq_min (h : s.Stored data 0 n dropped u) (hwf : s.tx.wf = true) (le : n ≤ length.toNat)
    (finished : n = length.toNat ∨ u.tx.isFull = true) : n = min length.toNat s.tx.space := by
  have hr := Ring.wf.inRange h.wf
  have hcount : u.tx.count = s.tx.count + n := by
    rw [← Ring.length_contents h.wf, h.contents, List.length_append, Ring.length_contents hwf, List.drop_zero,
      length_bytesAt]
  have hspace := Ring.count_add_space (Ring.wf.inRange hwf)
  have hle := Ring.count_le hr
  have hfull := Ring.isFull_iff hr
  rw [hcount, h.size] at hle hfull
  rcases finished with all | full
  · omega
  · have := hfull.1 full
    omega

end

/-! ### `BT_READ` (R187) -/

section
variable {output maxLength : Word} {left n : Nat} {s : State} {b : Byte} {rx : Ring} {e : Instr} {later : List Arrival}

theorem readBytes_waiting (h : s.arrivals = .deliver e :: later) : readBytes output maxLength (left + 1) n s =
    .next (s.setFrames (.btRead output maxLength n :: s.frames)) :=
  atPoint_waiting h _ _

theorem readBytes_empty (h : s.undisturbed) (hp : s.rx.pop = .empty) :
    readBytes output maxLength (left + 1) n s = .next (s.pointPassed.withResult true (trunc32 n)) := by
  have hp : s.pointPassed.rx.pop = .empty := hp
  refine (atPoint_undisturbed h _ _).trans ?_
  show (match Ring.pop s.pointPassed.rx with | .empty => _ | .byte _ _ => _ | .unwritten => _) = _
  rw [hp]
  rfl

theorem readBytes_copies (h : s.undisturbed) (hp : s.rx.pop = .byte b rx) :
    readBytes output maxLength (left + 1) n s = readBytes output maxLength left (n + 1)
      ((s.pointPassed.setRx rx).memWrite (transferAddress output n) b) := by
  have hp : s.pointPassed.rx.pop = .byte b rx := hp
  refine (atPoint_undisturbed h _ _).trans ?_
  show (match Ring.pop s.pointPassed.rx with | .empty => _ | .byte _ _ => _ | .unwritten => _) = _
  rw [hp]
  rfl

/-- A transfer of something is what goes on from before its first byte. -/
theorem exec_btRead_eq_resume (init : s.bt.init = true) (hl : maxLength ≠ 0) (ho : output ≠ 0) :
    exec (.btRead output maxLength) s = resume (.btRead output maxLength 0) s := by
  have something : ¬ (maxLength = 0 ∨ isNull output = true) := fun h => h.elim hl fun e => ho (isNull_iff.1 e)
  show execBtRead output maxLength s = _
  rw [execBtRead, if_pos init, if_neg something]
  rfl

end

/-- `BT_READ` under way: begun at byte `n` in `s` it has come to byte `m` in `u`, the oldest bytes of RX copied in between. -/
structure State.Copied (output : Word) (n : Nat) (s : State) (m : Nat) (u : State) : Prop where
  le : n ≤ m
  wf : u.rx.wf = true
  memory : Memory.wf u.dmem = true
  bytes : s.rx.contents = (u.bytesAt output m).drop n ++ u.rx.contents
  rx : u.rx = { s.rx with tail := u.rx.tail }
  others : ∀ a : Word, (∀ i, n ≤ i → i < m → a ≠ transferAddress output i) → u.memRead a = s.memRead a
  arrivals : u.arrivals <:+ s.arrivals
  frame : u = { s with rx := u.rx, dmem := u.dmem, arrivals := u.arrivals }

section
variable {output maxLength : Word} {n m left : Nat} {s u t : State} {b : Byte} {rx : Ring}

theorem State.copied_refl (hwf : s.rx.wf = true) (memory : Memory.wf s.dmem = true) (output : Word) (n : Nat) :
    s.Copied output n n s where
  le := Nat.le_refl n
  wf := hwf
  memory := memory
  bytes := by rw [drop_bytesAt_self, List.nil_append]
  rx := rfl
  others _ _ := rfl
  arrivals := List.suffix_rfl
  frame := rfl

theorem State.Copied.pass (h : s.Copied output n m u) : s.Copied output n m u.pointPassed where
  le := h.le
  wf := h.wf
  memory := h.memory
  bytes := h.bytes
  rx := h.rx
  others := h.others
  arrivals := (pointPassed_suffix u).trans h.arrivals
  frame := by rw [h.frame]; rfl

/-- The next byte goes from RX to DMEM, behind those copied before (R182). -/
theorem State.Copied.copy (h : s.Copied output n m u) (hm : m < 2 ^ 32) (hp : u.rx.pop = .byte b rx) :
    s.Copied output n (m + 1) ((u.setRx rx).memWrite (transferAddress output m) b) where
  le := Nat.le_succ_of_le h.le
  wf := Ring.pop_wf h.wf hp
  memory := Memory.wf_write h.memory _ b
  bytes := by
    have written : ((u.setRx rx).memWrite (transferAddress output m) b).memRead (transferAddress output m) = b :=
      memRead_memWrite_same h.memory _ b
    rw [drop_bytesAt_succ h.le, bytesAt_memWrite _ b hm, written, h.bytes, Ring.pop_contents (Ring.wf.inRange h.wf) hp,
      List.append_assoc]
    rfl
  rx := by
    obtain ⟨-, -, rfl⟩ := Ring.pop_eq_byte hp
    exact congrArg (fun r : Ring => { r with tail := u.rx.nextIndex u.rx.tail }) h.rx
  others a ha := (memRead_memWrite_other _ b (ha m h.le (Nat.lt_succ_self m))).trans
    (h.others a fun i hn hi => ha i hn (Nat.lt_succ_of_lt hi))
  arrivals := h.arrivals
  frame := by rw [h.frame]; rfl

/-- Where a `BT_READ` that was begun at byte `n` in `s` can end its step: suspended before a byte or at its end. It is
suspended only where something waits, and before byte `n` itself only if that waits at once. -/
inductive State.ReadStops (output maxLength : Word) (n : Nat) (s : State) : State → Prop
  | beforeByte (m : Nat) (u : State) (copied : s.Copied output n m u) (more : m < maxLength.toNat)
      (waiting : u.arrivals ≠ []) (further : s.undisturbed → n < m) :
      s.ReadStops output maxLength n (u.setFrames (.btRead output maxLength m :: u.frames))
  | ended (m : Nat) (u : State) (copied : s.Copied output n m u) (le : m ≤ maxLength.toNat)
      (finished : m = maxLength.toNat ∨ u.rx.contents = []) :
      s.ReadStops output maxLength n (u.withResult true (trunc32 m))

/-- By induction on the bytes that may still be copied: each is copied, or RX is empty. (`ReadRule` does not say which ended
the operation.) -/
theorem readBytes_stops (hm : left + m = maxLength.toNat) (h : s.Copied output n m u)
    (further : n < m ∨ u.arrivals = s.arrivals) :
    ∃ t, readBytes output maxLength left m u = .next t ∧ s.ReadStops output maxLength n t := by
  have := maxLength.isLt
  induction left generalizing m u with
  | zero => exact ⟨_, rfl, .ended m u h (by omega) (.inl (by omega))⟩
  | succ left ih =>
    rcases waiting_or_undisturbed u with ⟨e, later, waiting⟩ | und
    · refine ⟨_, readBytes_waiting waiting, .beforeByte m u h (by omega) (by simp [waiting]) fun und => ?_⟩
      exact further.resolve_right fun same => und e later (same ▸ waiting)
    · cases hp : u.rx.pop with
      | unwritten => exact absurd hp (Ring.pop_ne_unwritten h.wf)
      | empty =>
        have nothing := Ring.contents_eq_nil ((Ring.isEmpty_iff (Ring.wf.inRange h.wf)).1 (Ring.pop_eq_empty.1 hp))
        exact ⟨_, readBytes_empty und hp, .ended m _ h.pass (by omega) (.inr nothing)⟩
      | byte b rx =>
        rw [readBytes_copies und hp]
        exact ih (by omega) (h.pass.copy (by omega) hp) (.inl (Nat.lt_succ_of_le h.le))

theorem resumeBtRead_stops (hwf : s.rx.wf = true) (memory : Memory.wf s.dmem = true) (hn : n ≤ maxLength.toNat) :
    ∃ t, resume (.btRead output maxLength n) s = .next t ∧ s.ReadStops output maxLength n t :=
  readBytes_stops (Nat.sub_add_cancel hn) (s.copied_refl hwf memory output n) (.inr rfl)

/-- Beside RX and DMEM, `BT_READ` under way changes nothing that a step can see. -/
theorem State.Copied.kept (h : s.Copied output n m u) : u.frames = s.frames ∧ u.out = s.out := by
  rw [h.frame]
  exact ⟨rfl, rfl⟩

theorem State.Copied.taken (h : s.Copied output n m u) :
    (u.bytesAt output m).drop n = s.rx.contents.take (m - n) := by
  rw [h.bytes, ← length_drop_bytesAt u output m n, List.take_left]

theorem State.Copied.queued (h : s.Copied output n m u) : u.rx.contents = s.rx.contents.drop (m - n) := by
  rw [h.bytes, ← length_drop_bytesAt u output m n, List.drop_left]

/-- The bytes copied and those left are the ones that were live. -/
theorem State.Copied.count (h : s.Copied output n m u) (hwf : s.rx.wf = true) :
    m - n + u.rx.contents.length = s.rx.count := by
  rw [← Ring.length_contents hwf, h.bytes, List.length_append, length_drop_bytesAt]

end

end Sys2Proof.Machine

namespace Sys2Proof

open Machine

/-- Settles O26: entered, `BT_WRITE` stands before its first byte; from any byte it stops as the bytes left say; before arming
only the point is left (R186, R192, R238). -/
theorem btWriteAccountsForEveryByte : Obligations.BtWriteAccountsForEveryByte := by
  intro data length s
  refine ⟨fun init hl hd => ?entered, fun i hwf hi => ?byte, fun n => ⟨fun und => writeArm_undisturbed und data length n,
    fun e later waiting => writeArm_waiting waiting data length n⟩⟩
  case entered =>
    have entered := exec_btWrite_eq_resume init hl hd
    obtain ⟨left, hleft⟩ := Nat.exists_eq_succ_of_ne_zero (toNat_ne_zero hl)
    refine ⟨entered, fun e later waiting => entered.trans ?_⟩
    show writeBytes data length (length.toNat - 0) 0 0 s = _
    rw [hleft]
    exact writeBytes_waiting waiting
  case byte =>
    obtain ⟨t, ht, stops⟩ := resumeBtWrite_stops (data := data) hwf hi.le
    cases stops with
    | beforeByte n u h more _ further =>
      obtain ⟨frames, us, out, dmem⟩ := h.kept
      exact ⟨_, n, ht, h.le, more.le, h.contents, dmem, .inl ⟨congrArg _ frames, more, further,
        h.drop.trans (BitVec.add_zero _), us, out⟩⟩
    | beforeArm n u h le finished _ =>
      obtain ⟨frames, us, out, dmem⟩ := h.kept
      exact ⟨_, n, ht, h.le, le, h.contents, dmem, .inr ⟨finished, h.drop, .inl ⟨congrArg _ frames, us, out⟩⟩⟩
    | ended n u h le finished =>
      obtain ⟨frames, us, _, dmem⟩ := h.kept
      exact ⟨_, n, ht, h.le, le, h.contents, dmem, .inr ⟨finished, h.drop, .inr ⟨frames, us ▸ rfl, rfl⟩⟩⟩

/-- Settles O25: with nothing to arrive it is never suspended, and where it ends the count is known (R180, R186). -/
theorem btWriteScripted : Obligations.BtWriteScripted := by
  intro data length s quiet init hl hd hwf n
  obtain ⟨t, ht, stops⟩ := resumeBtWrite_stops (data := data) (length := length) hwf (Nat.zero_le _)
  rw [← exec_btWrite_eq_resume init hl hd] at ht
  cases stops with
  | beforeByte _ u h _ waiting | beforeArm _ u h _ _ waiting =>
    exact absurd (eq_nil_of_suffix h.arrivals quiet) waiting
  | ended k u h le finished =>
    obtain rfl : k = n := h.eq_min hwf le finished
    obtain ⟨_, us, _⟩ := h.kept
    have arrivals : u.arrivals = s.arrivals := by rw [quiet]; exact eq_nil_of_suffix h.arrivals quiet
    refine ⟨_, ht, rfl, h.contents, h.tail, h.size, h.drop, us ▸ rfl, ?_⟩
    rw [h.frame, arrivals]
    rfl

/-- Settles O27: the scripted run ends with the count known; entered, `BT_READ` stands before its first byte; from any byte
it stops as the bytes left and RX say (R187, R238). -/
theorem btReadCopiesInOrder : Obligations.BtReadCopiesInOrder := by
  intro output maxLength s hwf memory
  refine ⟨fun quiet init hl ho => ?scripted, fun init hl ho => ?entered, fun n hn => ?byte⟩
  case scripted =>
    obtain ⟨t, ht, stops⟩ := resumeBtRead_stops (output := output) (maxLength := maxLength) hwf memory (Nat.zero_le _)
    rw [← exec_btRead_eq_resume init hl ho] at ht
    cases stops with
    | beforeByte _ u h _ waiting => exact absurd (eq_nil_of_suffix h.arrivals quiet) waiting
    | ended m u h le finished =>
      have count := h.count hwf
      have hm : m = min maxLength.toNat s.rx.count := by
        rcases finished with all | empty
        · omega
        · rw [empty, List.length_nil] at count
          omega
      have arrivals : u.arrivals = s.arrivals := by rw [quiet]; exact eq_nil_of_suffix h.arrivals quiet
      rw [← hm]
      refine ⟨_, ht, rfl, h.queued, h.rx, h.taken, fun a ha => h.others a fun i _ hi => ha i hi, h.memory, ?_⟩
      rw [h.frame, arrivals]
      rfl
  case entered =>
    have entered := exec_btRead_eq_resume init hl ho
    obtain ⟨left, hleft⟩ := Nat.exists_eq_succ_of_ne_zero (toNat_ne_zero hl)
    refine ⟨entered, fun e later waiting => entered.trans ?_⟩
    show readBytes output maxLength (maxLength.toNat - 0) 0 s = _
    rw [hleft]
    exact readBytes_waiting waiting
  case byte =>
    obtain ⟨t, ht, stops⟩ := resumeBtRead_stops (output := output) hwf memory hn.le
    cases stops with
    | beforeByte m u h more _ further =>
      obtain ⟨frames, out⟩ := h.kept
      exact ⟨_, m, ht, h.le, more.le, (h.count hwf).symm ▸ Nat.le_add_right _ _, h.queued, h.rx, h.taken, h.others, h.memory,
        .inl ⟨congrArg _ frames, more, further, out⟩⟩
    | ended m u h le finished =>
      exact ⟨_, m, ht, h.le, le, (h.count hwf).symm ▸ Nat.le_add_right _ _, h.queued, h.rx, h.taken, h.others, h.memory,
        .inr ⟨h.kept.1, finished, rfl⟩⟩

end Sys2Proof
end

section
/-! A step with an operation in flight (R237, R238), and which handlers may enter and be in flight (R232 to R239). -/

namespace Sys2Proof.Machine

variable {s : State} {f : Frame} {below : List Frame} {i : Instr} {v w : VecId} {l : LineNo}

/-! ### A step in flight (R237, R238) -/

theorem step_inFlight (top : s.frames = f :: below) : step s = stepInFlight f below s := by
  simp only [step, top]

theorem step_arrives {later : List Arrival} (top : s.frames = f :: below) (waiting : s.arrivals = .deliver i :: later) :
    step s = arrive i (s.setArrivals later) := by
  simp only [step_inFlight top, stepInFlight, waiting]

theorem step_resumes (top : s.frames = f :: below) (und : s.undisturbed) : step s = resume f (s.setFrames below) := by
  rw [step_inFlight top, stepInFlight]
  split
  · next waiting => exact absurd waiting (und _ _)
  · rfl

/-- Whether an operation may enter does not depend on what else is still to arrive. -/
theorem entryRefusal_setArrivals (s : State) (a : List Arrival) (i : Instr) :
    (s.setArrivals a).entryRefusal i = s.entryRefusal i := rfl

/-- A callback with a command left issues it over its handler, less that command. -/
theorem resume_issued_undisturbed (und : s.undisturbed) (v : VecId) (snap : BitVec 16) (l : LineNo) (rest : List LineNo)
    (c : Instr) (cs : List Instr) : resume (.dispatch v snap l rest (.inCallback (c :: cs))) s =
      if c.port = .cmd then exec c (s.pointPassed.setFrames (.dispatch v snap l rest (.inCallback cs) :: s.frames))
      else .refused .notACommand := by
  rw [resume_issued, passPoint_of_undisturbed und]
  rfl

/-! ### Handlers and their vectors (R155, R232) -/

/-- Every operation of the IRQ port is the handler of a vector (R97). -/
theorem exists_handlerVector? (h : i.port = .irq) : ∃ w, handlerVector? i = some w := by
  cases i with
  | tickIrq | usartIrq | dispatch _ _ | vecL0 | vecL1 | vecL2 | vecL3 | vecL4 | vecL5to9 | vecL10to15 => exact ⟨_, rfl⟩
  | _ => cases h

theorem handlerVector?_eq_none_iff (i : Instr) : handlerVector? i = none ↔ i.port ≠ .irq := by
  constructor
  · intro none irq
    obtain ⟨w, hw⟩ := exists_handlerVector? irq
    rw [none] at hw
    cases hw
  · intro other
    exact Option.eq_none_iff_forall_ne_some.2 fun _ hw => other (port_of_handlerVector? hw)

/-! ### Requests (R155, R233) -/

theorem requests_serial_iff (s : State) : s.requests .serial = true ↔ (s.vectorAttr .serial).en = true ∧ s.us.ue = true ∧
    (s.us.rxneie = true ∧ (s.us.rxne = true ∨ s.us.ore = true) ∨ s.us.txeie = true ∧ s.us.txe = true) := by
  simp only [State.requests, Bool.and_eq_true, Bool.or_eq_true, and_assoc]

theorem mem_vectorLines_iff : l ∈ vectorLines v ↔ lineVector l = v :=
  ⟨lineVector_of_mem_vectorLines, fun h => h ▸ mem_vectorLines_lineVector l⟩

theorem requests_lines_iff (lines : VecId.ofLines v = true) : s.requests v = true ↔ (s.vectorAttr v).en = true ∧
    ∃ l : LineNo, lineVector l = v ∧ pendBit s.ilr.pend l = true ∧ s.ilr.attr[l].unmask = true := by
  simp only [requests_lines lines, Bool.and_eq_true, List.any_eq_true, mem_vectorLines_iff]

theorem ofLines_iff : VecId.ofLines v = true ↔ v ≠ .tick ∧ v ≠ .serial := by
  simp only [VecId.ofLines, Bool.and_eq_true, bne_iff_ne]

/-! ### What may enter (R235, R238, R239) -/

theorem preempts_irrefl (p : Byte) : preempts p p = false := by
  simp [preempts]

theorem entryRefusal_event (h : i.port = .env) (s : State) : s.entryRefusal i = none := by
  simp only [State.entryRefusal, h]

theorem entryRefusal_command (h : i.port = .cmd) (s : State) : s.entryRefusal i = some .notAnEvent := by
  simp only [State.entryRefusal, h]

theorem entryRefusal_handler_idle (h : handlerVector? i = some w) (idle : s.activeVectors = []) :
    s.entryRefusal i = none := by
  simp only [State.entryRefusal, port_of_handlerVector? h, h, idle]

/-- Over the running handler of `v`: a handler whose vector is active is refused, and another one unless it preempts. -/
theorem entryRefusal_handler {outer : List VecId} (h : handlerVector? i = some w) (active : s.activeVectors = v :: outer) :
    s.entryRefusal i = if w ∈ s.activeVectors then some .vectorActive
      else if preempts (s.vectorAttr w).prio (s.vectorAttr v).prio then none else some .notPreempting := by
  simp only [State.entryRefusal, port_of_handlerVector? h, h, active]

theorem entryRefusal_active (h : handlerVector? i = some w) (active : w ∈ s.activeVectors) :
    s.entryRefusal i = some .vectorActive := by
  obtain ⟨v, outer, running⟩ := List.exists_cons_of_ne_nil (List.ne_nil_of_mem active)
  rw [entryRefusal_handler h running, if_pos active]

/-! ### How many handlers are in flight (R239) -/

/-- Only handlers of lines have preemption points, so that no other one is ever suspended. -/
theorem ofLines_of_active (h : s.FramesWf) (active : v ∈ s.activeVectors) : VecId.ofLines v = true := by
  obtain ⟨f, hf, hv⟩ := List.mem_filterMap.1 active
  have hwf := h.1 f hf
  cases f with
  | dispatch _ _ _ _ _ =>
    cases hv
    exact hwf
  | _ => cases hv

/-- The vectors of lines are the seven that have an entry point of their own (R99, R155). -/
theorem mem_vectorEntries_of_ofLines (h : VecId.ofLines v = true) : v ∈ vectorEntries.map Prod.snd := by
  cases v with
  | tick | serial => cases h
  | _ => decide

theorem length_activeVectors_le (h : s.FramesWf) : s.activeVectors.length ≤ (vectorEntries.map Prod.snd).length := by
  have ⟨_, _, distinct⟩ := h
  exact (List.subperm_of_subset distinct fun _ active =>
    mem_vectorEntries_of_ofLines (ofLines_of_active h active)).length_le

end Sys2Proof.Machine

namespace Sys2Proof

open Machine

/-- Settles O42: in flight a step is the delivery, if one waits, and else the operation or its callback's next command
going on (R237, R238, R280). -/
theorem stepInFlight : Obligations.StepInFlight := by
  intro s f below top
  refine ⟨fun i later waiting => ?arrives, step_resumes top, fun v snap l rest c cs hf und => ?issues⟩
  case arrives =>
    rw [step_arrives top waiting, arrive, entryRefusal_setArrivals]
    rfl
  case issues =>
    have goesOn := step_resumes top und
    rw [hf, resume_issued_undisturbed (s := s.setFrames below) und] at goesOn
    exact ⟨fun command => goesOn.trans (if_pos command), fun other => goesOn.trans (if_neg other)⟩

/-- Settles O43: the vectors by their definition, the requests flag by flag, and each port's rule of entry (R155, R232 to
R239). -/
theorem handlerEntryRules : Obligations.HandlerEntryRules := by
  refine ⟨⟨rfl, rfl, by decide, fun _ _ => rfl, handlerVector?_eq_none_iff, by decide⟩,
    fun s => ⟨requests_serial_iff s, fun v tick serial => requests_lines_iff (ofLines_iff.2 ⟨tick, serial⟩)⟩,
    preempts_irrefl, fun s i => ⟨(entryRefusal_event · s), (entryRefusal_command · s), fun irq => ?handler⟩⟩
  obtain ⟨w, hw⟩ := exists_handlerVector? irq
  exact ⟨w, hw, entryRefusal_handler_idle hw, entryRefusal_active hw,
    fun v outer running inactive => (entryRefusal_handler hw running).trans (if_neg inactive)⟩

/-- Settles O60: within the invariant no vector is active twice, and only the seven vectors of lines can be (R239). -/
theorem nestingIsBounded : Obligations.NestingIsBounded := by
  intro s h
  have ⟨_, _, distinct⟩ := h.frames
  exact ⟨distinct, length_activeVectors_le h.frames⟩

end Sys2Proof
end

section
/-! Sources of interrupts stay enabled (R233), but for what a failed configuration leaves unspecified (R151). -/

namespace Sys2Proof.Machine

variable {i : Instr} {s t : State}

/-- Every vector that was enabled still is, and every line that was unmasked still is. -/
structure State.SourcesKept (s t : State) : Prop where
  vector : ∀ v, (s.vectorAttr v).en = true → (t.vectorAttr v).en = true
  line : ∀ l : LineNo, s.ilr.attr[l].unmask = true → t.ilr.attr[l].unmask = true

theorem sourcesKept_of_eq (nvic : t.nvic = s.nvic) (attr : t.ilr.attr = s.ilr.attr) : s.SourcesKept t where
  vector v en := by rwa [State.vectorAttr, nvic]
  line l unmask := by rwa [attr]

/-- Enabling one vector disables no other. -/
theorem enabled_of_set {v w : VecId} {prio : Byte}
    (nvic : t.nvic = s.nvic.set (vectorIndex v) { en := true, prio := prio }) (en : (s.vectorAttr w).en = true) :
    (t.vectorAttr w).en = true := by
  by_cases h : w = v
  · rw [h, State.vectorAttr, nvic]
    exact congrArg VectorAttr.en (vectorAttr_setVector_same s v _)
  · rwa [onlyVectors_of_set nvic w (by simpa using h)]

/-! ### The three operations that write a source -/

theorem execTbInit_sourcesKept (prio : Byte) (clockHz periodUs : Word) (s : State) :
    Holds s.SourcesKept (execTbInit prio clockHz periodUs s) := by
  unfold execTbInit
  split
  · trivial
  · split
    · exact ⟨fun _ => enabled_of_set rfl, fun _ unmask => unmask⟩
    · exact sourcesKept_of_eq rfl rfl

theorem execBtInit_sourcesKept (prio : Byte) (gok : Bool) (rxmode txmode : PinMode) (pclkHz baud : Word) (s : State) :
    Holds s.SourcesKept (execBtInit prio gok rxmode txmode pclkHz baud s) := by
  unfold execBtInit
  split
  · trivial
  · split
    · split
      · trivial
      · rw [transportStarted_eq]
        exact ⟨fun _ => enabled_of_set rfl, fun _ unmask => unmask⟩
    · exact sourcesKept_of_eq rfl rfl

/-- A configuration that succeeds enables its vector and unmasks its line. -/
theorem execIlrConfig_sourcesKept {gok : Bool} {edge : EdgeMode} {mode : PinMode}
    (good : lineConfigGood gok edge mode = true) (prio : Byte) (port : BitVec 4) (pin : LineNo) (s : State) :
    Holds s.SourcesKept (execIlrConfig prio gok edge mode port pin s) := by
  rw [execIlrConfig_good good]
  refine ⟨fun _ => enabled_of_set rfl, fun l unmask => ?_⟩
  have written := setLineAttr_attr s pin l { port := port, rise := decide (edge = .rising ∨ edge = .both)
                                             fall := decide (edge = .falling ∨ edge = .both), unmask := true }
  refine (congrArg LineAttr.unmask written).trans ?_
  split
  · rfl
  · exact unmask

/-! ### Every operation -/

theorem not_isOf_ilrConfig (prio : Byte) (gok : Bool) (edge : EdgeMode) (mode : PinMode) (port : BitVec 4) (pin : LineNo)
    (f : Frame) : ¬ f.isOf (.ilrConfig prio gok edge mode port pin) := by
  cases f <;> simp [Frame.isOf, handlerVector?]

/-- Every run but that of a failing configuration keeps the sources. -/
theorem runs_sourcesKept (h : s.runs i t)
    (good : ∀ prio gok edge mode port pin, i = .ilrConfig prio gok edge mode port pin →
      lineConfigGood gok edge mode = true) : s.SourcesKept t := by
  rcases runs_cases h with ⟨hk, -⟩ | ⟨-, p, hp⟩
  · cases i with
    | tbInit prio clockHz periodUs =>
      exact holds_of_eq (execTbInit_sourcesKept prio clockHz periodUs s)
        (h.entered (not_isOf_tbInit prio clockHz periodUs))
    | btInit prio gok rxmode txmode pclkHz baud =>
      exact holds_of_eq (execBtInit_sourcesKept prio gok rxmode txmode pclkHz baud s)
        (h.entered (not_isOf_btInit prio gok rxmode txmode pclkHz baud))
    | ilrConfig prio gok edge mode port pin =>
      exact holds_of_eq (execIlrConfig_sourcesKept (good prio gok edge mode port pin rfl) prio port pin s)
        (h.entered (not_isOf_ilrConfig prio gok edge mode port pin))
    | ilrRegister _ _ _ | btRead _ _ | envEdge _ _
    | dispatch _ _ | vecL0 | vecL1 | vecL2 | vecL3 | vecL4 | vecL5to9 | vecL10to15 =>
      exact sourcesKept_of_eq (congrArg State.nvic hk.1 :) (congrArg (·.ilr.attr) hk.1 :)
    | _ => exact sourcesKept_of_eq (congrArg State.nvic hk :) (congrArg (·.ilr.attr) hk :)
  · exact sourcesKept_of_eq (congrArg State.nvic hp.only.1 :) (congrArg (·.ilr.attr) hp.only.1 :)

/-- A configuration keeps the attributes of every other line and of every other group's vector, even if it fails. -/
theorem runs_ilrConfig_others {prio : Byte} {gok : Bool} {edge : EdgeMode} {mode : PinMode} {port : BitVec 4}
    {pin : LineNo} (h : s.runs (.ilrConfig prio gok edge mode port pin) t) :
    (∀ v, v ≠ lineVector pin → t.vectorAttr v = s.vectorAttr v) ∧
      ∀ l : LineNo, l ≠ pin → t.ilr.attr[l] = s.ilr.attr[l] := by
  have keeps := holds_of_eq (execIlrConfig_keeps prio gok edge mode port pin s)
    (h.entered (not_isOf_ilrConfig prio gok edge mode port pin))
  obtain ⟨-, lines, vectors⟩ := keeps_ilrConfig_kept keeps
  exact ⟨vectors, fun l hl => (lines l hl).1⟩

end Sys2Proof.Machine

namespace Sys2Proof

open Machine

/-- Settles O58: only the two initialisations and a configuration write a source, each to enable it; a configuration that
fails leaves the other lines and groups alone (R151, R233). -/
theorem sourcesStayEnabled : Obligations.SourcesStayEnabled := by
  intro i s t h
  by_cases failing : ∃ prio gok edge mode port pin,
      i = .ilrConfig prio gok edge mode port pin ∧ lineConfigGood gok edge mode ≠ true
  · obtain ⟨prio, gok, edge, mode, port, pin, rfl, bad⟩ := failing
    obtain ⟨vectors, lines⟩ := runs_ilrConfig_others h
    refine ⟨fun v en exempt => ?_, fun l unmask exempt => ?_⟩
    · rwa [vectors v fun same => bad (exempt prio gok edge mode port pin rfl same.symm)]
    · rwa [lines l fun same => bad (exempt prio gok edge mode port (same ▸ rfl))]
  · have kept := runs_sourcesKept h fun prio gok edge mode port pin e =>
      not_not.1 fun bad => failing ⟨prio, gok, edge, mode, port, pin, e, bad⟩
    exact ⟨fun v en _ => kept.vector v en, fun l unmask _ => kept.line l unmask⟩

end Sys2Proof
end

section
/-! Which commands fail, and what a failure leaves (R12, R230). -/

namespace Sys2Proof.Machine

variable {s t u : State} {i : Instr}

/-! ### Where success is certain -/

/-- If `t` is `s` with the command ended, it has succeeded. -/
def State.endsInSuccess (s t : State) : Prop := t.frames = s.frames → t.out.ok = true

theorem endsInSuccess_suspended {f : Frame} (h : u.frames = s.frames) :
    s.endsInSuccess (u.setFrames (f :: u.frames)) := fun ended =>
  (List.ne_cons_self (h.trans ended.symm)).elim

theorem microsRule_endsInSuccess (limit : Nat) (s : State) :
    MicrosRule limit (fun u => u.frames = s.frames) s.endsInSuccess where
  pass _ _ h _ := h
  haveT1 _ _ h _ := endsInSuccess_suspended h
  haveCvr _ _ _ h _ _ := endsInSuccess_suspended h
  mismatch _ _ h _ := endsInSuccess_suspended h
  done _ _ _ _ := rfl

theorem writeFrameRule_endsInSuccess (data length : Word) (s : State) :
    WriteFrameRule data length (fun u => u.frames = s.frames) s.endsInSuccess where
  pass _ _ h _ := h
  store _ _ _ h _ := h
  drop _ _ h := h
  suspended _ _ h := endsInSuccess_suspended h
  idle _ _ _ _ := rfl
  armed _ _ _ _ := rfl

theorem readRule_endsInSuccess (output maxLength : Word) (s : State) :
    ReadRule output maxLength (fun _ u => u.frames = s.frames) s.endsInSuccess where
  pass _ _ _ h _ := h
  copy _ _ _ _ h _ _ := h
  beforeByte _ _ h _ := endsInSuccess_suspended h
  done _ _ _ _ _ := rfl

theorem registerSecond_endsInSuccess (h : u.frames = s.frames) (l : LineNo) (second : TableStore) :
    Holds s.endsInSuccess (registerSecond l second u) :=
  holds_registerSecond (endsInSuccess_suspended h) fun _ _ _ => rfl

theorem execBtWrite_endsInSuccess (data length : Word) (s : State) :
    Holds s.endsInSuccess (execBtWrite data length s) := by
  unfold execBtWrite
  split
  · split
    · exact fun _ => rfl
    · exact (writeFrameRule_endsInSuccess data length s).bytes _ _ _ s rfl
  · trivial

/-- A command that goes on from a suspension to its end succeeds. -/
theorem resume_endsInSuccess {f : Frame} (command : f.isCommand = true) (s : State) :
    Holds s.endsInSuccess (resume f s) := by
  cases f with
  | nowMicros left point =>
    exact (microsRule_endsInSuccess _ s).resume (Nat.lt_succ_self left) point s rfl (endsInSuccess_suspended rfl)
  | ilrRegister l second => exact registerSecond_endsInSuccess rfl l second
  | btWrite data length point => exact (writeFrameRule_endsInSuccess data length s).resume point rfl
  | btRead output maxLength n => exact (readRule_endsInSuccess output maxLength s).resume rfl fun _ _ => rfl
  | dispatch _ _ _ _ _ => cases command

/-! ### The table (R230) -/

/-- If `t` is `s` with the command `i` ended, it failed exactly under the table's condition, and a failure leaves what R230
says. -/
def State.endsByTable (i : Instr) (s t : State) : Prop :=
  t.frames = s.frames → (t.out.ok = false ↔ failureCondition i) ∧
    (t.out.ok = false → t.out.res = 0 ∧
      ((∀ prio gok edge mode port pin, i ≠ .ilrConfig prio gok edge mode port pin) → t = { s with out := t.out }))

theorem State.endsInSuccess.byTable (h : s.endsInSuccess t) (unlisted : ¬ failureCondition i) : s.endsByTable i t := by
  intro ended
  rw [h ended]
  exact ⟨⟨nofun, fun listed => absurd listed unlisted⟩, nofun⟩

theorem endsByTable_failed (listed : failureCondition i) : s.endsByTable i (s.withResult false 0) := fun _ =>
  ⟨⟨fun _ => listed, fun _ => rfl⟩, fun _ => ⟨rfl, fun _ => rfl⟩⟩

theorem execTbInit_endsByTable (prio : Byte) (clockHz periodUs : Word) (s : State) :
    Holds (s.endsByTable (.tbInit prio clockHz periodUs)) (execTbInit prio clockHz periodUs s) := by
  cases init : s.tb.init with
  | true =>
    rw [execTbInit_again init]
    trivial
  | false =>
    cases fits : timerFits clockHz periodUs with
    | false =>
      rw [execTbInit_unfit init fits]
      exact endsByTable_failed ((timerFits_eq_false_iff prio).1 fits)
    | true =>
      have unlisted : ¬ failureCondition (.tbInit prio clockHz periodUs) := fun listed =>
        ne_true_of_eq_false ((timerFits_eq_false_iff prio).2 listed) fits
      rw [execTbInit_fits init fits]
      exact State.endsInSuccess.byTable (fun _ => rfl) unlisted

theorem execIlrRegister_endsByTable (line : Byte) (callback arg : Word) (s : State) :
    Holds (s.endsByTable (.ilrRegister line callback arg)) (execIlrRegister line callback arg s) := by
  by_cases inRange : line.toNat < 16
  · have unlisted : ¬ failureCondition (.ilrRegister line callback arg) := Nat.not_lt.2 (Nat.le_of_lt_succ inRange)
    by_cases null : callback = 0
    · rw [null, execIlrRegister_null (l := ⟨line.toNat, inRange⟩) rfl]
      trivial
    · obtain ⟨x, y, -, hexec⟩ := execIlrRegister_stores (arg := arg) (l := ⟨line.toNat, inRange⟩) rfl null s
      have same : (storeTable (s.drawn 1) ⟨line.toNat, inRange⟩ x).frames = s.frames := storeTable_frames _ _ x
      rw [hexec]
      exact holds_mono (registerSecond_endsInSuccess same _ y) fun _ h => h.byTable unlisted
  · rw [execIlrRegister_outOfRange (Nat.not_lt.1 inRange)]
    exact endsByTable_failed (i := .ilrRegister line callback arg) (Nat.not_lt.1 inRange)

theorem failureCondition_ilrConfig_iff {prio : Byte} {gok : Bool} {edge : EdgeMode} {mode : PinMode} {port : BitVec 4}
    {pin : LineNo} : failureCondition (.ilrConfig prio gok edge mode port pin) ↔ ¬ lineConfigGood gok edge mode = true := by
  rw [lineConfigGood_iff]
  simp only [failureCondition, not_and_or, not_not, Bool.not_eq_true, ne_eq]

theorem execIlrConfig_endsByTable (prio : Byte) (gok : Bool) (edge : EdgeMode) (mode : PinMode) (port : BitVec 4)
    (pin : LineNo) (s : State) :
    Holds (s.endsByTable (.ilrConfig prio gok edge mode port pin)) (execIlrConfig prio gok edge mode port pin s) := by
  by_cases good : lineConfigGood gok edge mode = true
  · rw [execIlrConfig_good good]
    exact State.endsInSuccess.byTable (fun _ => rfl) fun listed => failureCondition_ilrConfig_iff.1 listed good
  · rw [execIlrConfig_bad good]
    exact fun _ => ⟨⟨fun _ => failureCondition_ilrConfig_iff.2 good, fun _ => rfl⟩,
      fun _ => ⟨rfl, fun other => absurd rfl (other prio gok edge mode port pin)⟩⟩

theorem failureCondition_btInit_iff {prio : Byte} {gok : Bool} {rxmode txmode : PinMode} {pclkHz baud : Word} :
    failureCondition (.btInit prio gok rxmode txmode pclkHz baud) ↔ ¬ pinsGood gok rxmode txmode = true := by
  rw [pinsGood_iff]
  simp only [failureCondition, not_and_or, Bool.not_eq_true, ne_eq]

theorem execBtInit_endsByTable (prio : Byte) (gok : Bool) (rxmode txmode : PinMode) (pclkHz baud : Word) (s : State) :
    Holds (s.endsByTable (.btInit prio gok rxmode txmode pclkHz baud))
      (execBtInit prio gok rxmode txmode pclkHz baud s) := by
  cases init : s.bt.init with
  | true =>
    rw [execBtInit_again init]
    trivial
  | false =>
    by_cases good : pinsGood gok rxmode txmode = true
    · by_cases unfit : baud = 0 ∨ 0xFFFF < baudDivisor pclkHz.toNat baud.toNat
      · rw [execBtInit_unfit init good unfit]
        trivial
      · rw [execBtInit_fits init good unfit]
        exact State.endsInSuccess.byTable (fun _ => rfl) fun listed => failureCondition_btInit_iff.1 listed good
    · rw [execBtInit_badPins init good]
      exact endsByTable_failed (failureCondition_btInit_iff.2 good)

theorem exec_endsByTable (command : i.port = .cmd) (s : State) : Holds (s.endsByTable i) (exec i s) := by
  cases i with
  | tbInit prio clockHz periodUs => exact execTbInit_endsByTable prio clockHz periodUs s
  | ilrRegister line callback arg => exact execIlrRegister_endsByTable line callback arg s
  | ilrConfig prio gok edge mode port pin => exact execIlrConfig_endsByTable prio gok edge mode port pin s
  | btInit prio gok rxmode txmode pclkHz baud => exact execBtInit_endsByTable prio gok rxmode txmode pclkHz baud s
  | nowTicks | nowMillis | elapsedMs _ _ | elapsedUs _ _ | baudDiv _ _ | btStat _ =>
    exact State.endsInSuccess.byTable (fun _ => rfl) id
  | nowMicros => exact holds_mono ((microsRule_endsInSuccess _ s).exec s rfl) fun _ h => h.byTable id
  | btWrite data length => exact holds_mono (execBtWrite_endsInSuccess data length s) fun _ h => h.byTable id
  | btRead output maxLength =>
    exact holds_mono ((readRule_endsInSuccess output maxLength s).exec rfl fun _ => rfl) fun _ h => h.byTable id
  | _ => cases command

end Sys2Proof.Machine

namespace Sys2Proof

open Machine

/-- Settles O45: the four commands of the table fail on its conditions, and every other end, entered or going on, is a
success (R12, R230). -/
theorem failuresAreTheTable : Obligations.FailuresAreTheTable :=
  ⟨fun _ s _ command h => holds_of_eq (exec_endsByTable command s) h,
    fun _ s _ command h => holds_of_eq (resume_endsInSuccess command s) h⟩

end Sys2Proof
end

section
/-! No operation faults while both rings are well formed (R182, R230, V1). -/

namespace Sys2Proof.Machine

/-- The result is a next state or a refusal. -/
def NoFault (r : Result) : Prop := ∀ e, r ≠ .fault e

theorem noFault_next (t : State) : NoFault (.next t) := nofun

theorem noFault_of_eq_next {r : Result} {t : State} (h : r = .next t) : NoFault r := h ▸ noFault_next t

theorem noFault_refused (r : Refusal) : NoFault (.refused r) := nofun

variable {s : State} {next : State → Result}

/-- A preemption point only suspends the operation or lets it go on. -/
theorem noFault_atPoint {f : Frame} {go : State → Result} (hg : ∀ a, NoFault (go (s.setArrivals a))) :
    NoFault (atPoint f s go) := by
  rcases atPoint_cases f s go with ⟨_, _, _, h⟩ | ⟨_, h⟩ <;> rw [h]
  · exact noFault_next _
  · exact hg _

/-! ### Operations that pop no ring -/

theorem noFault_execTbInit (prio : Byte) (clockHz periodUs : Word) (s : State) :
    NoFault (execTbInit prio clockHz periodUs s) := by
  unfold execTbInit
  split
  · exact noFault_refused _
  · split <;> exact noFault_next _

theorem noFault_execTickIrq (s : State) : NoFault (execTickIrq s) := by
  unfold execTickIrq
  split
  · exact noFault_next _
  · exact noFault_refused _

theorem noFault_microsSecondRead (hn : ∀ s, NoFault (next s)) (left : Nat) (t1 : Word) (c : BitVec 24) (s : State) :
    NoFault (microsSecondRead left t1 c next s) := by
  unfold microsSecondRead
  split
  · exact noFault_next _
  · exact noFault_atPoint fun _ => hn _

theorem noFault_microsSample (hn : ∀ s, NoFault (next s)) (left : Nat) (t1 : Word) (s : State) :
    NoFault (microsSample left t1 next s) := by
  unfold microsSample
  split
  · exact noFault_refused _
  · exact noFault_atPoint fun _ => noFault_microsSecondRead hn _ _ _ _

theorem noFault_microsAttempts (left : Nat) (s : State) : NoFault (microsAttempts left s) := by
  induction left generalizing s with
  | zero => exact noFault_next _
  | succ left ih => exact noFault_atPoint fun _ => noFault_microsSample ih _ _ _

theorem noFault_execNowMicros (s : State) : NoFault (execNowMicros s) := by
  unfold execNowMicros
  split
  · exact noFault_microsAttempts _ s
  · exact noFault_next _

theorem noFault_resumeNowMicros (left : Nat) (point : MicrosPoint) (s : State) :
    NoFault (resumeNowMicros left point s) := by
  have again := noFault_microsAttempts left
  cases point with
  | haveT1 t1 => exact noFault_atPoint fun _ => noFault_microsSample again _ _ _
  | haveCvr t1 c => exact noFault_atPoint fun _ => noFault_microsSecondRead again _ _ _ _
  | mismatch => exact noFault_atPoint fun _ => again _

theorem noFault_registerSecond (l : LineNo) (second : TableStore) (s : State) : NoFault (registerSecond l second s) :=
  noFault_atPoint fun _ => noFault_next _

theorem noFault_execIlrRegister (line : Byte) (callback arg : Word) (s : State) :
    NoFault (execIlrRegister line callback arg s) := by
  unfold execIlrRegister
  split
  · exact noFault_next _
  · split
    · exact noFault_refused _
    · split <;> exact noFault_registerSecond _ _ _

theorem noFault_execIlrConfig (prio : Byte) (gok : Bool) (edge : EdgeMode) (mode : PinMode) (port : BitVec 4)
    (pin : LineNo) (s : State) : NoFault (execIlrConfig prio gok edge mode port pin s) := by
  unfold execIlrConfig
  split <;> exact noFault_next _

theorem noFault_execBtInit (prio : Byte) (gok : Bool) (rxmode txmode : PinMode) (pclkHz baud : Word) (s : State) :
    NoFault (execBtInit prio gok rxmode txmode pclkHz baud s) := by
  unfold execBtInit
  split
  · exact noFault_refused _
  · split
    · split
      · exact noFault_refused _
      · exact noFault_next _
    · exact noFault_next _

theorem noFault_writeArm (data length : Word) (accepted : Nat) (s : State) :
    NoFault (writeArm data length accepted s) :=
  noFault_atPoint fun _ => noFault_next _

/-- `BT_WRITE` pushes and never pops. -/
theorem noFault_writeBytes (data length : Word) (left i accepted : Nat) (s : State) :
    NoFault (writeBytes data length left i accepted s) := by
  induction left generalizing i accepted s with
  | zero => exact noFault_writeArm _ _ _ _
  | succ left ih =>
    refine noFault_atPoint fun _ => ?_
    show NoFault (match Ring.push _ _ with | some tx => _ | none => _)
    split
    · exact ih _ _ _
    · exact noFault_writeArm _ _ _ _

theorem noFault_execBtWrite (data length : Word) (s : State) : NoFault (execBtWrite data length s) := by
  unfold execBtWrite
  split
  · split
    · exact noFault_next _
    · exact noFault_writeBytes _ _ _ _ _ s
  · exact noFault_refused _

theorem noFault_resumeBtWrite (data length : Word) (point : WritePoint) (s : State) :
    NoFault (resumeBtWrite data length point s) := by
  cases point with
  | beforeByte i accepted => exact noFault_writeBytes _ _ _ _ _ s
  | beforeArm accepted => exact noFault_writeArm _ _ _ s

theorem noFault_execEnvEdge (dir : Direction) (line : LineNo) (s : State) : NoFault (execEnvEdge dir line s) := by
  unfold execEnvEdge
  split <;> exact noFault_next _

/-! ### The dispatcher -/

section
variable {v : VecId} {snap : BitVec 16} {l : LineNo} {rest : List LineNo}

theorem noFault_runCallback (hn : ∀ s, NoFault (next s)) (commands : List Instr) (s : State) :
    NoFault (runCallback v snap l rest commands next s) := by
  cases commands with
  | nil => exact noFault_atPoint fun _ => hn _
  | cons c cs => exact noFault_next _

theorem noFault_invokeLine (hn : ∀ s, NoFault (next s)) (s : State) : NoFault (invokeLine v snap l rest next s) := by
  unfold invokeLine
  split
  · exact noFault_runCallback hn _ _
  · exact hn s

theorem noFault_serviceLine (hn : ∀ s, NoFault (next s)) (s : State) : NoFault (serviceLine v snap l rest next s) := by
  unfold serviceLine
  split
  · exact noFault_atPoint fun _ => noFault_invokeLine hn _
  · exact hn s

theorem noFault_dispatchLines (lines : List LineNo) (s : State) : NoFault (dispatchLines v snap lines s) := by
  induction lines generalizing s with
  | nil => exact noFault_next s
  | cons l rest ih => exact noFault_atPoint fun _ => noFault_serviceLine ih _

theorem noFault_resumeDispatch (point : DispatchPoint) (s : State) :
    NoFault (resumeDispatch v snap l rest point s) := by
  have lines := noFault_dispatchLines (v := v) (snap := snap) rest
  cases point with
  | beforeLine => exact noFault_atPoint fun _ => noFault_serviceLine lines _
  | acknowledged => exact noFault_atPoint fun _ => noFault_invokeLine lines _
  | inCallback commands => exact noFault_runCallback lines _ _

end

/-! ### The two consumers of the rings -/

/-- A well-formed RX ring stays well formed as `BT_READ` pops it, so that every byte it reads has been written. -/
theorem noFault_readBytes (output maxLength : Word) (left n : Nat) (h : s.rx.wf = true) :
    NoFault (readBytes output maxLength left n s) := by
  induction left generalizing n s with
  | zero => exact noFault_next _
  | succ left ih =>
    refine noFault_atPoint fun _ => ?_
    show NoFault (match Ring.pop _ with | .empty => _ | .byte b rx => _ | .unwritten => _)
    split
    · exact noFault_next _
    · next hp => exact ih _ (Ring.pop_wf h hp)
    · next hp => exact absurd hp (Ring.pop_ne_unwritten h)

theorem noFault_execBtRead (output maxLength : Word) (h : s.rx.wf = true) : NoFault (execBtRead output maxLength s) := by
  unfold execBtRead
  split
  · split
    · exact noFault_next _
    · exact noFault_readBytes _ _ _ _ h
  · exact noFault_refused _

theorem noFault_execUsartIrq (h : s.RingsWf) : NoFault (exec .usartIrq s) := by
  obtain ⟨t, ht, -⟩ := execUsartIrq_next h
  exact noFault_of_eq_next ht

/-! ### Every operation and every step -/

theorem noFault_exec (i : Instr) (h : s.RingsWf) : NoFault (exec i s) := by
  have ⟨rx, _⟩ := h
  cases i with
  | nowTicks | nowMillis | elapsedMs _ _ | elapsedUs _ _ | baudDiv _ _ | btStat _ | envCvr _ => exact noFault_next _
  | tbInit _ _ _ => exact noFault_execTbInit _ _ _ s
  | nowMicros => exact noFault_execNowMicros s
  | ilrRegister _ _ _ => exact noFault_execIlrRegister _ _ _ s
  | ilrConfig _ _ _ _ _ _ => exact noFault_execIlrConfig _ _ _ _ _ _ s
  | btInit _ _ _ _ _ _ => exact noFault_execBtInit _ _ _ _ _ _ s
  | btWrite _ _ => exact noFault_execBtWrite _ _ s
  | btRead _ _ => exact noFault_execBtRead _ _ rx
  | tickIrq => exact noFault_execTickIrq s
  | usartIrq => exact noFault_execUsartIrq h
  | envEdge _ _ => exact noFault_execEnvEdge _ _ s
  | envRx nf fe pe byte => exact noFault_of_eq_next (execEnvRx_eq nf fe pe byte s)
  | envTxe => exact noFault_of_eq_next (execEnvTxe_eq s)
  | dispatch _ _ | vecL0 | vecL1 | vecL2 | vecL3 | vecL4 | vecL5to9 | vecL10to15 => exact noFault_dispatchLines _ s

theorem noFault_resume (f : Frame) (h : s.RingsWf) : NoFault (resume f s) := by
  have ⟨rx, _⟩ := h
  rcases f.issued?_cases with own | ⟨v, snap, l, rest, c, cs, rfl⟩
  · cases f with
    | nowMicros left point => exact noFault_resumeNowMicros left point s
    | ilrRegister l second => exact noFault_registerSecond l second s
    | btWrite data length point => exact noFault_resumeBtWrite data length point s
    | btRead output maxLength n => exact noFault_readBytes _ _ _ _ rx
    | dispatch v snap l rest point =>
      rw [resume_dispatch own]
      exact noFault_resumeDispatch point s
  · rw [resume_issued, passPoint_eq]
    split
    · exact noFault_exec c h
    · exact noFault_refused _

theorem noFault_arrive (i : Instr) (h : s.RingsWf) : NoFault (arrive i s) := by
  unfold arrive
  split
  · exact noFault_refused _
  · exact noFault_exec i h

theorem noFault_step (h : s.RingsWf) : NoFault (step s) := by
  unfold step stepInFlight
  split
  · split
    · exact noFault_arrive _ h
    · exact noFault_resume _ h
  · split
    · exact noFault_exec _ h
    · exact noFault_refused _

end Sys2Proof.Machine

namespace Sys2Proof

open Machine

/-- Settles O47: only the two consumers of the rings can fault, and in a well-formed ring they find every cell written
(R31, R182, R230). -/
theorem nothingFaults : Obligations.NothingFaults := fun _ e h => noFault_step h.rings e

end Sys2Proof
end

section
/-! The three handler bodies work on parts of the state that do not overlap (R236). -/

namespace Sys2Proof.Machine

/-- The parts of the state that the handler bodies read and write: the Time Base, the rings with the serial peripheral, and
the line router with its callback trace. -/
inductive HandlerPart where
  | timer | serial | lines

/-- `s` with one part taken from `u`. -/
def State.withPart (s : State) (p : HandlerPart) (u : State) : State :=
  match p with
  | .timer => { s with tb := u.tb }
  | .serial => { s with rx := u.rx, tx := u.tx, bt := u.bt, us := u.us, txLine := u.txLine }
  | .lines => { s with ilr := u.ilr, calls := u.calls }

/-- `i` is the handler body of the part `p`: in a scripted run it reads and writes that part alone, so that it does to any
state with the same part what it does to this one. -/
def WorksOn (i : Instr) (p : HandlerPart) : Prop :=
  ∀ s t u : State, s.Scripted → u.Scripted → exec i s = .next t → exec i (u.withPart p s) = .next (u.withPart p t)

section
variable {p q : HandlerPart} {s s1 t : State} {a b : Instr}

theorem withPart_self (s : State) (p : HandlerPart) : s.withPart p s = s := by
  cases p <;> rfl

theorem withPart_scripted (h : s.Scripted) (p : HandlerPart) (u : State) : (s.withPart p u).Scripted := by
  cases p <;> exact h

/-- Taking one part leaves the others, so that taking another one back changes nothing. -/
theorem withPart_withPart_back (h : p ≠ q) (s u : State) : s.withPart q (s.withPart p u) = s := by
  match p, q, h with
  | .timer, .serial, _ | .timer, .lines, _ | .serial, .timer, _ | .serial, .lines, _ | .lines, .timer, _
  | .lines, .serial, _ => rfl

theorem withPart_comm (h : p ≠ q) (s t u : State) : (s.withPart p t).withPart q u = (s.withPart q u).withPart p t := by
  match p, q, h with
  | .timer, .serial, _ | .timer, .lines, _ | .serial, .timer, _ | .serial, .lines, _ | .lines, .timer, _
  | .lines, .serial, _ => rfl

/-- A handler body changes its own part alone. -/
theorem WorksOn.frame (ha : WorksOn a p) (hs : s.Scripted) (h : exec a s = .next t) : t = s.withPart p t := by
  have own := ha s t s hs hs h
  rw [withPart_self, h] at own
  exact Host.Outcome.next.inj own

/-- Handler bodies of two parts may be entered in either order: neither reads or writes what the other does. -/
theorem WorksOn.commute (ha : WorksOn a p) (hb : WorksOn b q) (parts : p ≠ q) (hs : s.Scripted)
    (h1 : exec a s = .next s1) (h2 : exec b s1 = .next t) : ∃ s2, exec b s = .next s2 ∧ exec a s2 = .next t := by
  have frame1 := ha.frame hs h1
  have hs1 : s1.Scripted := frame1 ▸ withPart_scripted hs p s1
  have frame2 := hb.frame hs1 h2
  refine ⟨s.withPart q t, ?_, ?_⟩
  · have untouched : s.withPart q s1 = s := by rw [frame1, withPart_withPart_back parts]
    rw [← hb s1 t s hs1 hs h2, untouched]
  · have untouched : (s.withPart q t).withPart p s = s.withPart q t := by
      rw [withPart_comm parts.symm, withPart_self]
    have merged : (s.withPart q t).withPart p s1 = t := by
      rw [withPart_comm parts.symm, ← frame1, ← frame2]
    have moved := ha s s1 (s.withPart q t) hs (withPart_scripted hs q t) h1
    rwa [untouched, merged] at moved

end

/-! ### The three bodies -/

theorem tickIrq_worksOn : WorksOn .tickIrq .timer := by
  intro s t u _ _ h
  cases init : s.tb.init with
  | false => cases h.symm.trans (execTickIrq_beforeInit init)
  | true =>
    obtain rfl := Host.Outcome.next.inj (h.symm.trans (execTickIrq_running init))
    exact execTickIrq_running (s := u.withPart .timer s) init

theorem receiveStep_queued {s : State} {rx : Ring} (hp : s.rx.push s.us.rdr = some rx) :
    receiveStep s = (s.setUs s.us.dataRead).setRx rx := by
  simp only [receiveStep, hp]

theorem receiveStep_withPart (s u : State) :
    receiveStep (u.withPart .serial s) = u.withPart .serial (receiveStep s) := by
  cases hp : s.rx.push s.us.rdr with
  | some rx =>
    rw [receiveStep_queued hp, receiveStep_queued (s := u.withPart .serial s) hp]
    rfl
  | none =>
    have full := Ring.push_eq_none.1 hp
    rw [receiveStep_full full, receiveStep_full (s := u.withPart .serial s) full]
    rfl

theorem inboundStep_withPart (w : Usart) (s u : State) :
    inboundStep w (u.withPart .serial s) = u.withPart .serial (inboundStep w s) := by
  unfold inboundStep
  split
  · rfl
  · split
    · exact receiveStep_withPart s u
    · rfl

theorem transmitStep_disarms {w : Usart} {s : State} (free : w.txe = true) (on : s.us.txeie = true)
    (empty : s.tx.isEmpty = true) : transmitStep w s = .next (s.setUs { s.us with txeie := false }) := by
  simp only [transmitStep, free, on, Ring.pop_eq_empty.2 empty, Bool.and_true, if_true]

theorem transmitStep_sends {w : Usart} {s : State} {b : Byte} {tx : Ring} (free : w.txe = true) (on : s.us.txeie = true)
    (hp : s.tx.pop = .byte b tx) :
    transmitStep w s = .next (((s.setTx tx).setUs (s.us.dataWritten b)).setTxLine (s.txLine ++ [b])) := by
  simp only [transmitStep, free, on, hp, Bool.and_true, if_true]

theorem transmitStep_withPart {w : Usart} {s t : State} (h : transmitStep w s = .next t) (u : State) :
    transmitStep w (u.withPart .serial s) = .next (u.withPart .serial t) := by
  rcases transmitStep_cases w s with ⟨off, hs⟩ | ⟨free, on, empty, hs⟩ | ⟨free, on, b, tx, hp, hs⟩ | ⟨-, hs⟩
  all_goals cases h.symm.trans hs
  · exact if_neg (ne_true_of_eq_false off)
  · exact transmitStep_disarms (s := u.withPart .serial s) free on empty
  · exact transmitStep_sends (s := u.withPart .serial s) free on hp

theorem usartIrq_worksOn : WorksOn .usartIrq .serial := by
  intro s t u _ _ h
  show transmitStep s.us (inboundStep s.us (u.withPart .serial s)) = _
  rw [inboundStep_withPart]
  exact transmitStep_withPart h u

/-- A scripted dispatch reads the line router alone and adds its records behind those of before. -/
theorem dispatch_worksOn (first last : LineNo) : WorksOn (.dispatch first last) .lines := by
  intro s t u hs hu h
  obtain ⟨t', hrun, pend, calls, frame⟩ := runDispatch_scripted hs (lineVector first) first last
  obtain rfl := Host.Outcome.next.inj (h.symm.trans hrun)
  obtain ⟨v, hrun', pend', calls', frame'⟩ :=
    runDispatch_scripted (withPart_scripted hu .lines s) (lineVector first) first last
  have samePend : v.ilr.pend = t.ilr.pend := pend_ext fun l => (pend' l).trans (pend l).symm
  have sameCalls : v.calls = t.calls := calls'.trans calls.symm
  refine hrun'.trans (congrArg _ ?_)
  rw [frame', samePend, sameCalls, frame]
  rfl

end Sys2Proof.Machine

namespace Sys2Proof

open Machine

/-- Settles O59: the tick handler works on the Time Base, the serial handler on the rings and the peripheral, and a dispatch
on the line router and its trace (R236 (a)). -/
theorem handlersCommute : Obligations.HandlersCommute := by
  intro first last a b s s1 t hs ha hb different h1 h2
  have tick := tickIrq_worksOn
  have serial := usartIrq_worksOn
  have lines := dispatch_worksOn first last
  simp only [List.mem_cons, List.not_mem_nil, or_false] at ha hb
  rcases ha with rfl | rfl | rfl
  · rcases hb with rfl | rfl | rfl
    · exact absurd rfl different
    · exact tick.commute serial nofun hs h1 h2
    · exact tick.commute lines nofun hs h1 h2
  · rcases hb with rfl | rfl | rfl
    · exact serial.commute tick nofun hs h1 h2
    · exact absurd rfl different
    · exact serial.commute lines nofun hs h1 h2
  · rcases hb with rfl | rfl | rfl
    · exact lines.commute tick nofun hs h1 h2
    · exact lines.commute serial nofun hs h1 h2
    · exact absurd rfl different

end Sys2Proof
end

section
/-! How the RX drop count follows the error counters (R196, R282), what works at reset (R271), and a registration that goes
on from between its two stores (R150, R277). -/

namespace Sys2Proof.Machine

/-! ### Drops and errors (R196, R282) -/

/-- The RX drops that no error counter accounts for, modulo 2^32. -/
def State.unflaggedDrops (s : State) : Word := s.rx.drop - (s.bt.errOre + s.bt.errFe + s.bt.errNf + s.bt.errPe)

/-- From `s` to `t` the unflagged drops grow by one exactly if `s` has a byte waiting, unflagged, that finds RX full. -/
def State.DropsAccounted (s t : State) : Prop :=
  t.unflaggedDrops = s.unflaggedDrops +
    if s.us.anyError = false ∧ s.us.rxne = true ∧ s.rx.isFull = true then 1 else 0

variable {s t : State}

theorem State.DropsAccounted.of_eq (same : t.unflaggedDrops = s.unflaggedDrops)
    (unfull : ¬ (s.us.anyError = false ∧ s.us.rxne = true ∧ s.rx.isFull = true)) : s.DropsAccounted t := by
  rw [State.DropsAccounted, if_neg unfull, add_zero, same]

/-- Each flagged error adds one to its counter and one to the drop count, so that they cancel. -/
theorem errorStep_unflaggedDrops (u : Usart) (s : State) : (errorStep u s).unflaggedDrops = s.unflaggedDrops := by
  have drop : (errorStep u s).rx.drop = bump (bump (bump (bump s.rx.drop u.ore) u.fe) u.nf) u.pe := rfl
  have bt : (errorStep u s).bt = s.bt.counted u := rfl
  simp only [State.unflaggedDrops, drop, bt, Transport.counted, bump_eq]
  ring

/-- A full RX adds one drop that no counter has; a push adds none; transmission touches neither side. -/
theorem usartRule_dropsAccounted (s : State) : UsartRule s s.DropsAccounted s.DropsAccounted where
  errors flagged := .of_eq (errorStep_unflaggedDrops s.us s) (by simp [flagged])
  queued _ _ _ hp := .of_eq (congrArg (· - _) (Ring.push_drop hp)) (by simp [(Ring.push_eq_some hp).1])
  dropped clean waiting full := by
    rw [State.DropsAccounted, if_pos ⟨clean, waiting, full⟩]
    exact (sub_add_eq_add_sub ..).symm
  nothing _ taken := .of_eq rfl (by simp [taken])
  quiet _ h := h
  disarmed _ h _ _ := h
  sent _ _ _ h _ _ := h

/-! ### Handlers that find nothing (R152, R188, R271) -/

/-- With no error flagged, no byte waiting and the transmit register not empty, the serial handler changes nothing. -/
theorem exec_usartIrq_idle (clean : s.us.anyError = false) (taken : s.us.rxne = false) (busy : s.us.txe = false) :
    exec .usartIrq s = .next s := by
  show transmitStep s.us (inboundStep s.us s) = .next s
  rw [inboundStep_nothing clean taken]
  exact if_neg (by simp [busy])

theorem dueCalls_of_no_pending (idle : ∀ l, pendBit s.ilr.pend l = false) (p : LineNo → Bool) : s.dueCalls p = [] := by
  simp [State.dueCalls, idle]

/-- With no line pending, a handler of lines in a scripted run changes nothing. -/
theorem runDispatch_idle (hs : s.Scripted) (idle : ∀ l, pendBit s.ilr.pend l = false) (v : VecId) (first last : LineNo) :
    runDispatch v first last s = .next s := by
  obtain ⟨t, hrun, pend, calls, frame⟩ := runDispatch_scripted hs v first last
  have samePend : t.ilr.pend = s.ilr.pend := pend_ext fun l => by rw [pend, idle, Bool.false_and]
  have sameCalls : t.calls = s.calls := by rw [calls, dueCalls_of_no_pending idle, List.append_nil]
  rw [hrun, frame, samePend, sameCalls]

/-! ### The reset state (R41, R271) -/

/-- A new ring has room: its size is at least 2. -/
theorem Ring.ofSize_isFull {n : Nat} (h : goodSize n = true) : (ofSize n).isFull = false := by
  have two := goodSize_two_le h
  rw [← Bool.not_eq_true, isFull_iff (wf.inRange (ofSize_wf h)), ofSize_count, ofSize_size]
  omega

theorem resetSized_scripted (nRx nTx : Nat) : (State.resetSized nRx nTx).Scripted := ⟨rfl, rfl⟩

/-- At reset the counters are 0 and both rings are empty and not full. -/
theorem resetSized_statValue {nRx nTx : Nat} (hRx : Ring.goodSize nRx = true) (hTx : Ring.goodSize nTx = true)
    (sel : StatSel) :
    statValue (State.resetSized nRx nTx) sel = if sel = .rxEmpty ∨ sel = .txEmpty then 1 else 0 := by
  cases sel with
  | rxFull => exact congrArg boolWord (Ring.ofSize_isFull hRx)
  | txFull => exact congrArg boolWord (Ring.ofSize_isFull hTx)
  | rxDrop | txDrop | errOre | errFe | errNf | errPe | rxEmpty | txEmpty => rfl

/-! ### A suspended registration (R150, R277) -/

/-- With nothing delivered at its point a suspended registration stores what is left into the entry as it is then. -/
theorem resume_ilrRegister_undisturbed (h : s.undisturbed) (l : LineNo) (second : TableStore) :
    ∃ t, resume (.ilrRegister l second) s = .next t ∧ t.out = { res := 1, ok := true } ∧
      t.ilr.table[l] = (storeTable s l second).ilr.table[l] ∧
      (∀ k : LineNo, k ≠ l → t.ilr.table[k] = s.ilr.table[k]) ∧
      t = { s.pointPassed with out := t.out, ilr := { s.ilr with table := t.ilr.table } } := by
  have sameEntry : (storeTable s.pointPassed l second).ilr = (storeTable s l second).ilr := by cases second <;> rfl
  refine ⟨_, registerSecond_undisturbed h l second, rfl, ?_, fun k hk => storeTable_table_other _ second hk, ?_⟩
  · exact congrArg (·.table[l]) sameEntry
  · rw [storeTable_eq]
    rfl

end Sys2Proof.Machine

namespace Sys2Proof

open Machine

/-- Settles O31: reception adds to the drop count what it adds to the error counters, and one more only for a byte that
finds RX full (R196, R282). -/
theorem rxDropAccounting : Obligations.RxDropAccounting := fun s _ h =>
  holds_of_eq (usartRule_dropsAccounted s).exec h

/-- Settles O2: at reset nothing is initialised, flagged or pending, and both rings are empty (R41, R271). -/
theorem operationsAtReset : Obligations.OperationsAtReset := by
  intro nRx nTx hRx hTx s
  refine ⟨?clocks, fun _ _ => ⟨execBtWrite_beforeInit rfl, execBtRead_beforeInit rfl⟩, execTickIrq_beforeInit rfl,
    exec_usartIrq_idle rfl rfl rfl, fun first last => ?dispatch, fun sel => ?stat⟩
  case clocks =>
    simp only [List.forall_mem_cons]
    exact ⟨rfl, rfl, execNowMicros_beforeInit rfl, List.forall_mem_nil _⟩
  case dispatch =>
    exact runDispatch_idle (resetSized_scripted nRx nTx) (fun l => (resetSized_line nRx nTx l).2.2) _ first last
  case stat => rw [exec_btStat, resetSized_statValue hRx hTx]

/-- Settles O14: the second store goes into the entry as it is then, or the registration is suspended as it was (R150,
R238, R277). -/
theorem tornRegistrationCompletes : Obligations.TornRegistrationCompletes := by
  intro l s
  refine ⟨fun second i later waiting => registerSecond_waiting waiting l second, fun h => ⟨fun arg => ?_, fun cb => ?_⟩⟩
  · obtain ⟨t, hrun, out, entry, others, frame⟩ := resume_ilrRegister_undisturbed h l (.argument arg)
    exact ⟨t, hrun, out, entry.trans (by simp), others, frame⟩
  · obtain ⟨t, hrun, out, entry, others, frame⟩ := resume_ilrRegister_undisturbed h l (.callback cb)
    exact ⟨t, hrun, out, entry.trans (by simp), others, frame⟩

end Sys2Proof
end
